-- ==== Sys2Proof/Word.lean ====
section
/-! DEFINITION. The unsigned values of the block (00_scope.md R10): bytes, 16-bit and 32-bit words. No signed value occurs. -/

namespace Sys2Proof

/-- R10: an 8-bit unsigned value. -/
abbrev Byte := BitVec 8

/-- R10: a 16-bit unsigned value. -/
abbrev U16 := BitVec 16

/-- R10: a 32-bit unsigned value. -/
abbrev U32 := BitVec 32

end Sys2Proof
end

