-- ==== Sys2Proof/Config.lean ====
section
/-! DEFINITION. The constants of 00_scope.md R7, the parameters of R8 as plain data, the test configuration of R9,
and the values the spec leaves free. Which configurations are legal is `Machine.configOk` (Machine/Construct.lean). -/

namespace Sys2Proof

/-- R7, R101: the 32-bit preamble constant. -/
def preamble : U32 := 0xAA55AA55#32

/-- R7, R102: the 32-bit postamble constant. -/
def postamble : U32 := 0xBB55BB55#32

/-- R7: the longest payload, in bytes; it is also the size of the spaces RX_PL and TX_PL (R60). -/
def maxPayload : Nat := 256

/-- R8, R11: WIRE_ORDER. -/
inductive WireOrder where
  | le
  | be
deriving DecidableEq, Repr

/-- R8: an inclusive range of type codes. -/
structure Range where
  lo : Byte
  hi : Byte
deriving DecidableEq, Repr

/-- R8: the set of classes LEGAL gives one direction, one bit a class. -/
structure ClassSet where
  cmd : Bool
  evt : Bool
  rsp : Bool
deriving DecidableEq, Repr

/-- R8, R140: CHECKSUM_FN, named by plain data. DESIGN CHOICE (log 5), safe: `given n` is any function at all,
`Config.givenChecksum n`. -/
inductive ChecksumFn where
  | xorFold
  | given (n : Nat)
deriving DecidableEq, Repr

/-- R8: every parameter of an instance, fixed at construction (R37). `tPay` lists T_PAY(len) for len = 0 .. 256
(DEDUCED, log 6, safe: only a length that passed HDR_VALID is ever looked up). -/
structure Config where
  wireOrder : WireOrder
  checksumFn : ChecksumFn
  cmdRange : Range
  evtRange : Range
  rspRange : Range
  dirH2T : Byte
  dirT2H : Byte
  legalH2T : ClassSet
  legalT2H : ClassSet
  ackType : Byte
  nackType : Byte
  txDir : Byte
  originTransport : Byte
  tHdr : U32
  tPay : List U32
  tCrc : U32
  tAck : U32
  maxRetries : U32
  nackCountsRetry : Bool
  flushOnTrailerError : Bool
  rxCap : U32
  txCap : U32
  txqCap : U32
  reqOverhead : U32
deriving DecidableEq, Repr

/-- R8, D5: the default of LEGAL for host to target. -/
def Config.defaultLegalH2T : ClassSet := { cmd := true, evt := false, rsp := true }

/-- R8, D5: the default of LEGAL for target to host. -/
def Config.defaultLegalT2H : ClassSet := { cmd := false, evt := true, rsp := true }

/-- R9: the test configuration TC. It is no claim about the reference firmware. -/
def Config.tc : Config where
  wireOrder := .le
  checksumFn := .xorFold
  cmdRange := { lo := 0x00#8, hi := 0x3F#8 }
  evtRange := { lo := 0x80#8, hi := 0xBF#8 }
  rspRange := { lo := 0x40#8, hi := 0x7F#8 }
  dirH2T := 0x01#8
  dirT2H := 0x02#8
  legalH2T := Config.defaultLegalH2T
  legalT2H := Config.defaultLegalT2H
  ackType := 0x40#8
  nackType := 0x41#8
  txDir := 0x02#8
  originTransport := 0x00#8
  tHdr := 100#32
  tPay := (List.range 257).map (fun len => BitVec.ofNat 32 (100 + len))
  tCrc := 50#32
  tAck := 500#32
  maxRetries := 3#32
  nackCountsRetry := true
  flushOnTrailerError := true
  rxCap := 512#32
  txCap := 512#32
  txqCap := 1024#32
  reqOverhead := 2#32

/-- R140, D2: the checksum function of a configuration that names one other than XorFold. Nothing is known of it. -/
opaque Config.givenChecksum : Nat → List Byte → U32

/-- The pieces of state R45 leaves unspecified after RESET. -/
inductive Unspecified where
  | rxHdr
  | rxPl
  | txReq
  | txPl
  | rxBuf
  | txBuf
deriving DecidableEq, Repr

/-- R45, 93 items 2.2 to 2.4 ("any value"): byte `i` of an unspecified piece of state after the `n`-th RESET.
A free value (DESIGN CHOICE, log 8), safe: nothing is known of it. -/
opaque Config.freeByte : Unspecified → Nat → Nat → Byte

end Sys2Proof
end

