-- ==== Sys2Proof/Syntax.lean ====
section
/-! DEFINITION. The operations of the block (30_encoding.md R115), one constructor for each row of
spec/opcode_table.json, and what an agent issues: an operation word and the operands beside it (R116). -/

namespace Sys2Proof

/-- R23, R103: a frame header. -/
structure Header where
  type : Byte
  dir : Byte
  len : U16
deriving DecidableEq, Repr

/-- R145: four bytes in wire order. -/
structure Quad where
  b0 : Byte
  b1 : Byte
  b2 : Byte
  b3 : Byte
deriving DecidableEq, Repr

/-- R17, R147: the value of the type-class function. -/
inductive Class where
  | cmd
  | evt
  | rsp
  | none
deriving DecidableEq, Repr

/-- R5: the agents that issue operations. -/
inductive Agent where
  | lineRx
  | lineTx
  | clock
  | main
  | producer
  | dispatcher
  | resetter
deriving DecidableEq, Repr

/-- R115: the operation set. `txEnqueue`, `chk`, `hdrPack`, `hdrUnpack`, `hdrValid` and `frameEncode` carry the
operands that travel beside the word (R116); `rxByte` and `classify` carry imm. -/
inductive Instr where
  | reset
  | rxByte (b : Byte)
  | rxPoll
  | rxRelease
  | txEnqueue (origin : Byte) (ackReq : Bool) (hdr : Header) (pl : List Byte)
  | txPoll
  | ackIn
  | nackIn
  | txDrain
  | queueDepth
  | tick
  | chk (m : List Byte)
  | hdrPack (hdr : Header)
  | hdrUnpack (s : Quad)
  | classify (t : Byte)
  | hdrValid (hdr : Header)
  | frameEncode (hdr : Header) (pl : List Byte)
deriving DecidableEq, Repr

/-- R5, R115: the agent that issues an operation; `none` for a pure one, which any agent may evaluate. -/
def Instr.agent : Instr → Option Agent
  | .reset => some .resetter
  | .rxByte _ => some .lineRx
  | .rxPoll => some .main
  | .rxRelease => some .dispatcher
  | .txEnqueue _ _ _ _ => some .producer
  | .txPoll => some .main
  | .ackIn => some .dispatcher
  | .nackIn => some .dispatcher
  | .txDrain => some .lineTx
  | .queueDepth => some .producer
  | .tick => some .clock
  | .chk _ => none
  | .hdrPack _ => none
  | .hdrUnpack _ => none
  | .classify _ => none
  | .hdrValid _ => none
  | .frameEncode _ _ => none

/-- R116: the operands beside an operation word. An operation reads only the ones R115 gives it (log 10). -/
structure Beside where
  origin : Byte
  ackReq : Bool
  hdr : Header
  quad : Quad
  bytes : List Byte
deriving DecidableEq, Repr

/-- Operands that are all zero: what an operation that takes none is issued with. -/
def Beside.zero : Beside where
  origin := 0
  ackReq := false
  hdr := { type := 0, dir := 0, len := 0 }
  quad := { b0 := 0, b1 := 0, b2 := 0, b3 := 0 }
  bytes := []

/-- R116: one operation as an agent issues it. -/
structure Issue where
  word : BitVec 16
  beside : Beside
deriving DecidableEq, Repr

end Sys2Proof
end

