-- ==== Sys2Proof/Machine/State.lean ====
section
/-! DEFINITION. Everything the spec gives the machine, as plain data (10_state.md, 20_memory.md), its state after
construction (R341, R45), and the reasons a step can stop. -/

namespace Sys2Proof.Machine

/-- A byte space: (index, byte) cells, indices strictly rising, none equal to what an unlisted index reads as. -/
abbrev Memory := List Host.Cell

/-- What an index that nothing has written reads as. DESIGN CHOICE (log 9), unsafe: the spec leaves the storage
unspecified and no rule reads it before writing it. -/
def Memory.unlisted : Byte := 0

/-- The canonical form, from a lower bound on the first index. -/
def Memory.wfFrom : Nat → Memory → Bool
  | _, [] => true
  | lo, (a, b) :: m => decide (lo ≤ a) && decide (b ≠ Memory.unlisted) && Memory.wfFrom (a + 1) m

/-- The canonical form of a byte space. -/
def Memory.wf (m : Memory) : Bool := Memory.wfFrom 0 m

/-- R25, R34: a time event. -/
structure TimeEvent where
  rem : U32
  active : Bool
  raised : Bool
deriving DecidableEq, Repr

/-- R61: the indices of a ring buffer. `cap` is set at construction and by RESET (R63). -/
structure Indices where
  cap : Nat
  head : Nat
  tail : Nat
  full : Bool
deriving DecidableEq, Repr

/-- R61: a ring buffer and its storage bytes. -/
structure Ring where
  ix : Indices
  buf : Memory
deriving DecidableEq, Repr

/-- R17, R72: a Send Request as the transmit queue holds it. -/
structure Request where
  origin : Byte
  ackReq : Bool
  hdr : Header
  pl : List Byte
deriving DecidableEq, Repr

/-- R72: the transmit queue, a list of requests, oldest first, and the indices of the ring it is backed by
(DEDUCED, log 14, safe). -/
structure Queue where
  ix : Indices
  reqs : List Request
deriving DecidableEq, Repr

/-- R31: the in-progress Send Request; `pl` is the space TX_PL (R60). -/
structure TxReq where
  origin : Byte
  ackReq : Bool
  hdr : Header
  pl : Memory
deriving DecidableEq, Repr

/-- R21: the deframer's states. -/
inductive RxState where
  | waitPreamble
  | waitHeader
  | waitPayload
  | waitCrcPost
  | packetReady
deriving DecidableEq, Repr

/-- R30: the delivery machine's states. -/
inductive TxState where
  | pollPending
  | transmitPacket
deriving DecidableEq, Repr

/-- R20, R115: what an operation answers on the output ports. `enqOk` is TX_ENQUEUE's Boolean, the only answer R6 lets
a claim observe, and `bool` is HDR_VALID's. -/
inductive Result where
  | none
  | enqOk (b : Bool)
  | bool (b : Bool)
  | byte (b : Option Byte)
  | word (v : U32)
  | bytes (s : List Byte)
  | header (h : Header)
  | cls (c : Class)
deriving DecidableEq, Repr

/-- The machine's state. `cfg` is written by no operation (R37, log 4). `built` is whether the instance has been
constructed (R342, log 16). `inbox` (log 1), `result` (log 3) and `freeCtr` (log 8) are the model's own. -/
@[ext]
structure State where
  cfg : Config
  built : Bool
  inbox : List Issue
  result : Result
  freeCtr : Nat
  rxState : RxState
  preIdx : BitVec 2
  rxHdr : Header
  rxPl : Memory
  rxTmr : TimeEvent
  txState : TxState
  txReq : TxReq
  txRetry : U32
  txNoack : Bool
  ackTmr : TimeEvent
  rx : Ring
  tx : Ring
  q : Queue
  errCode : Byte
  dropCnt : U32
  abortCnt : U32
  abandonCnt : U32
  rxOverrun : Bool
  wireOut : List Byte
deriving DecidableEq, Repr

/-- Why the machine stops with a fault. Both are safe, and no state that satisfies `State.Inv` raises either. -/
inductive Fault where
  /-- Raised by RX_POLL when it asks the RX ring for more bytes than it holds (93 item 1.3, R66). Safe. -/
  | rxReadShort
  /-- Raised by RX_POLL, TX_POLL and NACK_IN on an access outside indices 0..255 of RX_PL or TX_PL, or on a payload
  that is not the length it is written with (R13: cannot occur). Safe. -/
  | payloadIndex
deriving DecidableEq, Repr

/-- Why a step has no meaning. -/
inductive Refusal where
  /-- Raised by an arm of exec whose instruction has no meaning yet. Safe. -/
  | notModelled (mnemonic : String)
  /-- Raised by fetching a reserved operation word (R117). Safe. -/
  | reservedWord (w : BitVec 16)
  /-- Raised by TX_ENQUEUE and FRAME_ENCODE on operands that are not a packet (R149, R230). Safe. -/
  | notAPacket
  /-- Raised by fetching under a configuration that breaks a constraint of R8. Safe. -/
  | badConfig
  /-- Raised by fetching before the instance is constructed (R342). Safe. -/
  | notConstructed
deriving DecidableEq, Repr

/-- R45: a time event after reset. -/
def TimeEvent.idle : TimeEvent := { rem := 0, active := false, raised := false }

/-- R45, R63: the indices of an empty ring. -/
def Indices.empty (cap : Nat) : Indices := { cap := cap, head := 0, tail := 0, full := false }

/-- R45: the state an instance of configuration `c` is constructed in (R341, R342). rx_hdr, rx_pl, tx_req and the
ring storage are 0 here (DESIGN CHOICE, log 7, unsafe: R45 leaves them unspecified). -/
def State.constructed (c : Config) : State where
  cfg := c
  built := true
  inbox := []
  result := .none
  freeCtr := 0
  rxState := .waitPreamble
  preIdx := 0
  rxHdr := { type := 0, dir := 0, len := 0 }
  rxPl := []
  rxTmr := TimeEvent.idle
  txState := .pollPending
  txReq := { origin := 0, ackReq := false, hdr := { type := 0, dir := 0, len := 0 }, pl := [] }
  txRetry := 0
  txNoack := false
  ackTmr := TimeEvent.idle
  rx := { ix := Indices.empty c.rxCap.toNat, buf := [] }
  tx := { ix := Indices.empty c.txCap.toNat, buf := [] }
  q := { ix := Indices.empty c.txqCap.toNat, reqs := [] }
  errCode := 0
  dropCnt := 0
  abortCnt := 0
  abandonCnt := 0
  rxOverrun := false
  wireOut := []

/-- R341: the state after reset, of an instance with the configuration TC of R9 (DESIGN CHOICE, log 4). -/
def State.reset : State := State.constructed Config.tc

end Sys2Proof.Machine
end

