-- ==== Sys2Proof/Machine/Operands.lean ====
section
/-! DEFINITION. The combinational part of the block: wire order (R11), headers, the checksum, frames (41_codec.md,
30_encoding.md part A), and the requests the deframer builds (R150). Nothing here reads or writes the state. -/

namespace Sys2Proof.Machine

/-- R11: wire16. -/
def wire16 (o : WireOrder) (x : U16) : List Byte :=
  match o with
  | .le => [x.extractLsb' 0 8, x.extractLsb' 8 8]
  | .be => [x.extractLsb' 8 8, x.extractLsb' 0 8]

/-- R11: wire32. -/
def wire32 (o : WireOrder) (x : U32) : List Byte :=
  match o with
  | .le => [x.extractLsb' 0 8, x.extractLsb' 8 8, x.extractLsb' 16 8, x.extractLsb' 24 8]
  | .be => [x.extractLsb' 24 8, x.extractLsb' 16 8, x.extractLsb' 8 8, x.extractLsb' 0 8]

/-- R11: the u16 two bytes in wire order stand for. -/
def word16 (o : WireOrder) (a b : Byte) : U16 :=
  match o with
  | .le => b ++ a
  | .be => a ++ b

/-- R11: the u32 four bytes in wire order stand for. -/
def word32 (o : WireOrder) (a b c d : Byte) : U32 :=
  match o with
  | .le => d ++ c ++ b ++ a
  | .be => a ++ b ++ c ++ d

/-- R11: unwire32, for a sequence of 4 bytes. -/
def unwire32 (o : WireOrder) (s : List Byte) : U32 :=
  word32 o (s.getD 0 0) (s.getD 1 0) (s.getD 2 0) (s.getD 3 0)

/-- R142: the fold from an accumulator; a final partial word is padded with zero bytes. -/
def xorFoldFrom (o : WireOrder) : U32 → List Byte → U32
  | acc, [] => acc
  | acc, [a] => acc ^^^ word32 o a 0 0 0
  | acc, [a, b] => acc ^^^ word32 o a b 0 0
  | acc, [a, b, c] => acc ^^^ word32 o a b c 0
  | acc, a :: b :: c :: d :: m => xorFoldFrom o (acc ^^^ word32 o a b c d) m

/-- R142: XorFold, the default CHECKSUM_FN. It is not a CRC (R141). -/
def xorFold (o : WireOrder) (m : List Byte) : U32 := xorFoldFrom o 0 m

/-- R140: CHECKSUM_FN of a configuration. -/
def checksum (c : Config) (m : List Byte) : U32 :=
  match c.checksumFn with
  | .xorFold => xorFold c.wireOrder m
  | .given n => Config.givenChecksum n m

/-- R144, R103: HDR_PACK, HDR_BYTES. -/
def hdrPack (o : WireOrder) (h : Header) : List Byte := [h.type, h.dir] ++ wire16 o h.len

/-- R145, R107: HDR_UNPACK. -/
def hdrUnpack (o : WireOrder) (s : Quad) : Header :=
  { type := s.b0, dir := s.b1, len := word16 o s.b2 s.b3 }

/-- R8: an inclusive range holds a code. -/
def inRange (r : Range) (t : Byte) : Bool := decide (r.lo ≤ t) && decide (t ≤ r.hi)

/-- R147: CLASSIFY. -/
def classify (c : Config) (t : Byte) : Class :=
  if inRange c.cmdRange t then .cmd
  else if inRange c.evtRange t then .evt
  else if inRange c.rspRange t then .rsp
  else .none

/-- R146: membership of a class in a LEGAL set; NONE is in no set. -/
def classIn (k : ClassSet) : Class → Bool
  | .cmd => k.cmd
  | .evt => k.evt
  | .rsp => k.rsp
  | .none => false

/-- R8, R146: LEGAL of the direction a marker names, `none` for a byte that is no direction marker. -/
def legalFor (c : Config) (dir : Byte) : Option ClassSet :=
  if dir = c.dirH2T then some c.legalH2T
  else if dir = c.dirT2H then some c.legalT2H
  else none

/-- R146, R108: HDR_VALID. -/
def hdrValid (c : Config) (h : Header) : Bool :=
  match legalFor c h.dir with
  | none => false
  | some legal =>
    if classify c h.type = .none then false
    else if !classIn legal (classify c h.type) then false
    else decide (h.len.toNat ≤ maxPayload)

/-- R148: IsAckPkt. -/
def isAckPkt (c : Config) (h : Header) : Bool := decide (h.type = c.ackType) || decide (h.type = c.nackType)

/-- R149, R230: the operands are a packet. -/
def isPacket (h : Header) (pl : List Byte) : Bool :=
  decide (pl.length = h.len.toNat) && decide (h.len.toNat ≤ maxPayload)

/-- R105: the checksum field of a frame, a function of header and payload only. -/
def frameChecksum (c : Config) (h : Header) (pl : List Byte) : U32 := checksum c (hdrPack c.wireOrder h ++ pl)

/-- R149, R100: FRAME_ENCODE. -/
def frameEncode (c : Config) (h : Header) (pl : List Byte) : List Byte :=
  wire32 c.wireOrder preamble ++ hdrPack c.wireOrder h ++ pl ++ wire32 c.wireOrder (frameChecksum c h pl)
    ++ wire32 c.wireOrder postamble

/-- R232: the fields of a frame as the sender writes them, the payload only when there is one. -/
def frameFields (c : Config) (h : Header) (pl : List Byte) : List (List Byte) :=
  [wire32 c.wireOrder preamble, hdrPack c.wireOrder h]
    ++ (if h.len.toNat > 0 then [pl] else [])
    ++ [wire32 c.wireOrder (frameChecksum c h pl), wire32 c.wireOrder postamble]

/-- R101, R182: PRE_BYTES[i]. -/
def preByte (c : Config) (i : BitVec 2) : Byte := (wire32 c.wireOrder preamble).getD i.toNat 0

/-- R8: T_PAY(len). Only a length that passed HDR_VALID is looked up (log 6). -/
def payTimeout (c : Config) (len : U16) : U32 := c.tPay.getD len.toNat 0

/-- R150: MkCtl. -/
def mkCtl (c : Config) (t : Byte) : Request :=
  { origin := c.originTransport, ackReq := false, hdr := { type := t, dir := c.txDir, len := 0 }, pl := [] }

/-- R72: ReqSize. -/
def reqSize (c : Config) (r : Request) : Nat := c.reqOverhead.toNat + 4 + r.hdr.len.toNat

/-- R151: what decoding a whole frame answers. -/
inductive Decoded where
  | notAFrame
  | badHeader
  | badChecksum
  | badPostamble
  | packet (h : Header) (pl : List Byte)
deriving DecidableEq, Repr

/-- R151: the header of a frame, from its bytes 4 to 7. -/
def frameHeader (o : WireOrder) (f : List Byte) : Header :=
  hdrUnpack o { b0 := f.getD 4 0, b1 := f.getD 5 0, b2 := f.getD 6 0, b3 := f.getD 7 0 }

/-- R151: DecodeFrame, the specification aid. -/
def decodeFrame (c : Config) (f : List Byte) : Decoded :=
  if f.length < 16 ∨ f.take 4 ≠ wire32 c.wireOrder preamble then .notAFrame
  else
    let h := frameHeader c.wireOrder f
    if !hdrValid c h then .badHeader
    else if f.length ≠ 16 + h.len.toNat then .notAFrame
    else
      let pl := (f.drop 8).take h.len.toNat
      let trailer := f.drop (8 + h.len.toNat)
      if unwire32 c.wireOrder (trailer.take 4) ≠ frameChecksum c h pl then .badChecksum
      else if unwire32 c.wireOrder ((trailer.drop 4).take 4) ≠ postamble then .badPostamble
      else .packet h pl

end Sys2Proof.Machine
end

