-- ==== Sys2Proof/Machine/Flags.lean ====
section
/-! DEFINITION. Every flag the block computes (10_state.md R36): the flags of a time event (44_timers.md) and the
full flag of a ring with its indices (20_memory.md R61 to R71). The sticky rx_overrun is set by `rxPut` in Ops. -/

namespace Sys2Proof.Machine

/-- R270: TimerStart. -/
def timerStart (n : U32) : TimeEvent := { rem := n, active := true, raised := false }

/-- R271: TimerStop; rem keeps its value. -/
def timerStop (t : TimeEvent) : TimeEvent := { t with active := false, raised := false }

/-- R272: TimerTick. -/
def timerTick (t : TimeEvent) : TimeEvent :=
  if !t.active then t
  else if t.rem ≤ 1#32 then { rem := 0, active := false, raised := true }
  else { t with rem := t.rem - 1 }

/-- R62: DataLen. -/
def Indices.dataLen (ix : Indices) : Nat := if ix.full then ix.cap else (ix.head + ix.cap - ix.tail) % ix.cap

/-- R62: FreeSpace. -/
def Indices.freeSpace (ix : Indices) : Nat := ix.cap - ix.dataLen

/-- R62: Capacity. -/
def Indices.capacity (ix : Indices) : Nat := ix.cap

/-- R61: the index `n` places after `i`. -/
def Indices.step (ix : Indices) (i n : Nat) : Nat := (i + n) % ix.cap

/-- R64: the indices after one unconditional put; a full ring's tail moves on. -/
def Indices.put (ix : Indices) : Indices :=
  { ix with
    head := ix.step ix.head 1
    tail := if ix.full then ix.step ix.tail 1 else ix.tail
    full := decide (ix.step ix.head 1 = if ix.full then ix.step ix.tail 1 else ix.tail) }

/-- R66, R71: the indices after one byte is consumed. -/
def Indices.drop1 (ix : Indices) : Indices := { ix with tail := ix.step ix.tail 1, full := false }

/-- R69: the head after one byte of a write. -/
def Indices.grow1 (ix : Indices) : Indices := { ix with head := ix.step ix.head 1 }

/-- R69, R36: the full flag a write leaves. -/
def Indices.setFull (ix : Indices) : Indices := { ix with full := decide (ix.head = ix.tail) }

/-- R68: the indices after a clear. -/
def Indices.clear (ix : Indices) : Indices := { ix with head := 0, tail := 0, full := false }

/-- R72, R69: the queue's indices after a write of `n` bytes. -/
def Indices.push (ix : Indices) (n : Nat) : Indices :=
  { ix with head := ix.step ix.head n, full := decide (ix.step ix.head n = ix.tail) }

/-- R72, R66: the queue's indices after a read of `n` bytes. -/
def Indices.pull (ix : Indices) (n : Nat) : Indices := { ix with tail := ix.step ix.tail n, full := false }

end Sys2Proof.Machine
end

