-- ==== Sys2Proof/Machine/Ops.lean ====
section
/-! DEFINITION. The named operations over the byte spaces, the rings, the queue and the registers (20_memory.md), the
send attempt (43_delivery.md R232 to R235), and taking an error condition: `rxFail` (60_exceptions.md R302). There is
no return from it (R305): the deframer goes on from WAIT_PREAMBLE. -/

namespace Sys2Proof.Machine

/-! ## Byte spaces -/

/-- One byte of a byte space. -/
def Memory.read : Memory → Nat → Byte
  | [], _ => Memory.unlisted
  | (k, v) :: m, a => if k = a then v else Memory.read m a

/-- Write one byte, keeping the canonical form. -/
def Memory.write : Memory → Nat → Byte → Memory
  | [], a, b => if b = Memory.unlisted then [] else [(a, b)]
  | (k, v) :: m, a, b =>
    if a < k then (if b = Memory.unlisted then (k, v) :: m else (a, b) :: (k, v) :: m)
    else if a = k then (if b = Memory.unlisted then m else (a, b) :: m)
    else (k, v) :: Memory.write m a b

/-- The `n` bytes from index `a` on. -/
def Memory.readBytes (m : Memory) (a n : Nat) : List Byte := (List.range' a n).map (Memory.read m)

/-- Write the bytes `s` from index `a` on. -/
def Memory.writeBytes : Memory → Nat → List Byte → Memory
  | m, _, [] => m
  | m, a, b :: s => Memory.writeBytes (Memory.write m a b) (a + 1) s

/-- The byte space whose bytes `a`, `a + 1`, ... (`n` of them) are given by `f`. -/
def Memory.tabulate (f : Nat → Byte) : Nat → Nat → Memory
  | _, 0 => []
  | a, n + 1 =>
    if f a = Memory.unlisted then Memory.tabulate f (a + 1) n else (a, f a) :: Memory.tabulate f (a + 1) n

/-- R13: MemRead over RX_PL or TX_PL; `none` outside indices 0..255. -/
def memRead (m : Memory) (a n : Nat) : Option (List Byte) :=
  if a + n ≤ maxPayload then some (Memory.readBytes m a n) else none

/-- R13: MemWrite of `n` bytes over RX_PL or TX_PL; `none` outside indices 0..255 or when `s` is not `n` bytes. -/
def memWrite (m : Memory) (a n : Nat) (s : List Byte) : Option Memory :=
  if a + n ≤ maxPayload ∧ s.length = n then some (Memory.writeBytes m a s) else none

/-! ## Ring buffers -/

/-- R64: the ring after an unconditional put. -/
def Ring.put (r : Ring) (b : Byte) : Ring := { ix := r.ix.put, buf := Memory.write r.buf r.ix.head b }

/-- R66: consume `n` bytes, oldest first. -/
def Ring.take : Nat → Ring → List Byte × Ring
  | 0, r => ([], r)
  | n + 1, r =>
    let rest := Ring.take n { r with ix := r.ix.drop1 }
    (Memory.read r.buf r.ix.tail :: rest.1, rest.2)

/-- R66: RxRead on a ring; `none` is FAIL. -/
def Ring.read (r : Ring) (n : Nat) : Option (List Byte × Ring) :=
  if r.ix.dataLen < n then none else some (Ring.take n r)

/-- R67: RingFetch; `none` is FAIL. -/
def Ring.fetch (r : Ring) (n : Nat) : Option (List Byte) := (r.read n).map Prod.fst

/-- R62, R67: every byte a ring holds, oldest first. -/
def Ring.contents (r : Ring) : List Byte := (Ring.take r.ix.dataLen r).1

/-- R69: the bytes of a write, before the full flag is set. -/
def Ring.grow : List Byte → Ring → Ring
  | [], r => r
  | b :: s, r => Ring.grow s { ix := r.ix.grow1, buf := Memory.write r.buf r.ix.head b }

/-- R69: the ring after a write that fits. -/
def Ring.append (r : Ring) (s : List Byte) : Ring :=
  { Ring.grow s r with ix := (Ring.grow s r).ix.setFull }

/-- R68: the ring after a clear; the storage bytes stay. -/
def Ring.clear (r : Ring) : Ring := { r with ix := r.ix.clear }

/-- R69: what TxWrite answers. -/
inductive WriteResult where
  | ok
  | full
  | notEnoughSpace
deriving DecidableEq, Repr

/-- R69: what a write of `s` answers. -/
def Ring.writeResult (r : Ring) (s : List Byte) : WriteResult :=
  if s.length = 0 then .ok
  else if r.ix.full then .full
  else if r.ix.freeSpace < s.length then .notEnoughSpace
  else .ok

/-- R69: the ring after a write of `s`, unchanged unless it answers OK. -/
def Ring.write (r : Ring) (s : List Byte) : Ring :=
  if s.length = 0 then r
  else if r.writeResult s = .ok then r.append s
  else r

/-- R63: RingInit, with storage bytes given from outside. -/
def ringInit (cap : Nat) (buf : Memory) : Ring := { ix := Indices.empty cap, buf := buf }

/-! ## The FIFO primitives over the state (R14) -/

/-- R64: RxPut. -/
def rxPut (b : Byte) (s : State) : State :=
  { s with rx := s.rx.put b, rxOverrun := s.rxOverrun || s.rx.ix.full }

/-- R65: RxLen. -/
def rxLen (s : State) : Nat := s.rx.ix.dataLen

/-- R66: RxRead; `none` is FAIL. -/
def rxRead (n : Nat) (s : State) : Option (List Byte × State) :=
  (s.rx.read n).map fun p => (p.1, { s with rx := p.2 })

/-- R68: RxClear. -/
def rxClear (s : State) : State := { s with rx := s.rx.clear }

/-- R70: TxLen. -/
def txLen (s : State) : Nat := s.tx.ix.dataLen

/-- R69: TxWrite's answer. -/
def txWriteResult (f : List Byte) (s : State) : WriteResult := s.tx.writeResult f

/-- R69: TxWrite's effect. -/
def txWrite (f : List Byte) (s : State) : State := { s with tx := s.tx.write f }

/-- R71: the byte TxPop returns. -/
def txOldest (s : State) : Byte := Memory.read s.tx.buf s.tx.ix.tail

/-- R71: TxPop's effect. -/
def txPop (s : State) : State := { s with tx := { s.tx with ix := s.tx.ix.drop1 } }

/-- R72: QUsed. -/
def qUsed (s : State) : Nat := (s.q.reqs.map (reqSize s.cfg)).sum

/-- R72: QFree. -/
def qFree (s : State) : Nat := s.cfg.txqCap.toNat - qUsed s

/-- R73: whether QWrite accepts a request. -/
def qFits (r : Request) (s : State) : Bool := decide (reqSize s.cfg r ≤ qFree s)

/-- R73: QWrite's effect. -/
def qWrite (r : Request) (s : State) : State :=
  { s with q := if qFits r s then { ix := s.q.ix.push (reqSize s.cfg r), reqs := s.q.reqs ++ [r] } else s.q }

/-- R74: QPending. -/
def qPending (s : State) : Nat := s.q.reqs.length

/-- R75: QFetch. -/
def qFetch (s : State) : Option Request := s.q.reqs.head?

/-- R75: the queue after QRead has removed `r`, the oldest request. -/
def qDrop (r : Request) (s : State) : State :=
  { s with q := { ix := s.q.ix.pull (reqSize s.cfg r), reqs := s.q.reqs.tail } }

/-! ## Error conditions (60_exceptions.md) -/

/-- R300: the error conditions. -/
inductive Err where
  | none
  | badPreambleByte
  | badHeader
  | timeoutHeader
  | timeoutPayload
  | timeoutTrailer
  | badChecksum
  | badPostamble
  | ackTimeout
  | retryExhausted
  | txWriteFail
  | enqueueFail
  | nackReceived
  | rxOverrun
deriving DecidableEq, Repr

/-- R300: the code of a condition. -/
def Err.code : Err → Byte
  | .none => 0
  | .badPreambleByte => 1
  | .badHeader => 2
  | .timeoutHeader => 3
  | .timeoutPayload => 4
  | .timeoutTrailer => 5
  | .badChecksum => 6
  | .badPostamble => 7
  | .ackTimeout => 8
  | .retryExhausted => 9
  | .txWriteFail => 10
  | .enqueueFail => 11
  | .nackReceived => 12
  | .rxOverrun => 13

/-- R301: record a condition whose row says that err_code is written. -/
def setErr (e : Err) (s : State) : State := { s with errCode := e.code }

/-- R189: SendCtl. -/
def sendCtl (t : Byte) (s : State) : State :=
  { qWrite (mkCtl s.cfg t) s with
    dropCnt := if qFits (mkCtl s.cfg t) s then s.dropCnt else s.dropCnt + 1 }

/-- R302: whether the recovery flushes the RX ring. -/
def flushes (c : Config) (e : Err) : Bool :=
  (decide (e ≠ .badChecksum) && decide (e ≠ .badPostamble)) || c.flushOnTrailerError

/-- R302: the flush of the recovery. -/
def flushFor (e : Err) (s : State) : State := { s with rx := if flushes s.cfg e then s.rx.clear else s.rx }

/-- R302: the deframer back in WAIT_PREAMBLE, its timer stopped. -/
def restartRx (s : State) : State :=
  { s with rxTmr := timerStop s.rxTmr, preIdx := 0, rxState := .waitPreamble }

/-- R302: RxFail, the one shared recovery: record the code, flush, queue a NACK, restart. -/
def rxFail (e : Err) (s : State) : State := restartRx (sendCtl s.cfg.nackType (flushFor e (setErr e s)))

/-! ## Entering the deframer's states (R187) -/

/-- R187: enter WAIT_HEADER. -/
def enterHeader (s : State) : State :=
  { s with rxState := .waitHeader, preIdx := 0, rxTmr := timerStart s.cfg.tHdr }

/-- R187: enter WAIT_PAYLOAD. -/
def enterPayload (s : State) : State :=
  { s with rxState := .waitPayload, rxTmr := timerStart (payTimeout s.cfg s.rxHdr.len) }

/-- R187: enter WAIT_CRC_POST. -/
def enterTrailer (s : State) : State := { s with rxState := .waitCrcPost, rxTmr := timerStart s.cfg.tCrc }

/-- R185, R187: enter PACKET_READY, the timer stopped. -/
def enterReady (s : State) : State := { s with rxState := .packetReady, rxTmr := timerStop s.rxTmr }

/-! ## The send attempt (43_delivery.md) -/

/-- R233: Abort. -/
def abortSend (s : State) : State := { s with errCode := Err.code .txWriteFail, abortCnt := s.abortCnt + 1 }

/-- R232: write the fields in order; the first that fails aborts the attempt. -/
def sendFields : List (List Byte) → State → State
  | [], s => s
  | f :: fs, s => if txWriteResult f s = .ok then sendFields fs (txWrite f s) else abortSend s

/-- R232: Send. -/
def send (s : State) : Except Fault State :=
  match memRead s.txReq.pl 0 s.txReq.hdr.len.toNat with
  | some pl => .ok (sendFields (frameFields s.cfg s.txReq.hdr pl) s)
  | none => .error .payloadIndex

/-- R234: the registers EnterTransmit writes before it sends. -/
def enterTransmitRegs (s : State) : State :=
  { s with
    txState := .transmitPacket
    ackTmr := if s.txReq.ackReq then timerStart s.cfg.tAck else s.ackTmr
    txNoack := !s.txReq.ackReq }

/-- R234: EnterTransmit. -/
def enterTransmit (s : State) : Except Fault State := send (enterTransmitRegs s)

/-- R235: ExitTransmit. -/
def exitTransmit (s : State) : State := { s with ackTmr := timerStop s.ackTmr }

/-- R236, R237: leave TRANSMIT_PACKET for POLL_PENDING. -/
def completeRequest (s : State) : State := { exitTransmit s with txState := .pollPending }

/-- R236, R238: abandon the request. -/
def abandonRequest (s : State) : State :=
  completeRequest { s with errCode := Err.code .retryExhausted, abandonCnt := s.abandonCnt + 1 }

/-- R235, R236, R238: record why, and resend the same request. -/
def resend (e : Err) (s : State) : Except Fault State := enterTransmit (exitTransmit (setErr e s))

/-- R32: one more retry. -/
def countRetry (s : State) : State := { s with txRetry := s.txRetry + 1 }

/-! ## Ending an operation -/

/-- R115: end an operation with its result. -/
def done (r : Result) (s : State) : Host.Outcome State Fault Refusal := .next { s with result := r }

/-- R115: end an operation that may have met a fault. -/
def finish (r : Result) : Except Fault State → Host.Outcome State Fault Refusal
  | .ok s => done r s
  | .error f => .fault f

end Sys2Proof.Machine
end

