-- ==== Sys2Proof/Machine/Codec.lean ====
section
/-! DEFINITION. The pure codec operations (41_codec.md): each only answers its result. -/

namespace Sys2Proof.Machine

/-- R140: CHK. -/
def execChk (m : List Byte) (s : State) : Host.Outcome State Fault Refusal := done (.word (checksum s.cfg m)) s

/-- R144: HDR_PACK. -/
def execHdrPack (hdr : Header) (s : State) : Host.Outcome State Fault Refusal :=
  done (.bytes (hdrPack s.cfg.wireOrder hdr)) s

/-- R145: HDR_UNPACK. -/
def execHdrUnpack (q : Quad) (s : State) : Host.Outcome State Fault Refusal :=
  done (.header (hdrUnpack s.cfg.wireOrder q)) s

/-- R147: CLASSIFY. -/
def execClassify (t : Byte) (s : State) : Host.Outcome State Fault Refusal := done (.cls (classify s.cfg t)) s

/-- R146: HDR_VALID. -/
def execHdrValid (hdr : Header) (s : State) : Host.Outcome State Fault Refusal :=
  done (.bool (hdrValid s.cfg hdr)) s

/-- R149: FRAME_ENCODE, refused on operands that are not a packet. -/
def execFrameEncode (hdr : Header) (pl : List Byte) (s : State) : Host.Outcome State Fault Refusal :=
  if isPacket hdr pl then done (.bytes (frameEncode s.cfg hdr pl)) s else .refused .notAPacket

end Sys2Proof.Machine
end

