-- ==== Sys2Proof/Machine/Construct.lean ====
section
/-! DEFINITION. Construction (70_reset_and_hazards.md R342), the configurations it accepts (00_scope.md R8) and the
RESET operation (R340). -/

namespace Sys2Proof.Machine

/-- R8: no code is in both ranges. A range with lo above hi is taken as one that holds no code: DEDUCED (log 23), safe. -/
def rangesDisjoint (a b : Range) : Bool :=
  decide (a.hi < a.lo) || decide (b.hi < b.lo) || decide (a.hi < b.lo) || decide (b.hi < a.lo)

/-- R8: each value at least 1. -/
def allPositive : List U32 → Bool
  | [] => true
  | x :: xs => decide (1#32 ≤ x) && allPositive xs

/-- R8: non-decreasing. -/
def nonDecreasing : List U32 → Bool
  | [] => true
  | [_] => true
  | x :: y :: xs => decide (x ≤ y) && nonDecreasing (y :: xs)

/-- R8: the type-code part of the constraints. -/
def codesOk (c : Config) : Bool :=
  rangesDisjoint c.cmdRange c.evtRange && rangesDisjoint c.cmdRange c.rspRange
    && rangesDisjoint c.evtRange c.rspRange
    && inRange c.rspRange c.ackType && inRange c.rspRange c.nackType && decide (c.ackType ≠ c.nackType)

/-- R8: the direction part: two distinct markers, TX_DIR one of them, RSP legal for it. -/
def dirsOk (c : Config) : Bool :=
  decide (c.dirH2T ≠ c.dirT2H)
    && (match legalFor c c.txDir with
        | some legal => legal.rsp
        | none => false)

/-- R8: the timeout and retry part. -/
def timesOk (c : Config) : Bool :=
  decide (1#32 ≤ c.tHdr) && decide (1#32 ≤ c.tCrc) && decide (1#32 ≤ c.tAck)
    && decide (c.tPay.length = maxPayload + 1) && allPositive c.tPay && nonDecreasing c.tPay
    && decide (c.maxRetries.toNat ≤ 2 ^ 32 - 2)

/-- R8: the capacity part. -/
def capsOk (c : Config) : Bool := decide (1#32 ≤ c.rxCap) && decide (1#32 ≤ c.txCap) && decide (1#32 ≤ c.txqCap)

/-- R8: the configurations that are not refused. Capacities too small for the frames used are not refused (R356). -/
def configOk (c : Config) : Bool := codesOk c && dirsOk c && timesOk c && capsOk c

/-- R342: an instance before it is constructed. -/
def State.unbuilt (c : Config) : State := { State.constructed c with built := false }

/-- R342, R341: construction by the composition root, once, before any agent issues an operation. -/
def construct (c : Config) : Option State := if configOk c then some (State.constructed c) else none

/-- R45, log 8: a header R45 leaves unspecified, after the `n`-th RESET. -/
def freeHeader (u : Unspecified) (n : Nat) : Header :=
  { type := Config.freeByte u n 0, dir := Config.freeByte u n 1,
    len := Config.freeByte u n 2 ++ Config.freeByte u n 3 }

/-- R45, log 8: `size` storage bytes R45 leaves unspecified, after the `n`-th RESET. -/
def freeBytes (u : Unspecified) (n size : Nat) : Memory := Memory.tabulate (Config.freeByte u n) 0 size

/-- R45, log 8: tx_req, which R45 leaves unspecified, after the `n`-th RESET. -/
def freeTxReq (n : Nat) : TxReq :=
  { origin := Config.freeByte .txReq n 4, ackReq := (Config.freeByte .txReq n 5).getLsbD 0,
    hdr := freeHeader .txReq n, pl := freeBytes .txPl n maxPayload }

/-- R340, R45: every register to its reset value, the unspecified ones to free values. wire_out is not changed. -/
def resetState (s : State) : State :=
  { s with
    freeCtr := s.freeCtr + 1
    rxState := .waitPreamble
    preIdx := 0
    rxHdr := freeHeader .rxHdr s.freeCtr
    rxPl := freeBytes .rxPl s.freeCtr maxPayload
    rxTmr := TimeEvent.idle
    txState := .pollPending
    txReq := freeTxReq s.freeCtr
    txRetry := 0
    txNoack := false
    ackTmr := TimeEvent.idle
    rx := ringInit s.cfg.rxCap.toNat (freeBytes .rxBuf s.freeCtr s.cfg.rxCap.toNat)
    tx := ringInit s.cfg.txCap.toNat (freeBytes .txBuf s.freeCtr s.cfg.txCap.toNat)
    q := { ix := Indices.empty s.cfg.txqCap.toNat, reqs := [] }
    errCode := 0
    dropCnt := 0
    abortCnt := 0
    abandonCnt := 0
    rxOverrun := false }

/-- R340: RESET. -/
def execReset (s : State) : Host.Outcome State Fault Refusal := done .none (resetState s)

end Sys2Proof.Machine
end

