-- ==== Sys2Proof/Machine/Deframer.lean ====
section
/-! DEFINITION. The Receive Deframer's operations (42_deframer.md). -/

namespace Sys2Proof.Machine

/-- R180: RX_BYTE. -/
def execRxByte (b : Byte) (s : State) : Host.Outcome State Fault Refusal := done .none (rxPut b s)

/-- R182: what PollPreamble does with the byte it has read. -/
def preambleStep (b : Byte) (s : State) : State :=
  if b = preByte s.cfg s.preIdx then
    if s.preIdx = 3#2 then enterHeader s else { s with preIdx := s.preIdx + 1 }
  else { s with preIdx := 0 }

/-- R182: PollPreamble. -/
def pollPreamble (s : State) : Except Fault State :=
  if rxLen s = 0 then .ok s
  else
    match rxRead 1 s with
    | some ([b], t) => .ok (preambleStep b t)
    | _ => .error .rxReadShort

/-- R183: what PollHeader does with the header it has read. -/
def headerStep (h : Header) (s : State) : State :=
  if hdrValid s.cfg h then
    if h.len = 0 then enterTrailer { s with rxHdr := h } else enterPayload { s with rxHdr := h }
  else rxFail .badHeader s

/-- R183: PollHeader. -/
def pollHeader (s : State) : Except Fault State :=
  if s.rxTmr.raised then .ok (rxFail .timeoutHeader s)
  else if rxLen s < 4 then .ok s
  else
    match rxRead 4 s with
    | some ([b0, b1, b2, b3], t) => .ok (headerStep (hdrUnpack s.cfg.wireOrder ⟨b0, b1, b2, b3⟩) t)
    | _ => .error .rxReadShort

/-- R184: PollPayload. -/
def pollPayload (s : State) : Except Fault State :=
  if s.rxTmr.raised then .ok (rxFail .timeoutPayload s)
  else if rxLen s < s.rxHdr.len.toNat then .ok s
  else
    match rxRead s.rxHdr.len.toNat s with
    | some (pl, t) =>
      match memWrite s.rxPl 0 s.rxHdr.len.toNat pl with
      | some m => .ok (enterTrailer { t with rxPl := m })
      | none => .error .payloadIndex
    | none => .error .rxReadShort

/-- R185: what PollTrailer does with the received checksum and postamble; `sum` is the computed checksum. -/
def trailerStep (sum received post : U32) (s : State) : State :=
  if received ≠ sum then rxFail .badChecksum s
  else if post ≠ postamble then rxFail .badPostamble s
  else enterReady (if isAckPkt s.cfg s.rxHdr then s else sendCtl s.cfg.ackType s)

/-- R185: PollTrailer. -/
def pollTrailer (s : State) : Except Fault State :=
  if s.rxTmr.raised then .ok (rxFail .timeoutTrailer s)
  else if rxLen s < 8 then .ok s
  else
    match rxRead 8 s with
    | some (trailer, t) =>
      match memRead s.rxPl 0 s.rxHdr.len.toNat with
      | some pl =>
        .ok (trailerStep (frameChecksum s.cfg s.rxHdr pl) (unwire32 s.cfg.wireOrder (trailer.take 4))
          (unwire32 s.cfg.wireOrder (trailer.drop 4)) t)
      | none => .error .payloadIndex
    | none => .error .rxReadShort

/-- R181: the poll of the current state; R186: nothing in PACKET_READY. -/
def rxPoll (s : State) : Except Fault State :=
  match s.rxState with
  | .waitPreamble => pollPreamble s
  | .waitHeader => pollHeader s
  | .waitPayload => pollPayload s
  | .waitCrcPost => pollTrailer s
  | .packetReady => .ok s

/-- R181: RX_POLL. -/
def execRxPoll (s : State) : Host.Outcome State Fault Refusal := finish .none (rxPoll s)

/-- R188: RX_RELEASE. -/
def execRxRelease (s : State) : Host.Outcome State Fault Refusal :=
  done .none (if s.rxState = .packetReady then { s with rxState := .waitPreamble } else s)

end Sys2Proof.Machine
end

