-- ==== Sys2Proof/Machine/Delivery.lean ====
section
/-! DEFINITION. The transmit queue's port and Transmit Delivery (43_delivery.md). -/

namespace Sys2Proof.Machine

/-- R230: TX_ENQUEUE, refused on operands that are not a packet. -/
def execTxEnqueue (origin : Byte) (ackReq : Bool) (hdr : Header) (pl : List Byte) (s : State) :
    Host.Outcome State Fault Refusal :=
  if isPacket hdr pl then
    done (.enqOk (qFits ⟨origin, ackReq, hdr, pl⟩ s)) (qWrite ⟨origin, ackReq, hdr, pl⟩ s)
  else .refused .notAPacket

/-- R231: QUEUE_DEPTH. -/
def execQueueDepth (s : State) : Host.Outcome State Fault Refusal :=
  done (.word (BitVec.ofNat 32 (qPending s))) s

/-- R236: tx_req takes a dequeued request; TX_PL holds its payload in `m`. -/
def loadRequest (r : Request) (m : Memory) (s : State) : State :=
  { s with txReq := { origin := r.origin, ackReq := r.ackReq, hdr := r.hdr, pl := m }, txRetry := 0 }

/-- R236: TX_POLL in POLL_PENDING. -/
def pollPending (s : State) : Except Fault State :=
  match qFetch s with
  | none => .ok s
  | some r =>
    match memWrite s.txReq.pl 0 r.hdr.len.toNat r.pl with
    | some m => enterTransmit (loadRequest r m (qDrop r s))
    | none => .error .payloadIndex

/-- R236, R238: after the retry counter is incremented, abandon or resend. -/
def retryOrAbandon (e : Err) (s : State) : Except Fault State :=
  if s.cfg.maxRetries < s.txRetry then .ok (abandonRequest s) else resend e s

/-- R236: TX_POLL in TRANSMIT_PACKET. -/
def pollTransmit (s : State) : Except Fault State :=
  if s.txNoack then .ok (completeRequest s)
  else if s.ackTmr.raised then retryOrAbandon .ackTimeout (countRetry s)
  else .ok s

/-- R236: the poll of the current state. -/
def txPoll (s : State) : Except Fault State :=
  match s.txState with
  | .pollPending => pollPending s
  | .transmitPacket => pollTransmit s

/-- R236: TX_POLL. -/
def execTxPoll (s : State) : Host.Outcome State Fault Refusal := finish .none (txPoll s)

/-- R237: ACK_IN. -/
def execAckIn (s : State) : Host.Outcome State Fault Refusal :=
  done .none (if s.txState = .transmitPacket then completeRequest s else s)

/-- R238: what a NACK_IN that is not ignored does. -/
def nackStep (s : State) : Except Fault State :=
  if s.cfg.nackCountsRetry then retryOrAbandon .nackReceived (countRetry s) else resend .nackReceived s

/-- R238: NACK_IN. -/
def execNackIn (s : State) : Host.Outcome State Fault Refusal :=
  finish .none (if s.txState ≠ .transmitPacket ∨ s.txNoack then .ok s else nackStep s)

/-- R239: TX_DRAIN. -/
def execTxDrain (s : State) : Host.Outcome State Fault Refusal :=
  if txLen s = 0 then done (.byte none) s
  else done (.byte (some (txOldest s))) { txPop s with wireOut := s.wireOut ++ [txOldest s] }

end Sys2Proof.Machine
end

