-- ==== Sys2Proof/Machine/Timers.lean ====
section
/-! DEFINITION. The millisecond tick (44_timers.md). -/

namespace Sys2Proof.Machine

/-- R273: TICK. -/
def execTick (s : State) : Host.Outcome State Fault Refusal :=
  done .none { s with rxTmr := timerTick s.rxTmr, ackTmr := timerTick s.ackTmr }

end Sys2Proof.Machine
end

