-- ==== Sys2Proof/Machine/Dispatch.lean ====
section
/-! DEFINITION. One arm for each operation of 30_encoding.md R115. -/

namespace Sys2Proof.Machine

/-- The effect of one operation. -/
def exec (i : Instr) (s : State) : Host.Outcome State Fault Refusal :=
  match i with
  | .reset => Sys2Proof.Machine.execReset s
  | .rxByte b => Sys2Proof.Machine.execRxByte b s
  | .rxPoll => Sys2Proof.Machine.execRxPoll s
  | .rxRelease => Sys2Proof.Machine.execRxRelease s
  | .txEnqueue origin ackReq hdr pl => Sys2Proof.Machine.execTxEnqueue origin ackReq hdr pl s
  | .txPoll => Sys2Proof.Machine.execTxPoll s
  | .ackIn => Sys2Proof.Machine.execAckIn s
  | .nackIn => Sys2Proof.Machine.execNackIn s
  | .txDrain => Sys2Proof.Machine.execTxDrain s
  | .queueDepth => Sys2Proof.Machine.execQueueDepth s
  | .tick => Sys2Proof.Machine.execTick s
  | .chk m => Sys2Proof.Machine.execChk m s
  | .hdrPack hdr => Sys2Proof.Machine.execHdrPack hdr s
  | .hdrUnpack q => Sys2Proof.Machine.execHdrUnpack q s
  | .classify t => Sys2Proof.Machine.execClassify t s
  | .hdrValid hdr => Sys2Proof.Machine.execHdrValid hdr s
  | .frameEncode hdr pl => Sys2Proof.Machine.execFrameEncode hdr pl s

end Sys2Proof.Machine
end

