-- ==== Sys2Proof/WellFormed.lean ====
section
/-! DEFINITION. Which operands an operation may be issued with: the packet invariant of R149 and R230. -/

namespace Sys2Proof

/-- R149, R230: a header and a payload are a packet when the payload is exactly `len` bytes and `len` is at most 256. -/
def packetFits (h : Header) (pl : List Byte) : Bool :=
  decide (pl.length = h.len.toNat) && decide (h.len.toNat ≤ maxPayload)

/-- Well-formed instructions: TX_ENQUEUE and FRAME_ENCODE need a packet, every other operand is total. -/
def wellFormed : Instr → Bool
  | .reset => true
  | .rxByte _ => true
  | .rxPoll => true
  | .rxRelease => true
  | .txEnqueue _ _ hdr pl => packetFits hdr pl
  | .txPoll => true
  | .ackIn => true
  | .nackIn => true
  | .txDrain => true
  | .queueDepth => true
  | .tick => true
  | .chk _ => true
  | .hdrPack _ => true
  | .hdrUnpack _ => true
  | .classify _ => true
  | .hdrValid _ => true
  | .frameEncode hdr pl => packetFits hdr pl

end Sys2Proof
end

