-- ==== Sys2Proof/Decode.lean ====
section
/-! DEFINITION. Decoding an issued operation (30_encoding.md R115 to R117), total on every word, and the encoder
written from the same table. -/

namespace Sys2Proof

/-- R117: why a word is reserved. -/
inductive Reserved where
  /-- The op byte is not in R115. -/
  | unknownOp (op : Byte)
  /-- The op takes no immediate and imm is not 0. -/
  | nonzeroImm (op imm : Byte)
deriving DecidableEq, Repr

/-- R116: bits 15:8. -/
def wordOp (w : BitVec 16) : Byte := w.extractLsb' 8 8

/-- R116: bits 7:0. -/
def wordImm (w : BitVec 16) : Byte := w.extractLsb' 0 8

/-- R116: the word with this op and this imm. -/
def mkWord (op imm : Byte) : BitVec 16 := op ++ imm

/-- R117: an operation without immediate, refused when imm is not 0. -/
def noImm (op imm : Byte) (i : Instr) : Except Reserved Instr :=
  if imm = 0 then .ok i else .error (.nonzeroImm op imm)

/-- R115 to R117: the operation an issued word stands for, its operands taken from beside the word. -/
def decode (w : BitVec 16) (x : Beside) : Except Reserved Instr :=
  let op := wordOp w
  let imm := wordImm w
  if op = 0x01#8 then noImm op imm .reset
  else if op = 0x10#8 then .ok (.rxByte imm)
  else if op = 0x11#8 then noImm op imm .rxPoll
  else if op = 0x12#8 then noImm op imm .rxRelease
  else if op = 0x20#8 then noImm op imm (.txEnqueue x.origin x.ackReq x.hdr x.bytes)
  else if op = 0x21#8 then noImm op imm .txPoll
  else if op = 0x22#8 then noImm op imm .ackIn
  else if op = 0x23#8 then noImm op imm .nackIn
  else if op = 0x24#8 then noImm op imm .txDrain
  else if op = 0x25#8 then noImm op imm .queueDepth
  else if op = 0x30#8 then noImm op imm .tick
  else if op = 0x40#8 then noImm op imm (.chk x.bytes)
  else if op = 0x41#8 then noImm op imm (.hdrPack x.hdr)
  else if op = 0x42#8 then noImm op imm (.hdrUnpack x.quad)
  else if op = 0x43#8 then .ok (.classify imm)
  else if op = 0x44#8 then noImm op imm (.hdrValid x.hdr)
  else if op = 0x45#8 then noImm op imm (.frameEncode x.hdr x.bytes)
  else .error (.unknownOp op)

/-- R115: the op byte of an operation. -/
def opByte : Instr → Byte
  | .reset => 0x01#8
  | .rxByte _ => 0x10#8
  | .rxPoll => 0x11#8
  | .rxRelease => 0x12#8
  | .txEnqueue _ _ _ _ => 0x20#8
  | .txPoll => 0x21#8
  | .ackIn => 0x22#8
  | .nackIn => 0x23#8
  | .txDrain => 0x24#8
  | .queueDepth => 0x25#8
  | .tick => 0x30#8
  | .chk _ => 0x40#8
  | .hdrPack _ => 0x41#8
  | .hdrUnpack _ => 0x42#8
  | .classify _ => 0x43#8
  | .hdrValid _ => 0x44#8
  | .frameEncode _ _ => 0x45#8

/-- R116: imm of an operation, 0 unless it is RX_BYTE or CLASSIFY. -/
def immByte : Instr → Byte
  | .reset => 0
  | .rxByte b => b
  | .rxPoll => 0
  | .rxRelease => 0
  | .txEnqueue _ _ _ _ => 0
  | .txPoll => 0
  | .ackIn => 0
  | .nackIn => 0
  | .txDrain => 0
  | .queueDepth => 0
  | .tick => 0
  | .chk _ => 0
  | .hdrPack _ => 0
  | .hdrUnpack _ => 0
  | .classify t => t
  | .hdrValid _ => 0
  | .frameEncode _ _ => 0

/-- R116: the operands beside the word of an operation; the ones it does not take are zero. -/
def besideOf : Instr → Beside
  | .reset => Beside.zero
  | .rxByte _ => Beside.zero
  | .rxPoll => Beside.zero
  | .rxRelease => Beside.zero
  | .txEnqueue origin ackReq hdr pl =>
      { Beside.zero with origin := origin, ackReq := ackReq, hdr := hdr, bytes := pl }
  | .txPoll => Beside.zero
  | .ackIn => Beside.zero
  | .nackIn => Beside.zero
  | .txDrain => Beside.zero
  | .queueDepth => Beside.zero
  | .tick => Beside.zero
  | .chk m => { Beside.zero with bytes := m }
  | .hdrPack hdr => { Beside.zero with hdr := hdr }
  | .hdrUnpack s => { Beside.zero with quad := s }
  | .classify _ => Beside.zero
  | .hdrValid hdr => { Beside.zero with hdr := hdr }
  | .frameEncode hdr pl => { Beside.zero with hdr := hdr, bytes := pl }

/-- R115, R116: the encoder. -/
def encode (i : Instr) : Issue :=
  { word := mkWord (opByte i) (immByte i), beside := besideOf i }

/-- The host's question: the instruction the decoder reads from a table word, its operands beside the word zero
(log 10). The block has one length, 16 bits (R116). -/
def decodeTableWord (nbits w : Nat) : Option Instr :=
  if nbits = 16 then
    match decode (BitVec.ofNat 16 w) Beside.zero with
    | .ok i => some i
    | .error _ => none
  else none

end Sys2Proof
end

