-- ==== Sys2Proof/Machine/Fetch.lean ====
section
/-! DEFINITION. Taking the next issued operation (00_scope.md R5, 20_memory.md R77): there is no program counter (R35),
the operations of the agents stand in `State.inbox`, oldest first (log 1). -/

namespace Sys2Proof.Machine

/-- What taking the next operation gives. -/
inductive Fetched where
  /-- No agent has issued an operation. -/
  | idle
  /-- The issued operation has no meaning. -/
  | refuse (r : Refusal)
  /-- The operation, and the state without it in `inbox`. -/
  | run (i : Instr) (s : State)

/-- R342 and R8 first, then the decoder (R117). -/
def fetch (s : State) : Fetched :=
  match s.inbox with
  | [] => .idle
  | x :: rest =>
    if !s.built then .refuse .notConstructed
    else if !configOk s.cfg then .refuse .badConfig
    else
      match decode x.word x.beside with
      | .ok i => .run i { s with inbox := rest }
      | .error _ => .refuse (.reservedWord x.word)

/-- The operation word `w` issued next, its operands beside the word zero (log 10). -/
def placeWord (w : Nat) (s : State) : State :=
  { s with inbox := { word := BitVec.ofNat 16 w, beside := Beside.zero } :: s.inbox }

end Sys2Proof.Machine
end

