-- ==== Sys2Proof/Machine/Step.lean ====
section
/-! DEFINITION. One step: the next issued operation (R5, R77); with none issued the block idles (log 2). -/

namespace Sys2Proof.Machine

/-- One step of the machine. -/
def step (s : State) : Host.Outcome State Fault Refusal :=
  match fetch s with
  | .idle => .next s
  | .refuse r => .refused r
  | .run i t => exec i t

/-- `s` with a table word issued next: the next step of a constructed instance of a legal configuration fetches it.
Every operation word is 16 bits (R116), so `nbits` does not matter. -/
def State.withFetchWord (s : State) (_nbits w : Nat) : State := placeWord w s

end Sys2Proof.Machine
end

