-- ==== Sys2Proof/Machine/Trace.lean ====
section
/-! DEFINITION. The trace notation of 30_encoding.md R118: its pseudo-operations as sequences of operations, and the
effect of a sequence. -/

namespace Sys2Proof.Machine

/-- The effect of a sequence of operations, stopping at the first fault or refusal. -/
def execAll : List Instr → State → Host.Outcome State Fault Refusal
  | [], s => .next s
  | i :: is, s =>
    match exec i s with
    | .next t => execAll is t
    | .fault f => .fault f
    | .refused r => .refused r

/-- R118: RX_BYTES. -/
def rxBytes (f : List Byte) : List Instr := f.map .rxByte

/-- R118: RX_FRAME. Operands that are not a packet have no expansion: DEDUCED (log 21), safe, from R149, which refuses
FRAME_ENCODE there. -/
def rxFrame (c : Config) (h : Header) (pl : List Byte) : Option (List Instr) :=
  if isPacket h pl then some (rxBytes (frameEncode c h pl)) else none

/-- R118: TICKS n. -/
def ticks (n : Nat) : List Instr := List.replicate n .tick

/-- R118: RX_POLLS n. -/
def rxPolls (n : Nat) : List Instr := List.replicate n .rxPoll

/-- R118: TX_DRAIN_ALL, from a state: one TX_DRAIN a byte and the one that answers NONE. -/
def txDrainAll (s : State) : List Instr := List.replicate (txLen s + 1) .txDrain

/-- R118: LOOP, one iteration of the main loop; its order is for writing traces only. -/
def loopOnce : List Instr := [.rxPoll, .txPoll]

end Sys2Proof.Machine
end

