-- ==== Sys2Proof/Machine/Ports.lean ====
section
/-! DEFINITION. What can be read of the block (00_scope.md R6, 10_state.md R20, R27): pkt_out, status_out, wire_out, and
the duties of the environment that a claim of progress assumes (70_reset_and_hazards.md R343). -/

namespace Sys2Proof.Machine

/-- R27: pkt_out, `none` when it is not valid (R29). -/
def pktOut (s : State) : Option (Header × List Byte) :=
  if s.rxState = .packetReady then some (s.rxHdr, Memory.readBytes s.rxPl 0 s.rxHdr.len.toNat) else none

/-- R20, R40 to R44: status_out. -/
structure Status where
  errCode : Byte
  dropCnt : U32
  abortCnt : U32
  abandonCnt : U32
  rxOverrun : Bool
deriving DecidableEq, Repr

/-- R20: status_out of a state. -/
def statusOut (s : State) : Status :=
  { errCode := s.errCode, dropCnt := s.dropCnt, abortCnt := s.abortCnt, abandonCnt := s.abandonCnt,
    rxOverrun := s.rxOverrun }

/-- R6: TX_ENQUEUE's answer, where the last operation was one; no other operation's answer is observable. -/
def enqOkOut (s : State) : Option Bool :=
  match s.result with
  | .none => none
  | .enqOk b => some b
  | .bool _ => none
  | .byte _ => none
  | .word _ => none
  | .bytes _ => none
  | .header _ => none
  | .cls _ => none

/-- R6: what a claim may observe, and nothing else: the line, the Boolean of a TX_ENQUEUE, the held packet, the status. -/
structure Observation where
  wireOut : List Byte
  enqOk : Option Bool
  pkt : Option (Header × List Byte)
  status : Status
deriving DecidableEq, Repr

/-- R6: the observation of a state. -/
def observe (s : State) : Observation :=
  { wireOut := s.wireOut, enqOk := enqOkOut s, pkt := pktOut s, status := statusOut s }

/-! ## Duties of the environment (R343)

They are assumptions of a claim of progress, never of the step. A run is an endless sequence of operations with the state
each is issued in: DESIGN CHOICE (log 22), safe. -/

/-- R77: `run n` is the state in which the `n`-th operation `op n` is issued. -/
def IsRun (op : Nat → Instr) (run : Nat → State) : Prop := ∀ n, exec (op n) (run n) = .next (run (n + 1))

/-- An operation is issued infinitely often. -/
def InfinitelyOften (op : Nat → Instr) (i : Instr) : Prop := ∀ n, ∃ m, n ≤ m ∧ op m = i

/-- R343 (d): the `n`-th operation hands the dispatcher a packet. -/
def HandsOver (run : Nat → State) (n : Nat) : Prop :=
  (run n).rxState ≠ .packetReady ∧ (run (n + 1)).rxState = .packetReady

/-- R343: the duties of the environment. -/
structure Fair (op : Nat → Instr) (run : Nat → State) : Prop where
  /-- (a) MAIN polls both machines for ever. -/
  rxPolls : InfinitelyOften op .rxPoll
  txPolls : InfinitelyOften op .txPoll
  /-- (b) CLOCK ticks for ever. -/
  ticks : InfinitelyOften op .tick
  /-- (c) LINE_TX drains for ever while the TX ring holds a byte. -/
  drains : ∀ n, 0 < txLen (run n) → ∃ m, n ≤ m ∧ (op m = .txDrain ∨ txLen (run m) = 0)
  /-- (d) DISPATCHER releases each packet it is handed. -/
  releases : ∀ n, (run n).rxState = .packetReady → ∃ m, n ≤ m ∧ op m = .rxRelease
  /-- (d) DISPATCHER passes on each acknowledgement packet it is handed. -/
  acknowledges : ∀ n, HandsOver run n → isAckPkt (run (n + 1)).cfg (run (n + 1)).rxHdr = true →
    ∃ m, n < m ∧ (op m = .ackIn ∨ op m = .nackIn)

/-- R21: the encoding of rx_state. -/
def RxState.code : RxState → BitVec 3
  | .waitPreamble => 0
  | .waitHeader => 1
  | .waitPayload => 2
  | .waitCrcPost => 3
  | .packetReady => 4

/-- R30: the encoding of tx_state. -/
def TxState.code : TxState → BitVec 1
  | .pollPending => 0
  | .transmitPacket => 1

end Sys2Proof.Machine
end

