-- ==== Sys2Proof/Safety.lean ====
section
/-! DEFINITION. What claims are stated in terms of: the invariant of 10_state.md R46 with the shape of the stores
(20_memory.md R61, R72), readiness to take an operation (R342, R8), and the part of the state that can be observed
(R6, R29, R45). -/

namespace Sys2Proof.Machine

/-- Every listed index of a byte space lies below `n`. -/
def Memory.below (m : Memory) (n : Nat) : Bool := m.all fun c => decide (c.1 < n)

/-- R61: head and tail lie inside the ring, and a full ring has head = tail. -/
structure Indices.Wf (ix : Indices) (cap : Nat) : Prop where
  cap_eq : ix.cap = cap
  cap_pos : 0 < cap
  head_lt : ix.head < cap
  tail_lt : ix.tail < cap
  full_eq : ix.full = true → ix.head = ix.tail

/-- R61, log 9: a ring with its storage in canonical form and inside its capacity. -/
structure Ring.Wf (r : Ring) (cap : Nat) : Prop where
  ix : r.ix.Wf cap
  canonical : r.buf.wf = true
  inside : r.buf.below cap = true

/-- R72, log 14: every queued request is a packet, together they fit, and the ring's indices account for them. -/
structure Queue.Wf (q : Queue) (c : Config) : Prop where
  ix : q.ix.Wf c.txqCap.toNat
  packets : ∀ r ∈ q.reqs, isPacket r.hdr r.pl = true
  fits : (q.reqs.map (reqSize c)).sum ≤ c.txqCap.toNat
  accounts : q.ix.dataLen = (q.reqs.map (reqSize c)).sum

/-- R13, R60, log 9: RX_PL or TX_PL in canonical form and inside indices 0..255. -/
structure Memory.PayloadWf (m : Memory) : Prop where
  canonical : m.wf = true
  inside : m.below maxPayload = true

/-- R46 (I-c): the states in which rx_hdr holds a header that passed HDR_VALID. -/
def holdsHeader : RxState → Bool
  | .waitPreamble => false
  | .waitHeader => false
  | .waitPayload => true
  | .waitCrcPost => true
  | .packetReady => true

/-- R46 (I-e): the states in which rx_tmr is stopped. -/
def timerStopped : RxState → Bool
  | .waitPreamble => true
  | .waitHeader => false
  | .waitPayload => false
  | .waitCrcPost => false
  | .packetReady => true

/-- The invariant of every reachable state: R46 (I-b) to (I-g) and the shape of the stores. (I-a) and (I-h) hold by
the types of `rxState` and `txReq`. -/
structure State.Inv (s : State) : Prop where
  config : configOk s.cfg = true
  preIdx_zero : s.rxState ≠ .waitPreamble → s.preIdx = 0
  header_valid : holdsHeader s.rxState = true → hdrValid s.cfg s.rxHdr = true
  payload_nonempty : s.rxState = .waitPayload → 1 ≤ s.rxHdr.len.toNat
  rxTmr_stopped : timerStopped s.rxState = true → s.rxTmr.active = false ∧ s.rxTmr.raised = false
  ackTmr_stopped : s.txState = .pollPending → s.ackTmr.active = false ∧ s.ackTmr.raised = false
  retry_le : s.txState = .transmitPacket → s.txRetry ≤ s.cfg.maxRetries
  request_len : s.txState = .transmitPacket → s.txReq.hdr.len.toNat ≤ maxPayload
  rx_wf : s.rx.Wf s.cfg.rxCap.toNat
  tx_wf : s.tx.Wf s.cfg.txCap.toNat
  q_wf : s.q.Wf s.cfg
  rxPl_wf : s.rxPl.PayloadWf
  txPl_wf : s.txReq.pl.PayloadWf

/-- R342, R8: the instance is constructed and its configuration is legal, so an issued operation is taken. -/
def State.ready (s : State) : Bool := s.built && configOk s.cfg

/-- R29, R45, R271: two states that agree on everything except what the spec calls unspecified or not observable:
rx_hdr and rx_pl while no accepted header or payload is held, tx_req while no request is in flight, storage bytes that
hold no data, rem of a stopped time event, and the model's own counter. -/
structure State.SameSeen (s t : State) : Prop where
  cfg : s.cfg = t.cfg
  built : s.built = t.built
  inbox : s.inbox = t.inbox
  result : s.result = t.result
  rxState : s.rxState = t.rxState
  preIdx : s.preIdx = t.preIdx
  rxHdr : holdsHeader s.rxState = true → s.rxHdr = t.rxHdr
  rxPl : s.rxState = .waitCrcPost ∨ s.rxState = .packetReady →
    Memory.readBytes s.rxPl 0 s.rxHdr.len.toNat = Memory.readBytes t.rxPl 0 t.rxHdr.len.toNat
  rxTmr_active : s.rxTmr.active = t.rxTmr.active
  rxTmr_raised : s.rxTmr.raised = t.rxTmr.raised
  rxTmr_rem : s.rxTmr.active = true → s.rxTmr.rem = t.rxTmr.rem
  txState : s.txState = t.txState
  txRetry : s.txRetry = t.txRetry
  txNoack : s.txNoack = t.txNoack
  ackReq : s.txState = .transmitPacket → s.txReq.ackReq = t.txReq.ackReq
  txHdr : s.txState = .transmitPacket → s.txReq.hdr = t.txReq.hdr
  txPl : s.txState = .transmitPacket →
    Memory.readBytes s.txReq.pl 0 s.txReq.hdr.len.toNat = Memory.readBytes t.txReq.pl 0 t.txReq.hdr.len.toNat
  ackTmr_active : s.ackTmr.active = t.ackTmr.active
  ackTmr_raised : s.ackTmr.raised = t.ackTmr.raised
  ackTmr_rem : s.ackTmr.active = true → s.ackTmr.rem = t.ackTmr.rem
  rx_ix : s.rx.ix = t.rx.ix
  rx_contents : s.rx.contents = t.rx.contents
  tx_ix : s.tx.ix = t.tx.ix
  tx_contents : s.tx.contents = t.tx.contents
  q : s.q = t.q
  errCode : s.errCode = t.errCode
  dropCnt : s.dropCnt = t.dropCnt
  abortCnt : s.abortCnt = t.abortCnt
  abandonCnt : s.abandonCnt = t.abandonCnt
  rxOverrun : s.rxOverrun = t.rxOverrun
  wireOut : s.wireOut = t.wireOut

/-! ## The effects several operations share, said field by field -/

/-- R189, R150, R73 (decisions D6, D23): the request of type `ty` that the deframer queues: appended when it fits, else
counted. The fit is in exact naturals (DEDUCED, log 18). -/
structure CtlSent (ty : Byte) (s t : State) : Prop where
  queued : s.cfg.reqOverhead.toNat + 4 + qUsed s ≤ s.cfg.txqCap.toNat →
    t.q.reqs = s.q.reqs ++
      [Request.mk s.cfg.originTransport false { type := ty, dir := s.cfg.txDir, len := 0 } []] ∧
    t.dropCnt = s.dropCnt
  dropped : ¬ s.cfg.reqOverhead.toNat + 4 + qUsed s ≤ s.cfg.txqCap.toNat →
    t.q = s.q ∧ t.dropCnt = s.dropCnt + 1

/-- R66: a ring after a read of its `n` oldest bytes, `n` at least 1: the tail moves on and nothing is stored. -/
def consumed (n : Nat) (r : Ring) : Ring :=
  { ix := { cap := r.ix.cap, head := r.ix.head, tail := (r.ix.tail + n) % r.ix.cap, full := false }, buf := r.buf }

/-- R302: `t` is `s` after RxFail with condition `e`; `flush` says whether the RX ring is emptied. -/
structure Recovered (e : Err) (flush : Bool) (s t : State) : Prop where
  err : t.errCode = e.code
  flushed : flush = true →
    t.rx = { ix := { cap := s.rx.ix.cap, head := 0, tail := 0, full := false }, buf := s.rx.buf }
  kept : flush = false → t.rx = s.rx
  nack : CtlSent s.cfg.nackType s t
  state : t.rxState = .waitPreamble
  index : t.preIdx = 0
  timer : t.rxTmr = { rem := s.rxTmr.rem, active := false, raised := false }
  frame : t = { s with errCode := t.errCode, rx := t.rx, q := t.q, dropCnt := t.dropCnt, rxState := t.rxState,
                       preIdx := t.preIdx, rxTmr := t.rxTmr, result := .none }

/-- R232, R233: the TX ring and the status of `t` after one attempt, from `s`, to send the packet `h`, `pl`; `e` is
err_code before the attempt. The bytes stored to are the places after the old head. -/
structure Attempted (h : Header) (pl : List Byte) (e : Byte) (s t : State) : Prop where
  sent : s.tx.ix.dataLen + (16 + pl.length) ≤ s.tx.ix.cap →
    t.tx.contents = s.tx.contents ++ frameEncode s.cfg h pl ∧ t.errCode = e ∧ t.abortCnt = s.abortCnt
  aborted : ¬ s.tx.ix.dataLen + (16 + pl.length) ≤ s.tx.ix.cap →
    ∃ pre f post, frameFields s.cfg h pl = pre ++ f :: post ∧
      s.tx.ix.dataLen + pre.flatten.length ≤ s.tx.ix.cap ∧
      ¬ s.tx.ix.dataLen + pre.flatten.length + f.length ≤ s.tx.ix.cap ∧
      t.tx.contents = s.tx.contents ++ pre.flatten ∧ t.errCode = 10 ∧ t.abortCnt = s.abortCnt + 1
  storage : ∀ a, (∀ i, i < t.tx.contents.length - s.tx.contents.length → a ≠ s.tx.ix.step s.tx.ix.head i) →
    Memory.read t.tx.buf a = Memory.read s.tx.buf a
  ends : t.tx.ix.cap = s.tx.ix.cap ∧ t.tx.ix.tail = s.tx.ix.tail

/-- R26: the registers the deframer owns. -/
structure DeframerRegs where
  rxState : RxState
  preIdx : BitVec 2
  rxHdr : Header
  rxPl : Memory
  rxTmr : TimeEvent

/-- R26: `s` with other values in the registers the deframer owns. -/
def State.withDeframer (s : State) (d : DeframerRegs) : State :=
  { s with rxState := d.rxState, preIdx := d.preIdx, rxHdr := d.rxHdr, rxPl := d.rxPl, rxTmr := d.rxTmr }

/-- R26: the registers Transmit Delivery owns. -/
structure DeliveryRegs where
  txState : TxState
  txReq : TxReq
  txRetry : U32
  txNoack : Bool
  ackTmr : TimeEvent

/-- R26: `s` with other values in the registers Transmit Delivery owns. -/
def State.withDelivery (s : State) (d : DeliveryRegs) : State :=
  { s with txState := d.txState, txReq := d.txReq, txRetry := d.txRetry, txNoack := d.txNoack, ackTmr := d.ackTmr }

/-- The operations of 43_delivery.md. -/
def ofDelivery : Instr → Bool
  | .reset => false
  | .rxByte _ => false
  | .rxPoll => false
  | .rxRelease => false
  | .txEnqueue _ _ _ _ => true
  | .txPoll => true
  | .ackIn => true
  | .nackIn => true
  | .txDrain => true
  | .queueDepth => true
  | .tick => false
  | .chk _ => false
  | .hdrPack _ => false
  | .hdrUnpack _ => false
  | .classify _ => false
  | .hdrValid _ => false
  | .frameEncode _ _ => false

/-- The operations of 42_deframer.md. -/
def ofDeframer : Instr → Bool
  | .reset => false
  | .rxByte _ => true
  | .rxPoll => true
  | .rxRelease => true
  | .txEnqueue _ _ _ _ => false
  | .txPoll => false
  | .ackIn => false
  | .nackIn => false
  | .txDrain => false
  | .queueDepth => false
  | .tick => false
  | .chk _ => false
  | .hdrPack _ => false
  | .hdrUnpack _ => false
  | .classify _ => false
  | .hdrValid _ => false
  | .frameEncode _ _ => false

/-- An outcome with its next state changed by `f`. -/
def mapNext (f : State → State) : Host.Outcome State Fault Refusal → Host.Outcome State Fault Refusal
  | .next s => .next (f s)
  | .fault r => .fault r
  | .refused r => .refused r

/-- R29: two outcomes that no observation tells apart: the same kind, and next states that agree on what is seen. -/
def SameOutcome : Host.Outcome State Fault Refusal → Host.Outcome State Fault Refusal → Prop
  | .next s, .next t => s.SameSeen t ∧ observe s = observe t
  | .fault f, .fault f' => f = f'
  | .refused r, .refused r' => r = r'
  | _, _ => False

end Sys2Proof.Machine
end

