-- ==== Sys2Proof/Certificates/Slice0/Obligations.lean ====
section
/-! DEFINITION. The statements for the provers. Each docstring names the rules of spec/ it formalises; a clause that rests
on the spec's own decision (D<n> of 92_eei_decisions.md) or on a choice of the model (log <n>) says so. -/

open Sys2Proof Sys2Proof.Machine

/-! ## The codec -/

/-- R144, R103: HDR_PACK answers type, direction and the length in wire order, for any header, and changes nothing
else; under LE the four bytes read as one word are length, direction, type from the top. -/
def Obligations.HdrPackAnswersTypeDirLength : Prop :=
  ∀ (h : Header) (s : State),
    exec (.hdrPack h) s = .next { s with result := .bytes ([h.type, h.dir] ++ wire16 s.cfg.wireOrder h.len) } ∧
    unwire32 .le ([h.type, h.dir] ++ wire16 .le h.len) = h.len ++ h.dir ++ h.type

/-- R145: HDR_UNPACK is total and changes nothing else; that it is the inverse of HDR_PACK both ways is derived by the
spec (from R144, R145 and R11). -/
def Obligations.HdrUnpackInvertsHdrPack : Prop :=
  ∀ (q : Quad) (h : Header) (s : State),
    exec (.hdrUnpack q) s =
      .next { s with result := .header { type := q.b0, dir := q.b1, len := word16 s.cfg.wireOrder q.b2 q.b3 } } ∧
    wire16 s.cfg.wireOrder (word16 s.cfg.wireOrder q.b2 q.b3) = [q.b2, q.b3] ∧
    hdrPack s.cfg.wireOrder (hdrUnpack s.cfg.wireOrder q) = [q.b0, q.b1, q.b2, q.b3] ∧
    (hdrPack s.cfg.wireOrder h = [q.b0, q.b1, q.b2, q.b3] → hdrUnpack s.cfg.wireOrder q = h)

/-- R108: a header is invalid exactly when (a) its direction is no marker, (b) its type is in no range, (c) its class is
not legal for its direction, or (d) its length is above 256; and the deframer answers an invalid header with a flush, a
NACK and a restart. HDR_VALID answers the test and changes nothing else. The NACK's fields are R150 (the spec's own
decision D6), its count when the queue is full is R189 (D23), and its fit in exact naturals is log 18 (DEDUCED). -/
def Obligations.InvalidHeadersAreExactlyTheListedOnes : Prop :=
  (∀ (h : Header) (s : State),
    exec (.hdrValid h) s = .next { s with result := .bool (hdrValid s.cfg h) } ∧
    (hdrValid s.cfg h = false ↔
      (h.dir ≠ s.cfg.dirH2T ∧ h.dir ≠ s.cfg.dirT2H) ∨ classify s.cfg h.type = .none ∨
      (∃ legal, legalFor s.cfg h.dir = some legal ∧ classIn legal (classify s.cfg h.type) = false) ∨
      256 < h.len.toNat)) ∧
  (∀ (b0 b1 b2 b3 : Byte) (rest : List Byte) (s : State), s.Inv → s.rxState = .waitHeader →
    s.rxTmr.raised = false → s.rx.contents = b0 :: b1 :: b2 :: b3 :: rest →
    hdrValid s.cfg (hdrUnpack s.cfg.wireOrder ⟨b0, b1, b2, b3⟩) = false →
    ∃ t, exec .rxPoll s = .next t ∧ t.rx.contents = [] ∧ CtlSent s.cfg.nackType s t ∧
      t.rxState = .waitPreamble ∧ t.preIdx = 0)

/-- R147, R109 (the ranges are the spec's own decision D3): under a legal configuration CLASSIFY answers a class
exactly for the codes in that class's inclusive range, NONE for a code in none, and changes nothing else. -/
def Obligations.ClassifyAnswersTheRangeOfTheCode : Prop :=
  ∀ (t : Byte) (s : State), configOk s.cfg = true →
    ∃ c, exec (.classify t) s = .next { s with result := .cls c } ∧
      (c = .cmd ↔ s.cfg.cmdRange.lo ≤ t ∧ t ≤ s.cfg.cmdRange.hi) ∧
      (c = .evt ↔ s.cfg.evtRange.lo ≤ t ∧ t ≤ s.cfg.evtRange.hi) ∧
      (c = .rsp ↔ s.cfg.rspRange.lo ≤ t ∧ t ≤ s.cfg.rspRange.hi) ∧
      (c = .none ↔ inRange s.cfg.cmdRange t = false ∧ inRange s.cfg.evtRange t = false ∧
        inRange s.cfg.rspRange t = false)

/-- R140, R142 (the fold's details are the spec's own decision D2): CHK answers CHECKSUM_FN of its bytes and changes
nothing else; when CHECKSUM_FN is XorFold that is the XOR of the words at offsets 0, 4, 8, ..., the last one padded
with zero bytes. -/
def Obligations.ChkAnswersTheFoldOfTheWords : Prop :=
  ∀ (m : List Byte) (s : State),
    exec (.chk m) s = .next { s with result := .word (checksum s.cfg m) } ∧
    (s.cfg.checksumFn = .xorFold →
      checksum s.cfg m =
        ((List.range ((m.length + 3) / 4)).map fun k =>
          word32 s.cfg.wireOrder (m.getD (4 * k) 0) (m.getD (4 * k + 1) 0) (m.getD (4 * k + 2) 0)
            (m.getD (4 * k + 3) 0)).foldl (· ^^^ ·) 0)

/-- R143 (a) to (d) and (g) (derived by the spec from R142): the empty sequence, one word, two words swapped, zeros
appended, and 64 words of all ones. -/
def Obligations.XorFoldForgetsWordOrderAndZeros : Prop :=
  ∀ (o : WireOrder),
    xorFold o [] = 0 ∧
    (∀ a b c d, xorFold o [a, b, c, d] = unwire32 o [a, b, c, d]) ∧
    (∀ p u q v r : List Byte, p.length % 4 = 0 → u.length = 4 → q.length % 4 = 0 → v.length = 4 →
      xorFold o (p ++ u ++ q ++ v ++ r) = xorFold o (p ++ v ++ q ++ u ++ r)) ∧
    (∀ (m : List Byte) n, xorFold o (m ++ List.replicate n 0) = xorFold o m) ∧
    (∀ m : List Byte, m.length = 4 → xorFold o (m ++ List.replicate 256 0xFF) = xorFold o m)

/-- R143 (e), (f) (derived by the spec from R142): flipping one bit of the message flips exactly one bit of the fold, at
the place the byte's offset modulo 4 gives it; so flipping the same bit position in two words leaves the fold. -/
def Obligations.XorFoldFlipsExactlyOneBit : Prop :=
  ∀ (o : WireOrder) (m : List Byte) (i j : Nat), i < m.length → j < 8 →
    xorFold o (m.set i (m.getD i 0 ^^^ (1#8 <<< j))) =
      xorFold o m ^^^
        (1#32 <<< (match o with
                   | .le => 8 * (i % 4) + j
                   | .be => 8 * (3 - i % 4) + j))

/-- R100, R149: FRAME_ENCODE of a packet answers 16 + len bytes laid out field by field at the offsets of R100 and
changes nothing else. That it does not test the header's validity, and refuses operands that are not a packet, is the
spec's own decision D32; the refusal's name is log 11 (DEDUCED). -/
def Obligations.FrameEncodeLaysOutTheFields : Prop :=
  ∀ (h : Header) (pl : List Byte) (s : State),
    (pl.length = h.len.toNat → h.len.toNat ≤ 256 →
      ∃ f, exec (.frameEncode h pl) s = .next { s with result := .bytes f } ∧
        f.length = 16 + h.len.toNat ∧
        f.take 4 = wire32 s.cfg.wireOrder preamble ∧
        (f.drop 4).take 1 = [h.type] ∧ (f.drop 5).take 1 = [h.dir] ∧
        (f.drop 6).take 2 = wire16 s.cfg.wireOrder h.len ∧
        (f.drop 8).take h.len.toNat = pl ∧
        (f.drop (8 + h.len.toNat)).take 4 =
          wire32 s.cfg.wireOrder (checksum s.cfg ([h.type, h.dir] ++ wire16 s.cfg.wireOrder h.len ++ pl)) ∧
        f.drop (12 + h.len.toNat) = wire32 s.cfg.wireOrder postamble) ∧
    (¬ (pl.length = h.len.toNat ∧ h.len.toNat ≤ 256) → exec (.frameEncode h pl) s = .refused .notAPacket)

/-- R101, R102 (byte order: the spec's own decision D1) and R111 (derived by the spec): the delimiters on the wire in
both orders, and the example frame {0x05, 0x01, 3, DE AD BE} under TC. -/
def Obligations.DelimitersAndExampleFrameOnTheWire : Prop :=
  wire32 .le preamble = [0x55, 0xAA, 0x55, 0xAA] ∧ wire32 .be preamble = [0xAA, 0x55, 0xAA, 0x55] ∧
  wire32 .le postamble = [0x55, 0xBB, 0x55, 0xBB] ∧ wire32 .be postamble = [0xBB, 0x55, 0xBB, 0x55] ∧
  frameEncode Config.tc { type := 0x05, dir := 0x01, len := 3 } [0xDE, 0xAD, 0xBE] =
    [0x55, 0xAA, 0x55, 0xAA, 0x05, 0x01, 0x03, 0x00, 0xDE, 0xAD, 0xBE, 0xDB, 0xAC, 0xBD, 0x00, 0x55, 0xBB, 0x55, 0xBB]

/-- R151 (derived by the spec): decoding the frame of a packet with a valid header gives the packet back, for every
configuration and every CHECKSUM_FN. -/
def Obligations.DecodeFrameInvertsFrameEncode : Prop :=
  ∀ (c : Config) (h : Header) (pl : List Byte), hdrValid c h = true → pl.length = h.len.toNat →
    decodeFrame c (frameEncode c h pl) = .packet h pl

/-- R151 (derived by the spec): one flipped bit in the checksum field of such a frame is a bad checksum, for every
CHECKSUM_FN. -/
def Obligations.ChecksumFieldFlipIsBadChecksum : Prop :=
  ∀ (c : Config) (h : Header) (pl : List Byte) (i j : Nat), hdrValid c h = true → pl.length = h.len.toNat →
    i < 4 → j < 8 →
    decodeFrame c
      ((frameEncode c h pl).set (8 + h.len.toNat + i)
        ((frameEncode c h pl).getD (8 + h.len.toNat + i) 0 ^^^ (1#8 <<< j))) = .badChecksum

/-! ## Operation words -/

/-- R115, R116 (the words are the spec's own decision D25): words written out bit by bit decode to their operations. -/
def Obligations.TableWordsDecodeToTheirOperations : Prop :=
  decode 0b0000000100000000#16 Beside.zero = .ok .reset ∧
  decode 0b0001000001010101#16 Beside.zero = .ok (.rxByte 0x55) ∧
  decode 0b0001000100000000#16 Beside.zero = .ok .rxPoll ∧
  decode 0b0010010100000000#16 Beside.zero = .ok .queueDepth ∧
  decode 0b0011000000000000#16 Beside.zero = .ok .tick ∧
  decode 0b0100001101000000#16 Beside.zero = .ok (.classify 0x40) ∧
  decode 0b0001000100000001#16 Beside.zero = .error (.nonzeroImm 0x11 0x01) ∧
  decode 0b0000011000000000#16 Beside.zero = .error (.unknownOp 0x06)

/-- R115, R116 (decision D25; the operands beside the word are log 10): decoding the encoding of an instruction gives it
back, with every operand at every value, and a word that decodes is the word its instruction encodes to. -/
def Obligations.DecodeAndEncodeAgree : Prop :=
  (∀ i : Instr, decode (encode i).word (encode i).beside = .ok i) ∧
  (∀ (w : BitVec 16) (x : Beside) (i : Instr), decode w x = .ok i → (encode i).word = w)

/-- R117 (decision D25): a word is rejected exactly when its op is not in R115, or its op takes no immediate and imm is
not 0, whatever stands beside it; and a ready machine refuses such a word by name. -/
def Obligations.ReservedWordsAreRefused : Prop :=
  (∀ (w : BitVec 16) (x : Beside), (∃ e, decode w x = .error e) ↔
    (w.extractLsb' 8 8 ∉ ([0x01, 0x10, 0x11, 0x12, 0x20, 0x21, 0x22, 0x23, 0x24, 0x25, 0x30, 0x40, 0x41, 0x42, 0x43,
        0x44, 0x45] : List Byte) ∨
      (w.extractLsb' 8 8 ≠ 0x10#8 ∧ w.extractLsb' 8 8 ≠ 0x43#8 ∧ w.extractLsb' 0 8 ≠ 0#8))) ∧
  (∀ (s : State) (x : Issue) (rest : List Issue) (e : Reserved), s.ready = true → s.inbox = x :: rest →
    decode x.word x.beside = .error e → step s = .refused (.reservedWord x.word))

/-- R5, R77, R8, R342 (issuing operations through `inbox` is the model's choice, log 1; the idle step is log 2; the
refusals before construction and under a bad configuration are R342 and R8, log 4, log 16): a step of a ready machine
whose next issued operation decodes to `i` is the effect of `i`, with that operation taken from `inbox`. -/
def Obligations.StepRunsTheIssuedOperation : Prop :=
  ∀ (s : State) (x : Issue) (rest : List Issue),
    (s.ready = true → s.inbox = x :: rest → ∀ i, decode x.word x.beside = .ok i →
      step s = exec i { s with inbox := rest }) ∧
    (s.built = false → s.inbox = x :: rest → step s = .refused .notConstructed) ∧
    (s.built = true → configOk s.cfg = false → s.inbox = x :: rest → step s = .refused .badConfig) ∧
    (s.inbox = [] → step s = .next s)

/-! ## Reset -/

/-- R340, R45 (decision D27): RESET completes in every state and gives every register the value R45 states; it does not
change the configuration, wire_out or the operations still to come. What R45 calls unspecified is not said. -/
def Obligations.ResetGivesEveryStatedValue : Prop :=
  ∀ s : State, ∃ t, exec .reset s = .next t ∧
    t.rxState = .waitPreamble ∧ t.preIdx = 0 ∧ t.rxTmr = { rem := 0, active := false, raised := false } ∧
    t.txState = .pollPending ∧ t.txRetry = 0 ∧ t.txNoack = false ∧
    t.ackTmr = { rem := 0, active := false, raised := false } ∧
    t.rx.ix = { cap := s.cfg.rxCap.toNat, head := 0, tail := 0, full := false } ∧ t.rx.contents = [] ∧
    t.tx.ix = { cap := s.cfg.txCap.toNat, head := 0, tail := 0, full := false } ∧ t.tx.contents = [] ∧
    t.q = { ix := { cap := s.cfg.txqCap.toNat, head := 0, tail := 0, full := false }, reqs := [] } ∧
    t.errCode = 0 ∧ t.dropCnt = 0 ∧ t.abortCnt = 0 ∧ t.abandonCnt = 0 ∧ t.rxOverrun = false ∧
    t.cfg = s.cfg ∧ t.built = s.built ∧ t.inbox = s.inbox ∧ t.wireOut = s.wireOut ∧ t.result = .none

/-- R341, R342, R45, R8 (decisions D27, D3): a configuration is legal exactly when it meets the constraints of R8 (its
table T_PAY is log 6, a range that holds no code is log 23); construction with a legal configuration gives the state
after RESET, and with one that breaks a constraint gives none. The free registers' zeros are log 7 and are not said. -/
def Obligations.ConstructionGivesTheResetState : Prop :=
  ∀ c : Config,
    (configOk c = true ↔
      (∀ t, ¬ (inRange c.cmdRange t = true ∧ inRange c.evtRange t = true)) ∧
      (∀ t, ¬ (inRange c.cmdRange t = true ∧ inRange c.rspRange t = true)) ∧
      (∀ t, ¬ (inRange c.evtRange t = true ∧ inRange c.rspRange t = true)) ∧
      inRange c.rspRange c.ackType = true ∧ inRange c.rspRange c.nackType = true ∧ c.ackType ≠ c.nackType ∧
      c.dirH2T ≠ c.dirT2H ∧
      (c.txDir = c.dirH2T ∧ c.legalH2T.rsp = true ∨ c.txDir = c.dirT2H ∧ c.legalT2H.rsp = true) ∧
      1 ≤ c.tHdr.toNat ∧ 1 ≤ c.tCrc.toNat ∧ 1 ≤ c.tAck.toNat ∧
      c.tPay.length = 257 ∧ (∀ n ∈ c.tPay, 1 ≤ n.toNat) ∧
      (∀ i j, i ≤ j → j ≤ 256 → (c.tPay.getD i 0).toNat ≤ (c.tPay.getD j 0).toNat) ∧
      c.maxRetries.toNat ≤ 2 ^ 32 - 2 ∧
      1 ≤ c.rxCap.toNat ∧ 1 ≤ c.txCap.toNat ∧ 1 ≤ c.txqCap.toNat) ∧
    (configOk c = false → construct c = none) ∧
    (configOk c = true → ∃ s, construct c = some s ∧ s.cfg = c ∧ s.ready = true ∧
      s.rxState = .waitPreamble ∧ s.preIdx = 0 ∧ s.rxTmr = { rem := 0, active := false, raised := false } ∧
      s.txState = .pollPending ∧ s.txRetry = 0 ∧ s.txNoack = false ∧
      s.ackTmr = { rem := 0, active := false, raised := false } ∧
      s.rx.ix = { cap := c.rxCap.toNat, head := 0, tail := 0, full := false } ∧
      s.tx.ix = { cap := c.txCap.toNat, head := 0, tail := 0, full := false } ∧
      s.q = { ix := { cap := c.txqCap.toNat, head := 0, tail := 0, full := false }, reqs := [] } ∧
      s.errCode = 0 ∧ s.dropCnt = 0 ∧ s.abortCnt = 0 ∧ s.abandonCnt = 0 ∧ s.rxOverrun = false)

/-! ## Rings and the queue -/

/-- R62: the three queries of a ring, the difference of the indices taken modulo the capacity. -/
def Obligations.RingQueriesFollowTheIndices : Prop :=
  ∀ (ix : Indices) (cap : Nat), ix.Wf cap →
    (ix.dataLen : Int) = (if ix.full then (cap : Int) else ((ix.head : Int) - (ix.tail : Int)) % (cap : Int)) ∧
    ix.freeSpace = cap - ix.dataLen ∧ ix.capacity = cap

/-- R67: RingFetch answers the n oldest bytes, or FAIL when fewer are held; what it answers is what a read of the same
number would remove. -/
def Obligations.RingFetchPreviewsTheOldest : Prop :=
  ∀ (r : Ring) (cap n : Nat), r.Wf cap →
    (r.ix.dataLen < n → r.fetch n = none ∧ r.read n = none) ∧
    (n ≤ r.ix.dataLen → r.fetch n = some (r.contents.take n) ∧
      ∃ r', r.read n = some (r.contents.take n, r') ∧ r'.contents = r.contents.drop n)

/-- R64, R180 (the flag rx_overrun is the spec's own decision D40): RX_BYTE completes in every reachable state. The ring
gains the byte at the end; a full ring loses its oldest byte and the overrun flag is set. Nothing else changes, and the
only byte of storage stored to is the one at the head. -/
def Obligations.RxByteAppendsOrOverwritesOldest : Prop :=
  ∀ (b : Byte) (s : State), s.Inv →
    ∃ t, exec (.rxByte b) s = .next t ∧
      t.rx.contents = (if s.rx.ix.full then s.rx.contents.tail else s.rx.contents) ++ [b] ∧
      t.rxOverrun = (s.rxOverrun || s.rx.ix.full) ∧
      Memory.read t.rx.buf s.rx.ix.head = b ∧
      (∀ a, a ≠ s.rx.ix.head → Memory.read t.rx.buf a = Memory.read s.rx.buf a) ∧
      t = { s with rx := t.rx, rxOverrun := t.rxOverrun, result := .none }

/-- R230, R73: TX_ENQUEUE of a packet appends the request and answers true when it fits in the free space of the queue,
and otherwise answers false and leaves the queue unchanged. Nothing else changes. The size of a request and the free
space are R72 (the spec's own decision D29), in exact naturals (log 18, DEDUCED). -/
def Obligations.TxEnqueueAppendsWhenItFits : Prop :=
  ∀ (origin : Byte) (ackReq : Bool) (h : Header) (pl : List Byte) (s : State), pl.length = h.len.toNat →
    h.len.toNat ≤ 256 →
    ∃ t b, exec (.txEnqueue origin ackReq h pl) s = .next t ∧
      (b = true ↔ s.cfg.reqOverhead.toNat + 4 + h.len.toNat ≤ s.cfg.txqCap.toNat - qUsed s) ∧
      (b = true → t.q.reqs = s.q.reqs ++ [{ origin := origin, ackReq := ackReq, hdr := h, pl := pl }]) ∧
      (b = false → t.q = s.q) ∧
      t = { s with q := t.q, result := .enqOk b }

/-- R230, R149 (refusing what is not a packet is the spec's own decision D32): an operation is refused exactly when it
is TX_ENQUEUE or FRAME_ENCODE with a payload that is not `len` bytes or a `len` above 256, in every state. -/
def Obligations.OnlyNonPacketsAreRefused : Prop :=
  ∀ (i : Instr) (s : State),
    (wellFormed i = false → exec i s = .refused .notAPacket) ∧
    (wellFormed i = true → ∀ r, exec i s ≠ .refused r)

/-- R231: QUEUE_DEPTH answers the number of queued requests; the request in flight is not counted. Nothing else
changes. -/
def Obligations.QueueDepthCountsTheQueue : Prop :=
  ∀ s : State, s.Inv →
    ∃ v : U32, exec .queueDepth s = .next { s with result := .word v } ∧ v.toNat = s.q.reqs.length

/-! ## The deframer -/

/-- R182 (not re-testing a mismatching byte is the spec's own decision D16): RX_POLL in WAIT_PREAMBLE does nothing on an
empty ring; else it consumes one byte; a match advances the index or, at index 3, enters WAIT_HEADER with the timer
started; a mismatch sets the index to 0. Nothing else changes, and no byte of storage is stored to. -/
def Obligations.PreamblePollMatchesOneByte : Prop :=
  ∀ s : State, s.Inv → s.rxState = .waitPreamble →
    (s.rx.contents = [] → exec .rxPoll s = .next { s with result := .none }) ∧
    (∀ b rest, s.rx.contents = b :: rest →
      ∃ t, exec .rxPoll s = .next t ∧ t.rx.contents = rest ∧ t.rx = consumed 1 s.rx ∧
        (b ≠ (wire32 s.cfg.wireOrder preamble).getD s.preIdx.toNat 0 →
          t = { s with rx := t.rx, preIdx := 0, result := .none }) ∧
        (b = (wire32 s.cfg.wireOrder preamble).getD s.preIdx.toNat 0 → s.preIdx.toNat < 3 →
          t.preIdx.toNat = s.preIdx.toNat + 1 ∧ t = { s with rx := t.rx, preIdx := t.preIdx, result := .none }) ∧
        (b = (wire32 s.cfg.wireOrder preamble).getD s.preIdx.toNat 0 → s.preIdx.toNat = 3 →
          t = { s with rx := t.rx, preIdx := 0, rxState := .waitHeader,
                       rxTmr := { rem := s.cfg.tHdr, active := true, raised := false }, result := .none }))

/-- R183 (testing the timeout first is the spec's own decision D14; the timeout itself is in TimedOutPhasesRecover; the
fit of the recovery's NACK is log 18, DEDUCED): RX_POLL in WAIT_HEADER with fewer than 4 bytes does nothing; with 4 it
consumes them; a valid header is stored and enters WAIT_PAYLOAD, or WAIT_CRC_POST when its length is 0, with the timer
restarted; an invalid one is E_BAD_HEADER with a flush. -/
def Obligations.HeaderPollStoresOrRejects : Prop :=
  ∀ s : State, s.Inv → s.rxState = .waitHeader → s.rxTmr.raised = false →
    (s.rx.contents.length < 4 → exec .rxPoll s = .next { s with result := .none }) ∧
    (∀ b0 b1 b2 b3 rest, s.rx.contents = b0 :: b1 :: b2 :: b3 :: rest →
      ∀ h, h = hdrUnpack s.cfg.wireOrder ⟨b0, b1, b2, b3⟩ →
      ∃ t, exec .rxPoll s = .next t ∧
        (hdrValid s.cfg h = true → h.len.toNat = 0 →
          t.rx.contents = rest ∧ t.rx = consumed 4 s.rx ∧
          t = { s with rx := t.rx, rxHdr := h, rxState := .waitCrcPost,
                       rxTmr := { rem := s.cfg.tCrc, active := true, raised := false }, result := .none }) ∧
        (hdrValid s.cfg h = true → 1 ≤ h.len.toNat →
          t.rx.contents = rest ∧ t.rx = consumed 4 s.rx ∧
          ∃ n, s.cfg.tPay[h.len.toNat]? = some n ∧
          t = { s with rx := t.rx, rxHdr := h, rxState := .waitPayload,
                       rxTmr := { rem := n, active := true, raised := false }, result := .none }) ∧
        (hdrValid s.cfg h = false → Recovered .badHeader true s t))

/-- R184 (testing the timeout first is the spec's own decision D14, the recovery's code D39; the fit of its NACK is log
18, DEDUCED): RX_POLL in WAIT_PAYLOAD raises E_TIMEOUT_PAYLOAD when its timer has fired, tested first; with fewer than
len bytes it consumes nothing; with len bytes it moves them to RX_PL 0 .. len - 1 and enters WAIT_CRC_POST with the
timer restarted. Every other byte of RX_PL, and everything else, is unchanged. -/
def Obligations.PayloadPollMovesTheWholePayload : Prop :=
  ∀ s : State, s.Inv → s.rxState = .waitPayload →
    (s.rxTmr.raised = true → ∃ t, exec .rxPoll s = .next t ∧ Recovered .timeoutPayload true s t) ∧
    (s.rxTmr.raised = false → s.rx.contents.length < s.rxHdr.len.toNat →
      exec .rxPoll s = .next { s with result := .none }) ∧
    (s.rxTmr.raised = false → s.rxHdr.len.toNat ≤ s.rx.contents.length →
      ∃ t, exec .rxPoll s = .next t ∧
        t.rx.contents = s.rx.contents.drop s.rxHdr.len.toNat ∧ t.rx = consumed s.rxHdr.len.toNat s.rx ∧
        Memory.readBytes t.rxPl 0 s.rxHdr.len.toNat = s.rx.contents.take s.rxHdr.len.toNat ∧
        (∀ a, s.rxHdr.len.toNat ≤ a → Memory.read t.rxPl a = Memory.read s.rxPl a) ∧
        t = { s with rx := t.rx, rxPl := t.rxPl, rxState := .waitCrcPost,
                     rxTmr := { rem := s.cfg.tCrc, active := true, raised := false }, result := .none })

/-- R185 (the trailer read as one, the checksum tested first: the spec's own decision D15; a flush on these two
conditions as FLUSH_ON_TRAILER_ERROR says, D12; the fit of an ACK or NACK is log 18, DEDUCED): RX_POLL in WAIT_CRC_POST
with fewer than 8 bytes does nothing; with 8 it consumes them and either recovers with E_BAD_CHECKSUM or
E_BAD_POSTAMBLE, or holds the packet, stops the timer and queues one ACK unless the packet is itself an ACK or NACK. -/
def Obligations.TrailerPollAcceptsOrRejects : Prop :=
  ∀ s : State, s.Inv → s.rxState = .waitCrcPost → s.rxTmr.raised = false →
    (s.rx.contents.length < 8 → exec .rxPoll s = .next { s with result := .none }) ∧
    (8 ≤ s.rx.contents.length →
      ∀ sum, sum = checksum s.cfg (hdrPack s.cfg.wireOrder s.rxHdr
        ++ Memory.readBytes s.rxPl 0 s.rxHdr.len.toNat) →
      ∃ t r, exec .rxPoll s = .next t ∧
        r.contents = s.rx.contents.drop 8 ∧ r = consumed 8 s.rx ∧
        (unwire32 s.cfg.wireOrder (s.rx.contents.take 4) ≠ sum →
          Recovered .badChecksum s.cfg.flushOnTrailerError { s with rx := r } t) ∧
        (unwire32 s.cfg.wireOrder (s.rx.contents.take 4) = sum →
          unwire32 s.cfg.wireOrder ((s.rx.contents.drop 4).take 4) ≠ postamble →
          Recovered .badPostamble s.cfg.flushOnTrailerError { s with rx := r } t) ∧
        (unwire32 s.cfg.wireOrder (s.rx.contents.take 4) = sum →
          unwire32 s.cfg.wireOrder ((s.rx.contents.drop 4).take 4) = postamble →
          (isAckPkt s.cfg s.rxHdr = true → t.q = s.q ∧ t.dropCnt = s.dropCnt) ∧
          (isAckPkt s.cfg s.rxHdr = false → CtlSent s.cfg.ackType s t) ∧
          t = { s with rx := r, q := t.q, dropCnt := t.dropCnt, rxState := .packetReady,
                       rxTmr := { rem := s.rxTmr.rem, active := false, raised := false }, result := .none }))

/-- R186: RX_POLL in PACKET_READY reads and writes nothing. -/
def Obligations.ReadyPollChangesNothing : Prop :=
  ∀ s : State, s.rxState = .packetReady → exec .rxPoll s = .next { s with result := .none }

/-- R302, R300 (the codes are the spec's own decision D39, the order of tests D14; the fit of the NACK is log 18,
DEDUCED): a poll of a phase whose timer has fired is the recovery with that phase's code, whatever the ring holds:
err_code, flush, one NACK queued or counted, timer stopped, index 0, WAIT_PREAMBLE, and nothing else. -/
def Obligations.TimedOutPhasesRecover : Prop :=
  ∀ s : State, s.rxTmr.raised = true →
    (s.rxState = .waitHeader → ∃ t, exec .rxPoll s = .next t ∧ t.errCode = 3 ∧ Recovered .timeoutHeader true s t) ∧
    (s.rxState = .waitPayload → ∃ t, exec .rxPoll s = .next t ∧ t.errCode = 4 ∧ Recovered .timeoutPayload true s t) ∧
    (s.rxState = .waitCrcPost → ∃ t, exec .rxPoll s = .next t ∧ t.errCode = 5 ∧ Recovered .timeoutTrailer true s t)

/-- R188 (ignored elsewhere, not latched: the spec's own decision D28): RX_RELEASE frees the held packet and changes
nothing else; in every other state it changes nothing. -/
def Obligations.RxReleaseFreesTheHeldPacket : Prop :=
  ∀ s : State,
    (s.rxState = .packetReady →
      exec .rxRelease s = .next { s with rxState := .waitPreamble, result := .none } ∧
      pktOut { s with rxState := .waitPreamble, result := .none } = none) ∧
    (s.rxState ≠ .packetReady → exec .rxRelease s = .next { s with result := .none })

/-! ## Transmit Delivery -/

/-- R232 (what an abort leaves is the spec's own decision D21, in AbortedAttemptLeavesWholeFields): an attempt whose
frame fits appends exactly the frame of the request in flight to the TX ring and changes nothing else. -/
def Obligations.SendAppendsExactlyTheFrame : Prop :=
  ∀ s : State, s.tx.Wf s.cfg.txCap.toNat → s.txReq.hdr.len.toNat ≤ 256 →
    ∀ pl, pl = Memory.readBytes s.txReq.pl 0 s.txReq.hdr.len.toNat →
    s.tx.ix.dataLen + (16 + pl.length) ≤ s.tx.ix.cap →
    ∃ t, send s = .ok t ∧ t.tx.contents = s.tx.contents ++ frameEncode s.cfg s.txReq.hdr pl ∧
      t = { s with tx := t.tx }

/-- R233 (the spec's own decision D21): an attempt whose frame does not fit leaves a whole number of fields in the TX
ring, the last that fits being followed by one that does not; err_code and abort_cnt record it and nothing else
changes. -/
def Obligations.AbortedAttemptLeavesWholeFields : Prop :=
  ∀ s : State, s.tx.Wf s.cfg.txCap.toNat → s.txReq.hdr.len.toNat ≤ 256 →
    ∀ pl, pl = Memory.readBytes s.txReq.pl 0 s.txReq.hdr.len.toNat →
    ¬ s.tx.ix.dataLen + (16 + pl.length) ≤ s.tx.ix.cap →
    ∃ t, send s = .ok t ∧ Attempted s.txReq.hdr pl s.errCode s t ∧ t.errCode = 10 ∧
      t = { s with tx := t.tx, errCode := t.errCode, abortCnt := s.abortCnt + 1 }

/-- R236, R234, R75 (completion of a no-ack request at the next poll is the spec's own decision D20): TX_POLL in
POLL_PENDING does nothing on an empty queue; else it removes the oldest request, loads tx_req and TX_PL, clears the
retry counter, starts the ack timer or marks the request as needing none, and makes one attempt. Bytes of TX_PL past the
payload, and everything else, are unchanged. -/
def Obligations.TxPollSendsTheOldestRequest : Prop :=
  ∀ s : State, s.Inv → s.txState = .pollPending →
    (s.q.reqs = [] → exec .txPoll s = .next { s with result := .none }) ∧
    (∀ r rest, s.q.reqs = r :: rest →
      ∃ t, exec .txPoll s = .next t ∧ t.q.reqs = rest ∧
        t.txReq.origin = r.origin ∧ t.txReq.ackReq = r.ackReq ∧ t.txReq.hdr = r.hdr ∧
        Memory.readBytes t.txReq.pl 0 r.hdr.len.toNat = r.pl ∧
        (∀ a, r.hdr.len.toNat ≤ a → Memory.read t.txReq.pl a = Memory.read s.txReq.pl a) ∧
        t.txState = .transmitPacket ∧ t.txRetry = 0 ∧ t.txNoack = !r.ackReq ∧
        t.ackTmr = (if r.ackReq then { rem := s.cfg.tAck, active := true, raised := false } else s.ackTmr) ∧
        Attempted r.hdr r.pl s.errCode s t ∧
        t = { s with q := t.q, txReq := t.txReq, txState := t.txState, txRetry := t.txRetry, txNoack := t.txNoack,
                     ackTmr := t.ackTmr, tx := t.tx, errCode := t.errCode, abortCnt := t.abortCnt, result := .none })

/-- R236 (decision D20; a resend as exit and entry is D38): TX_POLL in TRANSMIT_PACKET completes a request that needs no
ACK; else, when the ack timer has fired, it counts a retry and abandons the request past MAX_RETRIES or resends it; else
it changes nothing. -/
def Obligations.TxPollCompletesRetriesOrAbandons : Prop :=
  ∀ s : State, s.Inv → s.txState = .transmitPacket →
    (s.txNoack = true →
      exec .txPoll s = .next { s with txState := .pollPending, result := .none,
                                      ackTmr := { rem := s.ackTmr.rem, active := false, raised := false } }) ∧
    (s.txNoack = false → s.ackTmr.raised = false → exec .txPoll s = .next { s with result := .none }) ∧
    (s.txNoack = false → s.ackTmr.raised = true → s.txRetry = s.cfg.maxRetries →
      exec .txPoll s = .next { s with txState := .pollPending, txRetry := s.txRetry + 1, errCode := 9,
                                      abandonCnt := s.abandonCnt + 1, result := .none,
                                      ackTmr := { rem := s.ackTmr.rem, active := false, raised := false } }) ∧
    (s.txNoack = false → s.ackTmr.raised = true → s.txRetry < s.cfg.maxRetries →
      ∃ t, exec .txPoll s = .next t ∧ t.txRetry.toNat = s.txRetry.toNat + 1 ∧
        Attempted s.txReq.hdr (Memory.readBytes s.txReq.pl 0 s.txReq.hdr.len.toNat) 8 s t ∧
        t.txNoack = !s.txReq.ackReq ∧
        (s.txReq.ackReq = true → t.ackTmr = { rem := s.cfg.tAck, active := true, raised := false }) ∧
        t = { s with txRetry := t.txRetry, txNoack := t.txNoack, ackTmr := t.ackTmr, tx := t.tx, errCode := t.errCode,
                     abortCnt := t.abortCnt, result := .none })

/-- R237 (decision D19): ACK_IN in TRANSMIT_PACKET completes the request and stops the ack timer; elsewhere it changes
nothing. It completes in every state. -/
def Obligations.AckInCompletesTheRequest : Prop :=
  ∀ s : State,
    (s.txState = .transmitPacket →
      exec .ackIn s = .next { s with txState := .pollPending, result := .none,
                                     ackTmr := { rem := s.ackTmr.rem, active := false, raised := false } }) ∧
    (s.txState = .pollPending → exec .ackIn s = .next { s with result := .none })

/-- R238 (the retry policy is the spec's own decision D11, conflict C6; ignoring a NACK of a no-ack request is C5):
NACK_IN is ignored in POLL_PENDING and when no ACK is needed; else it resends at once, or, when NACKs count and
MAX_RETRIES are used up, abandons the request. -/
def Obligations.NackInResendsOrAbandons : Prop :=
  ∀ s : State, s.Inv →
    (s.txState = .pollPending ∨ s.txNoack = true → exec .nackIn s = .next { s with result := .none }) ∧
    (s.txState = .transmitPacket → s.txNoack = false → s.cfg.nackCountsRetry = true →
      s.txRetry = s.cfg.maxRetries →
      exec .nackIn s = .next { s with txState := .pollPending, txRetry := s.txRetry + 1, errCode := 9,
                                      abandonCnt := s.abandonCnt + 1, result := .none,
                                      ackTmr := { rem := s.ackTmr.rem, active := false, raised := false } }) ∧
    (s.txState = .transmitPacket → s.txNoack = false →
      (s.cfg.nackCountsRetry = false ∨ s.txRetry < s.cfg.maxRetries) →
      ∃ t, exec .nackIn s = .next t ∧
        t.txRetry.toNat = s.txRetry.toNat + (if s.cfg.nackCountsRetry then 1 else 0) ∧
        Attempted s.txReq.hdr (Memory.readBytes s.txReq.pl 0 s.txReq.hdr.len.toNat) 12 s t ∧
        t.txNoack = !s.txReq.ackReq ∧
        (s.txReq.ackReq = true → t.ackTmr = { rem := s.cfg.tAck, active := true, raised := false }) ∧
        t = { s with txRetry := t.txRetry, txNoack := t.txNoack, ackTmr := t.ackTmr, tx := t.tx, errCode := t.errCode,
                     abortCnt := t.abortCnt, result := .none })

/-- R239, R71 (one byte a drain is the spec's own decision D22): TX_DRAIN puts the oldest byte of the TX ring on the
line and answers it, or answers NONE on an empty ring. No byte of storage is stored to and nothing else changes. -/
def Obligations.TxDrainMovesOneByteToTheLine : Prop :=
  ∀ s : State, s.Inv →
    (s.tx.contents = [] → exec .txDrain s = .next { s with result := .byte none }) ∧
    (∀ b rest, s.tx.contents = b :: rest →
      ∃ t, exec .txDrain s = .next t ∧ t.tx.contents = rest ∧ t.tx.buf = s.tx.buf ∧
        t.tx.ix = { s.tx.ix with tail := (s.tx.ix.tail + 1) % s.tx.ix.cap, full := false } ∧
        t = { s with tx := t.tx, wireOut := s.wireOut ++ [b], result := .byte (some b) })

/-! ## Time events -/

/-- R273 (what one tick does to a time event is R272, the spec's own decision D17): TICK ticks both time events, each by
itself, and changes nothing else. An idle event ignores it, one with at most 1 left fires, any other counts down. -/
def Obligations.TickCountsBothTimeEvents : Prop :=
  ∀ s : State, ∃ t, exec .tick s = .next t ∧
    t = { s with rxTmr := t.rxTmr, ackTmr := t.ackTmr, result := .none } ∧
    (∀ old new : TimeEvent, (old = s.rxTmr ∧ new = t.rxTmr) ∨ (old = s.ackTmr ∧ new = t.ackTmr) →
      (old.active = false → new = old) ∧
      (old.active = true → old.rem.toNat ≤ 1 → new = { rem := 0, active := false, raised := true }) ∧
      (old.active = true → 2 ≤ old.rem.toNat →
        new.rem.toNat = old.rem.toNat - 1 ∧ new.active = true ∧ new.raised = old.raised))

/-- R272, R270 (decision D17): a time event started with n >= 1 ticks has n - k left after k < n ticks, fires at the
n-th, and then stays as it is; one started with 0 fires at the first. -/
def Obligations.TimerFiresAtExactlyTheNthTick : Prop :=
  ∀ (n : U32) (k : Nat),
    (k < n.toNat → ((timerTick^[k]) (timerStart n)).rem.toNat = n.toNat - k ∧
      ((timerTick^[k]) (timerStart n)).active = true ∧ ((timerTick^[k]) (timerStart n)).raised = false) ∧
    (1 ≤ k → n.toNat ≤ k → (timerTick^[k]) (timerStart n) = { rem := 0, active := false, raised := true })

/-! ## The whole machine -/

/-- R46 (derived by the spec; the shape of the stores is R61, R72 and log 9, log 14): every operation keeps the
invariant, and so does every step. -/
def Obligations.EveryStepKeepsTheInvariant : Prop :=
  (∀ (i : Instr) (s t : State), s.Inv → exec i s = .next t → t.Inv) ∧
  (∀ s t : State, s.Inv → step s = .next t → t.Inv)

/-- R46, R45 (derived by the spec): the state an instance of a legal configuration is constructed in satisfies the
invariant, State.reset among them (its configuration is TC, log 4). -/
def Obligations.ConstructedStateSatisfiesTheInvariant : Prop :=
  (∀ c : Config, configOk c = true → (State.constructed c).Inv) ∧ State.reset.Inv

/-- R308, R13, R66, R304 (one mode: the spec's own decision D33; the two faults are log 12): in every state that
satisfies the invariant every well-formed operation completes, so no fault is ever raised; and in any state whatever
every operation but the two polls and NACK_IN raises none. -/
def Obligations.EveryOperationCompletes : Prop :=
  (∀ (i : Instr) (s : State), s.Inv → wellFormed i = true → ∃ t, exec i s = .next t) ∧
  (∀ (i : Instr) (s : State), i ≠ .rxPoll → i ≠ .txPoll → i ≠ .nackIn → ∀ f, exec i s ≠ .fault f)

/-- R28, R27 (derived by the spec): while a packet is held, every operation but RX_RELEASE and RESET leaves pkt_out as
it is, however many bytes arrive. -/
def Obligations.HeldPacketIsStable : Prop :=
  ∀ (i : Instr) (s t : State), s.rxState = .packetReady → i ≠ .rxRelease → i ≠ .reset → exec i s = .next t →
    pktOut t = pktOut s ∧ (pktOut t).isSome = true ∧ t.rxHdr = s.rxHdr ∧ t.rxPl = s.rxPl

/-- R26: no operation of Transmit Delivery reads or writes a register the deframer owns (whatever these hold, the
operation does the same and leaves them); no operation of the deframer touches what Transmit Delivery owns; and only
RX_POLL and RX_RELEASE write the deframer's registers, but for RESET (R340) and the countdown of rx_tmr (R273). -/
def Obligations.MachinesOwnTheirRegisters : Prop :=
  (∀ (i : Instr) (s : State) (d : DeframerRegs), ofDelivery i = true →
    exec i (s.withDeframer d) = mapNext (fun t => t.withDeframer d) (exec i s)) ∧
  (∀ (i : Instr) (s : State) (d : DeliveryRegs), ofDeframer i = true →
    exec i (s.withDelivery d) = mapNext (fun t => t.withDelivery d) (exec i s)) ∧
  (∀ (i : Instr) (s t : State), exec i s = .next t → i ≠ .rxPoll → i ≠ .rxRelease → i ≠ .reset →
    t.rxState = s.rxState ∧ t.preIdx = s.preIdx ∧ t.rxHdr = s.rxHdr ∧ t.rxPl = s.rxPl ∧
    (i ≠ .tick → t.rxTmr = s.rxTmr))

/-- R31, R30: tx_req is written only by TX_POLL in POLL_PENDING when it dequeues a request, so a resend uses the same
copy, and tx_state only by TX_POLL, ACK_IN and NACK_IN (and both by RESET, R340). -/
def Obligations.RequestIsWrittenOnlyByTheDequeue : Prop :=
  ∀ (i : Instr) (s t : State), exec i s = .next t → i ≠ .reset →
    (t.txReq ≠ s.txReq → i = .txPoll ∧ s.txState = .pollPending ∧ s.q.reqs ≠ []) ∧
    (t.txState ≠ s.txState → i = .txPoll ∨ i = .ackIn ∨ i = .nackIn)

/-- R23: rx_hdr is written only by RX_POLL in WAIT_HEADER (apart from RESET, R340), and only with a header that passed
HDR_VALID; so in WAIT_PAYLOAD, WAIT_CRC_POST and PACKET_READY it holds a valid header with a length of at most 256. -/
def Obligations.HeaderRegisterHoldsOnlyValidHeaders : Prop :=
  (∀ (i : Instr) (s t : State), exec i s = .next t → i ≠ .reset → t.rxHdr ≠ s.rxHdr →
    i = .rxPoll ∧ s.rxState = .waitHeader ∧ hdrValid s.cfg t.rxHdr = true) ∧
  (∀ s : State, s.Inv → s.rxState = .waitPayload ∨ s.rxState = .waitCrcPost ∨ s.rxState = .packetReady →
    hdrValid s.cfg s.rxHdr = true ∧ s.rxHdr.len.toNat ≤ 256)

/-- R36, R44, R301 (the table's writers; rx_overrun and err_code are the spec's own decisions D40 and D24): apart from
RESET, each flag is set and cleared only by the operations the table names, rx_overrun is never cleared, and err_code is
kept or takes one of the codes that are recorded. That a write clears no full flag needs the shape of the rings and of
the queue (R61, R72; log 14), so those two clauses are said of states that satisfy the invariant. -/
def Obligations.FlagsChangeOnlyAsTabled : Prop :=
  ∀ (i : Instr) (s t : State), exec i s = .next t → i ≠ .reset →
    (s.rxTmr.active = false → t.rxTmr.active = true → i = .rxPoll) ∧
    (s.rxTmr.active = true → t.rxTmr.active = false →
      i = .rxPoll ∨ (i = .tick ∧ s.rxTmr.rem.toNat ≤ 1 ∧ t.rxTmr.raised = true)) ∧
    (s.rxTmr.raised = false → t.rxTmr.raised = true → i = .tick ∧ s.rxTmr.active = true ∧ s.rxTmr.rem.toNat ≤ 1) ∧
    (s.rxTmr.raised = true → t.rxTmr.raised = false → i = .rxPoll) ∧
    (s.ackTmr.active = false → t.ackTmr.active = true → i = .txPoll ∨ i = .nackIn) ∧
    (s.ackTmr.active = true → t.ackTmr.active = false →
      i = .txPoll ∨ i = .ackIn ∨ i = .nackIn ∨ (i = .tick ∧ s.ackTmr.rem.toNat ≤ 1 ∧ t.ackTmr.raised = true)) ∧
    (s.ackTmr.raised = false → t.ackTmr.raised = true → i = .tick ∧ s.ackTmr.active = true ∧ s.ackTmr.rem.toNat ≤ 1) ∧
    (s.ackTmr.raised = true → t.ackTmr.raised = false → i = .txPoll ∨ i = .ackIn ∨ i = .nackIn) ∧
    (t.txNoack ≠ s.txNoack → (i = .txPoll ∨ i = .nackIn) ∧ t.txNoack = !t.txReq.ackReq) ∧
    (s.rx.ix.full = false → t.rx.ix.full = true → ∃ b, i = .rxByte b) ∧
    (s.Inv → s.rx.ix.full = true → t.rx.ix.full = false → i = .rxPoll) ∧
    (s.tx.ix.full = false → t.tx.ix.full = true → i = .txPoll ∨ i = .nackIn) ∧
    (s.tx.ix.full = true → t.tx.ix.full = false → i = .txDrain) ∧
    (s.q.ix.full = false → t.q.ix.full = true → i = .rxPoll ∨ ∃ o a h pl, i = .txEnqueue o a h pl) ∧
    (s.Inv → s.q.ix.full = true → t.q.ix.full = false → i = .txPoll) ∧
    (s.rxOverrun = true → t.rxOverrun = true) ∧
    (s.rxOverrun = false → t.rxOverrun = true → ∃ b, i = .rxByte b ∧ s.rx.ix.full = true) ∧
    (t.errCode = s.errCode ∨ t.errCode ∈ ([2, 3, 4, 5, 6, 7, 8, 9, 10, 12] : List Byte))

/-- R37 (decision D24), R239: no operation writes a configuration value or the capacity of a ring, and wire_out only
grows, by TX_DRAIN and by the byte it answers. -/
def Obligations.ConfigurationIsFixedAndTheLineOnlyGrows : Prop :=
  ∀ (i : Instr) (s t : State), s.Inv → exec i s = .next t →
    t.cfg = s.cfg ∧ t.rx.ix.cap = s.rx.ix.cap ∧ t.tx.ix.cap = s.tx.ix.cap ∧ t.q.ix.cap = s.q.ix.cap ∧
    (t.wireOut = s.wireOut ∨
      (i = .txDrain ∧ ∃ b, s.tx.contents.head? = some b ∧ t.result = .byte (some b) ∧ t.wireOut = s.wireOut ++ [b]))

/-- R60: each store is written only by the operations its row names (apart from RESET, R340): RX_PL by RX_POLL in
WAIT_PAYLOAD, the RX ring's bytes by RX_BYTE, the TX ring's bytes by TX_POLL and NACK_IN, the transmit queue by
TX_ENQUEUE and RX_POLL, and only TX_POLL takes from it. -/
def Obligations.StoresAreWrittenOnlyByTheirWriters : Prop :=
  ∀ (i : Instr) (s t : State), exec i s = .next t → i ≠ .reset →
    (t.rxPl ≠ s.rxPl → i = .rxPoll ∧ s.rxState = .waitPayload) ∧
    (t.txReq.pl ≠ s.txReq.pl → i = .txPoll ∧ s.txState = .pollPending) ∧
    (t.rx.buf ≠ s.rx.buf → ∃ b, i = .rxByte b) ∧
    (t.rx.ix ≠ s.rx.ix → i = .rxPoll ∨ ∃ b, i = .rxByte b) ∧
    (t.tx.buf ≠ s.tx.buf → i = .txPoll ∨ i = .nackIn) ∧
    (t.tx.ix ≠ s.tx.ix → i = .txPoll ∨ i = .nackIn ∨ i = .txDrain) ∧
    (t.q ≠ s.q → (i = .txPoll ∧ t.q.reqs = s.q.reqs.tail) ∨
      ((i = .rxPoll ∨ ∃ o a h pl, i = .txEnqueue o a h pl) ∧ ∃ r, t.q.reqs = s.q.reqs ++ [r]))

/-- R78 (c), R240 (d) (derived by the spec): while a request is in flight no operation but RESET takes a request from
the queue or replaces the one in flight; the queue can only gain requests at its end. -/
def Obligations.NoSecondRequestWhileOneIsInFlight : Prop :=
  ∀ (i : Instr) (s t : State), s.txState = .transmitPacket → i ≠ .reset → exec i s = .next t →
    t.txReq = s.txReq ∧ ∃ added, t.q.reqs = s.q.reqs ++ added ∧ added.length ≤ 1

/-- R240 (b) (derived by the spec; C5): while a request that needs no ACK is in flight, no operation adds a byte to the
TX ring and none aborts an attempt: the ring only drains, and the request stays in flight or completes. So it gets
exactly one attempt, whatever ACK_IN and NACK_IN occur. -/
def Obligations.NoAckRequestGetsOneAttempt : Prop :=
  ∀ (i : Instr) (s t : State), s.Inv → s.txState = .transmitPacket → s.txNoack = true → i ≠ .reset →
    exec i s = .next t →
    (t.tx.contents = s.tx.contents ∨ (i = .txDrain ∧ t.tx.contents = s.tx.contents.tail)) ∧
    (t.txState = .pollPending ∨ (t.txState = .transmitPacket ∧ t.txNoack = true ∧ t.txReq = s.txReq)) ∧
    t.txRetry = s.txRetry ∧ t.abortCnt = s.abortCnt

/-- R240 (a) (derived by the spec), from POLL_PENDING: a request that needs an ACK, with no ACK_IN and no NACK_IN and
room for every attempt, under the schedule of one TX_POLL and then T_ACK TICKs and one TX_POLL over and over with
nothing between, is sent by the first TX_POLL and then once after each T_ACK ticks, exactly MAX_RETRIES + 1 attempts in
all, and then abandoned. -/
def Obligations.UnansweredRequestGetsExactlyMaxRetriesPlusOneAttempts : Prop :=
  ∀ (s : State) (r : Request) (rest : List Request), s.Inv → s.txState = .pollPending → s.q.reqs = r :: rest →
    r.ackReq = true →
    s.tx.ix.dataLen + (s.cfg.maxRetries.toNat + 1) * (16 + r.hdr.len.toNat) ≤ s.cfg.txCap.toNat →
    ∃ t, execAll (.txPoll :: (List.replicate (s.cfg.maxRetries.toNat + 1)
        (ticks s.cfg.tAck.toNat ++ [.txPoll])).flatten) s = .next t ∧
      t.tx.contents = s.tx.contents ++
        (List.replicate (s.cfg.maxRetries.toNat + 1) (frameEncode s.cfg r.hdr r.pl)).flatten ∧
      t.txState = .pollPending ∧ t.abandonCnt = s.abandonCnt + 1 ∧ t.errCode = 9 ∧ t.q.reqs = rest ∧
      t.abortCnt = s.abortCnt

/-- R190 (a) (derived by the spec; no overrun is the premise of R350; the fit of the ACK is log 18, DEDUCED): from
WAIT_PREAMBLE with index 0, when the RX ring holds the frame of a packet with a valid header, and whatever follows it, 6
polls (7 when there is a payload) hold exactly that packet, leave what followed, and queue one ACK unless it is an
acknowledgement packet. -/
def Obligations.WholeFrameIsDeframed : Prop :=
  ∀ (s : State) (h : Header) (pl rest : List Byte), s.Inv → s.rxState = .waitPreamble → s.preIdx = 0 →
    s.rxOverrun = false → hdrValid s.cfg h = true → pl.length = h.len.toNat →
    s.rx.contents = frameEncode s.cfg h pl ++ rest →
    ∃ t, execAll (rxPolls (if h.len.toNat = 0 then 6 else 7)) s = .next t ∧
      pktOut t = some (h, pl) ∧ t.rx.contents = rest ∧ t.rxOverrun = false ∧ t.errCode = s.errCode ∧
      (isAckPkt s.cfg h = true → t.q = s.q ∧ t.dropCnt = s.dropCnt) ∧
      (isAckPkt s.cfg h = false → CtlSent s.cfg.ackType s t)

/-- R190 (b) (derived by the spec; no overrun is the premise of R350; the flush is as FLUSH_ON_TRAILER_ERROR says, D12;
the fit of the NACK is log 18, DEDUCED): the same with one bit of the checksum field flipped ends in E_BAD_CHECKSUM with
exactly one NACK, and no poll on the way holds a packet. -/
def Obligations.FlippedChecksumIsNackedOnce : Prop :=
  ∀ (s : State) (h : Header) (pl rest f : List Byte) (i j : Nat), s.Inv → s.rxState = .waitPreamble → s.preIdx = 0 →
    s.rxOverrun = false → hdrValid s.cfg h = true → pl.length = h.len.toNat → i < 4 → j < 8 →
    f = (frameEncode s.cfg h pl).set (8 + h.len.toNat + i)
        ((frameEncode s.cfg h pl).getD (8 + h.len.toNat + i) 0 ^^^ (1#8 <<< j)) →
    s.rx.contents = f ++ rest →
    (∃ t, execAll (rxPolls (if h.len.toNat = 0 then 6 else 7)) s = .next t ∧
      t.errCode = 6 ∧ t.rxState = .waitPreamble ∧ CtlSent s.cfg.nackType s t ∧
      t.rx.contents = (if s.cfg.flushOnTrailerError then [] else rest)) ∧
    (∀ k t, k ≤ (if h.len.toNat = 0 then 6 else 7) → execAll (rxPolls k) s = .next t → pktOut t = none)

/-- R29, R45, R271, 93 items 2.2 to 2.5 (any value; decisions D27, D28): two states that agree on all but what the spec
leaves unspecified or unobservable give the same observation, and every operation keeps them so: nothing unspecified is
ever seen, not the free values of RESET (log 8) nor the model's zeros (log 7, log 9). -/
def Obligations.UnspecifiedValuesAreNeverSeen : Prop :=
  (∀ s t : State, s.SameSeen t → observe s = observe t) ∧
  (∀ (i : Instr) (s t : State), s.Inv → t.Inv → s.SameSeen t → SameOutcome (exec i s) (exec i t))

/-- R343 (d), R354 (derived by the spec; a run is log 22): in a run that never releases nor resets from some point on, a
packet held there is observed unchanged for ever; in a run of an environment that meets its duties, every held packet is
freed, by an RX_RELEASE or by a RESET. -/
def Obligations.ReleasesAreWhatFreesAHeldPacket : Prop :=
  ∀ (op : Nat → Instr) (run : Nat → State) (n : Nat), IsRun op run → (run n).rxState = .packetReady →
    ((∀ m, n ≤ m → op m ≠ .rxRelease ∧ op m ≠ .reset) →
      ∀ m, n ≤ m → (run m).rxState = .packetReady ∧ (observe (run m)).pkt = (observe (run n)).pkt) ∧
    (Fair op run → ∃ m, n ≤ m ∧ (op m = .rxRelease ∨ op m = .reset) ∧ (run m).rxState = .packetReady ∧
      (observe (run (m + 1))).pkt = none)
end

