-- ==== Sys2Proof/Laws/Memory.lean ====
section
/-! SUPPORT. The laws of a byte space: reading after a write, what a write leaves alone, that every operation keeps
the canonical form and the bound, and that canonical spaces that read alike are equal. -/

namespace Sys2Proof.Machine

namespace Memory

@[simp] theorem read_nil (a : Nat) : read [] a = unlisted := rfl

theorem wfFrom_mono {lo lo' : Nat} {m : Memory} (h : wfFrom lo' m = true) (hle : lo ≤ lo') :
    wfFrom lo m = true := by
  cases m with
  | nil => rfl
  | cons c m =>
    obtain ⟨k, v⟩ := c
    simp only [wfFrom, Bool.and_eq_true, decide_eq_true_eq] at h ⊢
    exact ⟨⟨by omega, h.1.2⟩, h.2⟩

/-- Below the first listed index everything reads as unlisted. -/
theorem read_of_lt {lo a : Nat} {m : Memory} (h : wfFrom lo m = true) (ha : a < lo) : read m a = unlisted := by
  induction m generalizing lo with
  | nil => rfl
  | cons c m ih =>
    obtain ⟨k, v⟩ := c
    simp only [wfFrom, Bool.and_eq_true, decide_eq_true_eq] at h
    have hk : k ≠ a := by omega
    simp only [read, if_neg hk]
    exact ih h.2 (by omega)

/-- Read after write, the same index or another. -/
theorem read_write {lo : Nat} {m : Memory} (h : wfFrom lo m = true) (a : Nat) (b : Byte) (x : Nat) :
    read (write m a b) x = if x = a then b else read m x := by
  induction m generalizing lo with
  | nil =>
    simp only [write]
    by_cases hb : b = unlisted
    · by_cases hx : x = a <;> simp [hb, hx]
    · by_cases hx : x = a
      · simp [hb, read, hx]
      · simp [hb, read, hx, Ne.symm hx]
  | cons c m ih =>
    obtain ⟨k, v⟩ := c
    simp only [wfFrom, Bool.and_eq_true, decide_eq_true_eq] at h
    simp only [write]
    by_cases h1 : a < k
    · rw [if_pos h1]
      by_cases hb : b = unlisted
      · rw [if_pos hb]
        by_cases hx : x = a
        · have : k ≠ x := by omega
          rw [if_pos hx, hb]
          simp only [read, if_neg this]
          exact read_of_lt h.2 (by omega)
        · rw [if_neg hx]
      · rw [if_neg hb]
        by_cases hx : x = a
        · simp [read, hx]
        · rw [if_neg hx]
          simp [read, Ne.symm hx]
    · rw [if_neg h1]
      by_cases h2 : a = k
      · rw [if_pos h2]
        by_cases hb : b = unlisted
        · rw [if_pos hb]
          by_cases hx : x = a
          · rw [if_pos hx, hb]
            exact read_of_lt h.2 (by omega)
          · have : k ≠ x := by omega
            simp [hx, read, this]
        · rw [if_neg hb]
          by_cases hx : x = a
          · simp [read, hx]
          · have : k ≠ x := by omega
            simp [hx, read, this, Ne.symm hx]
      · rw [if_neg h2]
        by_cases hk : k = x
        · have : x ≠ a := by omega
          simp [read, hk, this]
        · simp only [read, if_neg hk]
          exact ih h.2

theorem wfFrom_write {lo : Nat} {m : Memory} (h : wfFrom lo m = true) (a : Nat) (b : Byte) (ha : lo ≤ a) :
    wfFrom lo (write m a b) = true := by
  induction m generalizing lo with
  | nil =>
    simp only [write]
    by_cases hb : b = unlisted
    · simp [hb, wfFrom]
    · simp [hb, wfFrom, ha]
  | cons c m ih =>
    obtain ⟨k, v⟩ := c
    have h' := h
    simp only [wfFrom, Bool.and_eq_true, decide_eq_true_eq] at h
    simp only [write]
    split
    · split
      · exact h'
      · rename_i hlt hb
        simp only [wfFrom, Bool.and_eq_true, decide_eq_true_eq]
        exact ⟨⟨ha, hb⟩, ⟨by omega, h.1.2⟩, h.2⟩
    · split
      · split
        · exact wfFrom_mono h.2 (by omega)
        · rename_i hlt heq hb
          simp only [wfFrom, Bool.and_eq_true, decide_eq_true_eq]
          exact ⟨⟨ha, hb⟩, heq ▸ h.2⟩
      · simp only [wfFrom, Bool.and_eq_true, decide_eq_true_eq]
        exact ⟨h.1, ih h.2 (by omega)⟩

/-- A write keeps the canonical form. -/
theorem wf_write {m : Memory} (h : m.wf = true) (a : Nat) (b : Byte) : (write m a b).wf = true :=
  wfFrom_write h a b (Nat.zero_le a)

theorem read_write_same {m : Memory} (h : m.wf = true) (a : Nat) (b : Byte) : read (write m a b) a = b := by
  rw [read_write h]; simp

theorem read_write_ne {m : Memory} (h : m.wf = true) {a x : Nat} (b : Byte) (hx : x ≠ a) :
    read (write m a b) x = read m x := by
  rw [read_write h]; simp [hx]

theorem below_write {m : Memory} {n : Nat} (h : m.below n = true) (a : Nat) (b : Byte) (ha : a < n) :
    (write m a b).below n = true := by
  induction m with
  | nil =>
    simp only [write]
    split <;> simp [below, ha]
  | cons c m ih =>
    obtain ⟨k, v⟩ := c
    simp only [below, List.all_cons, Bool.and_eq_true, decide_eq_true_eq] at h ih ⊢
    simp only [write]
    split
    · split
      · simp only [List.all_cons, Bool.and_eq_true, decide_eq_true_eq]
        exact h
      · simp only [List.all_cons, Bool.and_eq_true, decide_eq_true_eq]
        exact ⟨ha, h⟩
    · split
      · split
        · exact h.2
        · simp only [List.all_cons, Bool.and_eq_true, decide_eq_true_eq]
          exact ⟨ha, h.2⟩
      · simp only [List.all_cons, Bool.and_eq_true, decide_eq_true_eq]
        exact ⟨h.1, ih h.2⟩

/-- Writing a run of bytes keeps the canonical form. -/
theorem wf_writeBytes (s : List Byte) : ∀ {m : Memory} (_ : m.wf = true) (a : Nat), (writeBytes m a s).wf = true := by
  induction s with
  | nil => intro m h a; exact h
  | cons b s ih => intro m h a; exact ih (wf_write h a b) (a + 1)

theorem below_writeBytes (s : List Byte) :
    ∀ {m : Memory} {n : Nat} (_ : m.below n = true) (a : Nat) (_ : a + s.length ≤ n),
      (writeBytes m a s).below n = true := by
  induction s with
  | nil => intro m n h a _; exact h
  | cons b s ih =>
    intro m n h a hl
    simp only [List.length_cons] at hl
    exact ih (below_write h a b (by omega)) (a + 1) (by omega)

/-- Reading after a run of bytes is written: the run's byte inside it, the old byte outside. -/
theorem read_writeBytes (s : List Byte) :
    ∀ {m : Memory} (_ : m.wf = true) (a x : Nat),
      read (writeBytes m a s) x = if a ≤ x ∧ x < a + s.length then s.getD (x - a) 0 else read m x := by
  induction s with
  | nil => intro m h a x; simp [writeBytes]
  | cons b s ih =>
    intro m h a x
    simp only [writeBytes, List.length_cons]
    rw [ih (wf_write h a b) (a + 1) x, read_write h a b x]
    by_cases hx : x = a
    · subst hx
      simp
    · by_cases hin : a + 1 ≤ x ∧ x < a + 1 + s.length
      · have : x - a = (x - (a + 1)) + 1 := by omega
        rw [if_pos hin, if_pos (by omega), this]
        simp
      · rw [if_neg hin, if_neg hx, if_neg (by omega)]

@[simp] theorem length_readBytes (m : Memory) (a n : Nat) : (readBytes m a n).length = n := by simp [readBytes]

theorem readBytes_succ (m : Memory) (a n : Nat) : readBytes m a (n + 1) = read m a :: readBytes m (a + 1) n := by
  simp [readBytes, List.range'_succ]

theorem readBytes_congr {m m' : Memory} {a n : Nat} (h : ∀ x, a ≤ x → x < a + n → read m x = read m' x) :
    readBytes m a n = readBytes m' a n := by
  simp only [readBytes]
  apply List.map_congr_left
  intro x hx
  rw [List.mem_range'_1] at hx
  exact h x hx.1 hx.2

/-- What is written as a run is read back as that run. -/
theorem readBytes_writeBytes {m : Memory} (h : m.wf = true) (a : Nat) (s : List Byte) :
    readBytes (writeBytes m a s) a s.length = s := by
  apply List.ext_getElem
  · simp
  · intro i h1 h2
    simp only [readBytes, List.getElem_map, List.getElem_range', Nat.one_mul]
    rw [read_writeBytes s h, if_pos (by omega)]
    have : a + i - a = i := by omega
    simp [this, h2]

theorem wfFrom_tabulate (f : Nat → Byte) (n : Nat) : ∀ a, wfFrom a (tabulate f a n) = true := by
  induction n with
  | zero => intro a; rfl
  | succ n ih =>
    intro a
    simp only [tabulate]
    split
    · exact wfFrom_mono (ih (a + 1)) (by omega)
    · rename_i hb
      simp only [wfFrom, Bool.and_eq_true, decide_eq_true_eq]
      exact ⟨⟨le_refl a, hb⟩, ih (a + 1)⟩

theorem wf_tabulate (f : Nat → Byte) (a n : Nat) : (tabulate f a n).wf = true :=
  wfFrom_mono (wfFrom_tabulate f n a) (Nat.zero_le a)

theorem below_tabulate (f : Nat → Byte) (n : Nat) : ∀ a, (tabulate f a n).below (a + n) = true := by
  induction n with
  | zero => intro a; rfl
  | succ n ih =>
    intro a
    have h : a + (n + 1) = a + 1 + n := by omega
    simp only [tabulate]
    split
    · rw [h]; exact ih (a + 1)
    · simp only [below, List.all_cons, Bool.and_eq_true, decide_eq_true_eq]
      refine ⟨by omega, ?_⟩
      rw [h]; exact ih (a + 1)

/-- A tabulated space reads as its function inside its run. -/
theorem read_tabulate (f : Nat → Byte) (n : Nat) :
    ∀ a x, read (tabulate f a n) x = if a ≤ x ∧ x < a + n then f x else unlisted := by
  induction n with
  | zero => intro a x; simp [tabulate]
  | succ n ih =>
    intro a x
    simp only [tabulate]
    split
    · rename_i hb
      rw [ih]
      by_cases hx : x = a
      · subst hx; rw [if_neg (by omega), if_pos (by omega), hb]
      · by_cases hin : a + 1 ≤ x ∧ x < a + 1 + n
        · rw [if_pos hin, if_pos (by omega)]
        · rw [if_neg hin, if_neg (by omega)]
    · simp only [read]
      by_cases hx : a = x
      · subst hx; simp
      · rw [if_neg hx, ih]
        by_cases hin : a + 1 ≤ x ∧ x < a + 1 + n
        · rw [if_pos hin, if_pos (by omega)]
        · rw [if_neg hin, if_neg (by omega)]

theorem ext_from {lo : Nat} {m m' : Memory} (h : wfFrom lo m = true) (h' : wfFrom lo m' = true)
    (heq : ∀ x, read m x = read m' x) : m = m' := by
  induction m generalizing lo m' with
  | nil =>
    cases m' with
    | nil => rfl
    | cons c m' =>
      obtain ⟨k, v⟩ := c
      simp only [wfFrom, Bool.and_eq_true, decide_eq_true_eq] at h'
      have := heq k
      simp only [read, if_true] at this
      exact absurd this.symm h'.1.2
  | cons c m ih =>
    obtain ⟨k, v⟩ := c
    simp only [wfFrom, Bool.and_eq_true, decide_eq_true_eq] at h
    cases m' with
    | nil =>
      have := heq k
      simp only [read, if_true] at this
      exact absurd this h.1.2
    | cons c' m' =>
      obtain ⟨k', v'⟩ := c'
      simp only [wfFrom, Bool.and_eq_true, decide_eq_true_eq] at h'
      have hk := heq k
      have hk' := heq k'
      simp only [read, if_true] at hk hk'
      rcases Nat.lt_trichotomy k k' with hlt | heqk | hgt
      · rw [if_neg (by omega), read_of_lt h'.2 (by omega)] at hk
        exact absurd hk h.1.2
      · subst heqk
        simp only [if_true] at hk
        subst hk
        congr 1
        refine ih h.2 h'.2 fun x => ?_
        have hx := heq x
        simp only [read] at hx
        by_cases hkx : k = x
        · subst hkx
          rw [read_of_lt h.2 (by omega), read_of_lt h'.2 (by omega)]
        · simpa [hkx] using hx
      · rw [if_neg (by omega), read_of_lt h.2 (by omega)] at hk'
        exact absurd hk'.symm h'.1.2

/-- Two canonical spaces that read alike everywhere are the same list. -/
theorem ext_read {m m' : Memory} (h : m.wf = true) (h' : m'.wf = true) (heq : ∀ x, read m x = read m' x) : m = m' :=
  ext_from h h' heq

end Memory

/-- MemWrite answers a space exactly inside its bounds, in canonical form and inside indices 0..255. -/
theorem memWrite_spec {m m' : Memory} {a n : Nat} {s : List Byte} (hm : m.PayloadWf)
    (h : memWrite m a n s = some m') :
    m'.PayloadWf ∧ a + n ≤ maxPayload ∧ s.length = n ∧ m' = Memory.writeBytes m a s := by
  simp only [memWrite] at h
  split at h
  · rename_i hc
    injection h with h
    subst h
    exact ⟨⟨Memory.wf_writeBytes s hm.canonical a, Memory.below_writeBytes s hm.inside a (by omega)⟩, hc.1, hc.2, rfl⟩
  · cases h

/-- MemRead answers the bytes exactly inside indices 0..255. -/
theorem memRead_spec {m : Memory} {a n : Nat} {s : List Byte} (h : memRead m a n = some s) :
    a + n ≤ maxPayload ∧ s = Memory.readBytes m a n := by
  simp only [memRead] at h
  split at h
  · rename_i hc
    injection h with h
    exact ⟨hc, h.symm⟩
  · cases h

end Sys2Proof.Machine
end

