-- ==== Sys2Proof/Laws/Check.lean ====
section
/-! SUPPORT. The invariant as a test that evaluates, for witnesses on concrete states: `State.inv_of_check`. -/

namespace Sys2Proof.Machine

def Indices.check (ix : Indices) (cap : Nat) : Bool :=
  decide (ix.cap = cap) && decide (0 < cap) && decide (ix.head < cap) && decide (ix.tail < cap)
    && (!ix.full || decide (ix.head = ix.tail))

theorem Indices.wf_of_check {ix : Indices} {cap : Nat} (h : ix.check cap = true) : ix.Wf cap := by
  simp only [Indices.check, Bool.and_eq_true, decide_eq_true_eq, Bool.or_eq_true, Bool.not_eq_true'] at h
  obtain ⟨⟨⟨⟨h1, h2⟩, h3⟩, h4⟩, h5⟩ := h
  refine ⟨h1, h2, h3, h4, fun hf => ?_⟩
  rcases h5 with h5 | h5
  · rw [hf] at h5; cases h5
  · exact h5

def Ring.check (r : Ring) (cap : Nat) : Bool := r.ix.check cap && r.buf.wf && r.buf.below cap

theorem Ring.wf_of_check {r : Ring} {cap : Nat} (h : r.check cap = true) : r.Wf cap := by
  simp only [Ring.check, Bool.and_eq_true] at h
  exact ⟨Indices.wf_of_check h.1.1, h.1.2, h.2⟩

def Queue.check (q : Queue) (c : Config) : Bool :=
  q.ix.check c.txqCap.toNat && (q.reqs.all fun r => isPacket r.hdr r.pl)
    && decide ((q.reqs.map (reqSize c)).sum ≤ c.txqCap.toNat)
    && decide (q.ix.dataLen = (q.reqs.map (reqSize c)).sum)

theorem Queue.wf_of_check {q : Queue} {c : Config} (h : q.check c = true) : q.Wf c := by
  simp only [Queue.check, Bool.and_eq_true, decide_eq_true_eq, List.all_eq_true] at h
  exact ⟨Indices.wf_of_check h.1.1.1, h.1.1.2, h.1.2, h.2⟩

def TimeEvent.isStopped (t : TimeEvent) : Bool := !t.active && !t.raised

theorem TimeEvent.of_isStopped {t : TimeEvent} (h : t.isStopped = true) : t.active = false ∧ t.raised = false := by
  simpa only [TimeEvent.isStopped, Bool.and_eq_true, Bool.not_eq_true'] using h

def Memory.payloadCheck (m : Memory) : Bool := m.wf && m.below maxPayload

theorem Memory.payloadWf_of_check {m : Memory} (h : m.payloadCheck = true) : m.PayloadWf := by
  simp only [Memory.payloadCheck, Bool.and_eq_true] at h
  exact ⟨h.1, h.2⟩

/-- `p` is tested only where `b` holds. -/
def whenever (b p : Bool) : Bool := !b || p

theorem of_whenever {b p : Bool} (h : whenever b p = true) (hb : b = true) : p = true := by
  simpa only [whenever, hb, Bool.not_true, Bool.false_or] using h

/-- The tests of the deframer's part of the invariant. -/
def State.checkRx (s : State) : Bool :=
  (decide (s.rxState = .waitPreamble) || decide (s.preIdx = 0))
    && whenever (holdsHeader s.rxState) (hdrValid s.cfg s.rxHdr)
    && whenever (decide (s.rxState = .waitPayload)) (decide (1 ≤ s.rxHdr.len.toNat))
    && whenever (timerStopped s.rxState) s.rxTmr.isStopped
    && s.rx.check s.cfg.rxCap.toNat && s.rxPl.payloadCheck

/-- The tests of Transmit Delivery's part of the invariant. -/
def State.checkTx (s : State) : Bool :=
  whenever (decide (s.txState = .pollPending)) s.ackTmr.isStopped
    && whenever (decide (s.txState = .transmitPacket))
        (decide (s.txRetry ≤ s.cfg.maxRetries) && decide (s.txReq.hdr.len.toNat ≤ maxPayload))
    && s.tx.check s.cfg.txCap.toNat && s.q.check s.cfg && s.txReq.pl.payloadCheck

/-- The whole test. -/
def State.check (s : State) : Bool := configOk s.cfg && s.checkRx && s.checkTx

/-- A state that passes the test satisfies the invariant. -/
theorem State.inv_of_check {s : State} (h : s.check = true) : s.Inv := by
  simp only [State.check, State.checkRx, State.checkTx, Bool.and_eq_true] at h
  obtain ⟨⟨h0, ⟨⟨⟨⟨⟨h1, h2⟩, h3⟩, h4⟩, h5⟩, h6⟩⟩, ⟨⟨⟨⟨h7, h8⟩, h9⟩, h10⟩, h11⟩⟩ := h
  constructor
  · exact h0
  · intro hx
    rw [Bool.or_eq_true, decide_eq_true_eq, decide_eq_true_eq] at h1
    exact h1.resolve_left hx
  · exact of_whenever h2
  · exact fun hx => of_decide_eq_true (of_whenever h3 (decide_eq_true hx))
  · exact fun hx => TimeEvent.of_isStopped (of_whenever h4 hx)
  · exact fun hx => TimeEvent.of_isStopped (of_whenever h7 (decide_eq_true hx))
  · intro hx
    have := of_whenever h8 (decide_eq_true hx)
    rw [Bool.and_eq_true] at this
    exact of_decide_eq_true this.1
  · intro hx
    have := of_whenever h8 (decide_eq_true hx)
    rw [Bool.and_eq_true] at this
    exact of_decide_eq_true this.2
  · exact Ring.wf_of_check h5
  · exact Ring.wf_of_check h9
  · exact Queue.wf_of_check h10
  · exact Memory.payloadWf_of_check h6
  · exact Memory.payloadWf_of_check h11

end Sys2Proof.Machine
end

