-- ==== Sys2Proof/Laws/Ring.lean ====
section
/-! SUPPORT. The laws of a ring: its indices (R61, R62), and that put, take, append and clear act on its contents as a
bounded FIFO (R64 to R71, R78 (a)). -/

namespace Sys2Proof.Machine

namespace Indices

variable {ix : Indices} {cap : Nat}

/-- R62 without the modulus. -/
theorem dataLen_eq (h : ix.Wf cap) :
    ix.dataLen = if ix.full then cap else if ix.tail ≤ ix.head then ix.head - ix.tail
      else ix.head + cap - ix.tail := by
  obtain ⟨hc, hp, hh, ht, hf⟩ := h
  subst hc
  simp only [dataLen]
  split
  · rfl
  · split
    · have : ix.head + ix.cap - ix.tail = ix.head - ix.tail + ix.cap := by omega
      rw [this, Nat.add_mod_right, Nat.mod_eq_of_lt (by omega)]
    · rw [Nat.mod_eq_of_lt (by omega)]

theorem dataLen_le (h : ix.Wf cap) : ix.dataLen ≤ cap := by
  have := h.head_lt
  have := h.tail_lt
  rw [dataLen_eq h]
  split
  · omega
  · split <;> omega

theorem dataLen_add_freeSpace (h : ix.Wf cap) : ix.dataLen + ix.freeSpace = cap := by
  have := dataLen_le h
  have := h.cap_eq
  simp only [freeSpace]
  omega

/-- R36: the full flag is set exactly when the ring holds its capacity. -/
theorem full_iff (h : ix.Wf cap) : ix.full = true ↔ ix.dataLen = cap := by
  have h1 := h.head_lt
  have h2 := h.tail_lt
  rw [dataLen_eq h]
  cases hf : ix.full
  · simp only [Bool.false_eq_true, if_false, false_iff]
    split <;> omega
  · simp

theorem step_eq {i n : Nat} (hc : ix.cap = cap) (hi : i < cap) (hn : n ≤ cap) :
    ix.step i n = if i + n < cap then i + n else i + n - cap := by
  subst hc
  simp only [step]
  split
  · exact Nat.mod_eq_of_lt (by omega)
  · have : i + n = i + n - ix.cap + ix.cap := by omega
    rw [this, Nat.add_mod_right, Nat.mod_eq_of_lt (by omega)]
    omega

theorem step_lt {i n : Nat} (hc : ix.cap = cap) (hp : 0 < cap) : ix.step i n < cap := by
  subst hc; exact Nat.mod_lt _ hp

theorem Wf.empty {n : Nat} (hn : 0 < n) : (Indices.empty n).Wf n := ⟨rfl, hn, hn, hn, fun _ => rfl⟩

@[simp] theorem dataLen_empty (n : Nat) : (Indices.empty n).dataLen = 0 := by simp [Indices.empty, dataLen]

theorem Wf.clear (h : ix.Wf cap) : ix.clear.Wf cap := ⟨h.cap_eq, h.cap_pos, h.cap_pos, h.cap_pos, fun _ => rfl⟩

@[simp] theorem dataLen_clear (ix : Indices) : ix.clear.dataLen = 0 := by simp [clear, dataLen]

theorem Wf.put (h : ix.Wf cap) : ix.put.Wf cap := by
  refine ⟨h.cap_eq, h.cap_pos, step_lt h.cap_eq h.cap_pos, ?_, ?_⟩
  · simp only [Indices.put]
    split
    · exact step_lt h.cap_eq h.cap_pos
    · exact h.tail_lt
  · simp only [Indices.put, decide_eq_true_eq]
    exact id

theorem dataLen_put (h : ix.Wf cap) : ix.put.dataLen = if ix.full then cap else ix.dataLen + 1 := by
  have h1 := h.head_lt
  have h2 := h.tail_lt
  have hp := h.cap_pos
  have hs := step_eq (n := 1) h.cap_eq h.head_lt (by omega)
  cases hf : ix.full
  · rw [dataLen_eq h.put, dataLen_eq h]
    simp only [Indices.put, hf, Bool.false_eq_true, if_false, hs, decide_eq_true_eq]
    by_cases hw : ix.head + 1 < cap
    · simp only [hw, if_true]
      by_cases ha : ix.head + 1 = ix.tail
      · rw [if_pos ha, if_neg (by omega)]; omega
      · rw [if_neg ha]
        by_cases hb : ix.tail ≤ ix.head
        · rw [if_pos (by omega), if_pos hb]; omega
        · rw [if_neg (by omega), if_neg hb]; omega
    · simp only [hw, if_false]
      by_cases ha : ix.head + 1 - cap = ix.tail
      · rw [if_pos ha, if_pos (by omega)]; omega
      · rw [if_neg ha, if_neg (by omega), if_pos (by omega)]; omega
  · have heq := h.full_eq hf
    rw [dataLen_eq h.put]
    simp [Indices.put, hf, heq]

theorem Wf.drop1 (h : ix.Wf cap) : ix.drop1.Wf cap :=
  ⟨h.cap_eq, h.cap_pos, h.head_lt, step_lt h.cap_eq h.cap_pos, fun hf => by simp [Indices.drop1] at hf⟩

theorem dataLen_drop1 (h : ix.Wf cap) (hn : 1 ≤ ix.dataLen) : ix.drop1.dataLen = ix.dataLen - 1 := by
  have h1 := h.head_lt
  have h2 := h.tail_lt
  have hp := h.cap_pos
  have hs := step_eq (n := 1) h.cap_eq h.tail_lt (by omega)
  rw [dataLen_eq h] at hn
  rw [dataLen_eq h.drop1, dataLen_eq h]
  have hfull := h.full_eq
  simp only [Indices.drop1, hs, Bool.false_eq_true, if_false]
  cases hf : ix.full
  · simp only [hf, Bool.false_eq_true, if_false] at hn ⊢
    by_cases hw : ix.tail + 1 < cap
    · simp only [hw, if_true]
      by_cases hb : ix.tail ≤ ix.head
      · rw [if_pos hb] at hn; rw [if_pos hb, if_pos (by omega)]; omega
      · rw [if_neg hb, if_neg (by omega)]; omega
    · simp only [hw, if_false]
      by_cases hb : ix.tail ≤ ix.head
      · rw [if_pos hb] at hn; omega
      · rw [if_neg hb, if_pos (by omega)]; omega
  · have heq := hfull hf
    simp only [if_true]
    by_cases hw : ix.tail + 1 < cap
    · simp only [hw, if_true]
      rw [if_neg (by omega)]; omega
    · simp only [hw, if_false]
      rw [if_pos (by omega)]; omega

theorem Wf.push (h : ix.Wf cap) (n : Nat) : (ix.push n).Wf cap :=
  ⟨h.cap_eq, h.cap_pos, step_lt h.cap_eq h.cap_pos, h.tail_lt, by simp only [Indices.push, decide_eq_true_eq]; exact id⟩

/-- R72, R69: a write of `n` bytes that fits adds `n` to the length. -/
theorem dataLen_push (h : ix.Wf cap) {n : Nat} (hn : 1 ≤ n) (hfit : ix.dataLen + n ≤ cap) :
    (ix.push n).dataLen = ix.dataLen + n := by
  have h1 := h.head_lt
  have h2 := h.tail_lt
  have hs := step_eq (n := n) h.cap_eq h.head_lt (by omega)
  rw [dataLen_eq h] at hfit
  rw [dataLen_eq (h.push n), dataLen_eq h]
  simp only [Indices.push, hs, decide_eq_true_eq]
  cases hf : ix.full
  · simp only [hf, Bool.false_eq_true, if_false] at hfit ⊢
    by_cases hb : ix.tail ≤ ix.head
    · simp only [hb, if_true] at hfit ⊢
      by_cases hw : ix.head + n < cap
      · simp only [hw, if_true]
        rw [if_neg (by omega), if_pos (by omega)]; omega
      · simp only [hw, if_false]
        by_cases ha : ix.head + n - cap = ix.tail
        · rw [if_pos ha]; omega
        · rw [if_neg ha, if_neg (by omega)]; omega
    · simp only [hb, if_false] at hfit ⊢
      have hw : ix.head + n < cap := by omega
      simp only [hw, if_true]
      by_cases ha : ix.head + n = ix.tail
      · rw [if_pos ha]; omega
      · rw [if_neg ha, if_neg (by omega)]; omega
  · simp only [hf, if_true] at hfit
    omega

theorem Wf.pull (h : ix.Wf cap) (n : Nat) : (ix.pull n).Wf cap :=
  ⟨h.cap_eq, h.cap_pos, h.head_lt, step_lt h.cap_eq h.cap_pos, fun hf => by simp [Indices.pull] at hf⟩

/-- R72, R66: a read of `n` bytes that are held takes `n` from the length. -/
theorem dataLen_pull (h : ix.Wf cap) {n : Nat} (hn : 1 ≤ n) (hle : n ≤ ix.dataLen) :
    (ix.pull n).dataLen = ix.dataLen - n := by
  have h1 := h.head_lt
  have h2 := h.tail_lt
  have hcap := dataLen_le h
  have hs := step_eq (n := n) h.cap_eq h.tail_lt (by omega)
  have hfull := h.full_eq
  rw [dataLen_eq h] at hle
  rw [dataLen_eq (h.pull n), dataLen_eq h]
  simp only [Indices.pull, hs, Bool.false_eq_true, if_false]
  cases hf : ix.full
  · simp only [hf, Bool.false_eq_true, if_false] at hle ⊢
    by_cases hb : ix.tail ≤ ix.head
    · simp only [hb, if_true] at hle ⊢
      have hw : ix.tail + n < cap := by omega
      simp only [hw, if_true]
      rw [if_pos (by omega)]; omega
    · simp only [hb, if_false] at hle ⊢
      by_cases hw : ix.tail + n < cap
      · simp only [hw, if_true]
        rw [if_neg (by omega)]; omega
      · simp only [hw, if_false]
        rw [if_pos (by omega)]; omega
  · have heq := hfull hf
    simp only [hf, if_true] at hle
    simp only [if_true]
    by_cases hw : ix.tail + n < cap
    · simp only [hw, if_true]
      rw [if_neg (by omega)]; omega
    · simp only [hw, if_false]
      rw [if_pos (by omega)]; omega

end Indices

namespace Ring

variable {r : Ring} {cap : Nat}

/-- The byte `i` places after the oldest. -/
def at_ (r : Ring) (i : Nat) : Byte := Memory.read r.buf ((r.ix.tail + i) % r.ix.cap)

theorem length_take (n : Nat) : ∀ r : Ring, (take n r).1.length = n := by
  induction n with
  | zero => intro r; rfl
  | succ n ih => intro r; simp [take, ih]

@[simp] theorem length_contents (r : Ring) : r.contents.length = r.ix.dataLen := length_take _ r

@[simp] theorem take_buf (n : Nat) : ∀ r : Ring, (take n r).2.buf = r.buf := by
  induction n with
  | zero => intro r; rfl
  | succ n ih => intro r; simp [take, ih]

theorem take_fst (n : Nat) :
    ∀ {r : Ring}, r.ix.tail < r.ix.cap → (take n r).1 = (List.range n).map r.at_ := by
  induction n with
  | zero => intro r _; rfl
  | succ n ih =>
    intro r ht
    have hp : 0 < r.ix.cap := by omega
    simp only [take, List.range_succ_eq_map, List.map_cons, List.map_map]
    rw [ih (r := { r with ix := r.ix.drop1 }) (Nat.mod_lt _ hp)]
    congr 1
    · simp [at_, Nat.mod_eq_of_lt ht]
    · apply List.map_congr_left
      intro i _
      simp only [at_, Function.comp, Indices.drop1, Indices.step]
      rw [Nat.mod_add_mod]
      congr 2
      omega

theorem contents_eq (h : r.ix.Wf cap) : r.contents = (List.range r.ix.dataLen).map r.at_ :=
  take_fst _ (by have := h.tail_lt; have := h.cap_eq; omega)

theorem Wf.take (n : Nat) : ∀ {r : Ring}, r.Wf cap → (take n r).2.Wf cap := by
  induction n with
  | zero => intro r h; exact h
  | succ n ih => intro r h; exact ih ⟨h.ix.drop1, h.canonical, h.inside⟩

/-- R66: taking at least one byte moves the tail, clears the full flag and stores nothing. -/
theorem take_snd (n : Nat) : ∀ r : Ring, (Ring.take (n + 1) r).2 = consumed (n + 1) r := by
  induction n with
  | zero => intro r; rfl
  | succ n ih =>
    intro r
    have := ih { r with ix := r.ix.drop1 }
    rw [Ring.take, this]
    simp only [consumed, Indices.drop1, Indices.step, Nat.mod_add_mod]
    rw [show r.ix.tail + 1 + (n + 1) = r.ix.tail + (n + 1 + 1) by omega]

theorem dataLen_take (n : Nat) :
    ∀ {r : Ring}, r.ix.Wf cap → n ≤ r.ix.dataLen → (Ring.take n r).2.ix.dataLen = r.ix.dataLen - n := by
  induction n with
  | zero => intro r _ _; rfl
  | succ n ih =>
    intro r h hn
    have hd := Indices.dataLen_drop1 h (by omega)
    simp only [Ring.take]
    rw [ih (r := { r with ix := r.ix.drop1 }) h.drop1 (by simp only; omega)]
    simp only [hd]
    omega

theorem contents_cons (h : r.ix.Wf cap) (hn : 1 ≤ r.ix.dataLen) :
    r.contents = Memory.read r.buf r.ix.tail :: Ring.contents { r with ix := r.ix.drop1 } := by
  have hd := Indices.dataLen_drop1 h hn
  obtain ⟨k, hk⟩ : ∃ k, r.ix.dataLen = k + 1 := ⟨r.ix.dataLen - 1, by omega⟩
  simp only [contents, hk, Ring.take]
  rw [show r.ix.drop1.dataLen = k by omega]

/-- R66, R78 (a): taking `n` bytes gives the oldest `n` and leaves the rest, in order. -/
theorem take_spec (n : Nat) :
    ∀ {r : Ring}, r.ix.Wf cap → n ≤ r.ix.dataLen →
      (Ring.take n r).1 = r.contents.take n ∧ (Ring.take n r).2.contents = r.contents.drop n := by
  induction n with
  | zero => intro r _ _; simp [Ring.take]
  | succ n ih =>
    intro r h hn
    have hd := Indices.dataLen_drop1 h (by omega)
    obtain ⟨h1, h2⟩ := ih (r := { r with ix := r.ix.drop1 }) h.drop1 (by simp only; omega)
    rw [contents_cons h (by omega)]
    simp only [Ring.take, List.take_succ_cons, List.drop_succ_cons]
    exact ⟨by rw [h1], h2⟩

/-- R66: a read answers exactly when enough bytes are held, and then takes the oldest. -/
theorem read_spec (h : r.ix.Wf cap) {n : Nat} {bs : List Byte} {r' : Ring} (hr : r.read n = some (bs, r')) :
    n ≤ r.ix.dataLen ∧ bs = r.contents.take n ∧ r'.contents = r.contents.drop n ∧
      r'.ix.dataLen = r.ix.dataLen - n ∧ r'.buf = r.buf ∧ r' = (Ring.take n r).2 := by
  simp only [Ring.read] at hr
  split at hr
  · cases hr
  · rename_i hn
    have hn' : n ≤ r.ix.dataLen := by omega
    rw [Option.some.injEq] at hr
    have h1 : bs = (Ring.take n r).1 := by rw [hr]
    have h2 : r' = (Ring.take n r).2 := by rw [hr]
    subst h1 h2
    obtain ⟨ha, hb⟩ := take_spec n h hn'
    exact ⟨hn', ha, hb, dataLen_take n h hn', take_buf n r, rfl⟩

theorem read_of_le {n : Nat} (hn : n ≤ r.ix.dataLen) : r.read n = some (Ring.take n r) := by
  simp [Ring.read, Nat.not_lt.mpr hn]

theorem Wf.put (h : r.Wf cap) (b : Byte) : (r.put b).Wf cap :=
  ⟨h.ix.put, Memory.wf_write h.canonical _ b, Memory.below_write h.inside _ b h.ix.head_lt⟩

theorem mod_inj {cap a b : Nat} (t : Nat) (ha : a < cap) (hb : b < cap) (h : (t + a) % cap = (t + b) % cap) :
    a = b := by
  have := Nat.ModEq.add_left_cancel' t h
  simpa [Nat.ModEq, Nat.mod_eq_of_lt ha, Nat.mod_eq_of_lt hb] using this

/-- The head is the place of the next byte. -/
theorem head_eq (h : r.ix.Wf cap) : r.ix.head = (r.ix.tail + r.ix.dataLen) % cap := by
  have h1 := h.head_lt
  have h2 := h.tail_lt
  rw [Indices.dataLen_eq h]
  cases hf : r.ix.full
  · simp only [Bool.false_eq_true, if_false]
    split
    · rw [show r.ix.tail + (r.ix.head - r.ix.tail) = r.ix.head by omega, Nat.mod_eq_of_lt h1]
    · rw [show r.ix.tail + (r.ix.head + cap - r.ix.tail) = r.ix.head + cap by omega, Nat.add_mod_right,
        Nat.mod_eq_of_lt h1]
  · simp only [if_true, Nat.add_mod_right, Nat.mod_eq_of_lt h2]
    exact h.full_eq hf

/-- R64: a put on a ring that is not full appends the byte. -/
theorem contents_put_of_not_full (h : r.Wf cap) (hf : r.ix.full = false) (b : Byte) :
    (r.put b).contents = r.contents ++ [b] := by
  have hlen : r.ix.dataLen < cap := by
    have := Indices.dataLen_le h.ix
    have := (Indices.full_iff h.ix).not
    simp only [hf, Bool.false_eq_true, not_false_eq_true, true_iff] at this
    omega
  have hd := Indices.dataLen_put h.ix
  simp only [hf, Bool.false_eq_true, if_false] at hd
  rw [contents_eq (h.put b).ix, contents_eq h.ix]
  have : (r.put b).ix.dataLen = r.ix.dataLen + 1 := hd
  rw [this, List.range_succ, List.map_append]
  have hcap := h.ix.cap_eq
  have hhead := head_eq h.ix
  congr 1
  · apply List.map_congr_left
    intro i hi
    rw [List.mem_range] at hi
    simp only [at_, Ring.put, Indices.put, hf, Bool.false_eq_true, if_false]
    rw [Memory.read_write_ne h.canonical]
    rw [hhead, hcap]
    intro heq
    have := mod_inj _ (by omega) hlen heq
    omega
  · simp only [List.map_cons, List.map_nil, at_, Ring.put, Indices.put, hf, Bool.false_eq_true, if_false]
    rw [hcap, ← hhead, Memory.read_write_same h.canonical]

/-- R64: a put on a full ring drops the oldest byte and appends the new one. -/
theorem contents_put_of_full (h : r.Wf cap) (hf : r.ix.full = true) (b : Byte) :
    (r.put b).contents = r.contents.tail ++ [b] := by
  have hdl : r.ix.dataLen = cap := (Indices.full_iff h.ix).mp hf
  have hp := h.ix.cap_pos
  have h2 := h.ix.tail_lt
  have hcap := h.ix.cap_eq
  have hhead : r.ix.head = r.ix.tail := h.ix.full_eq hf
  have hd := Indices.dataLen_put h.ix
  simp only [hf, if_true] at hd
  obtain ⟨k, hk⟩ : ∃ k, cap = k + 1 := ⟨cap - 1, by omega⟩
  have hnew : (r.put b).contents = (List.range k).map (r.put b).at_ ++ [(r.put b).at_ k] := by
    rw [contents_eq (h.put b).ix, show (r.put b).ix.dataLen = k + 1 from hd.trans hk, List.range_succ,
      List.map_append]
    rfl
  have hold : r.contents.tail = (List.range k).map (fun i => r.at_ (i + 1)) := by
    rw [contents_eq h.ix, hdl, hk, List.range_succ_eq_map, List.map_cons, List.tail_cons, List.map_map]
    rfl
  rw [hnew, hold]
  have htail : (r.put b).ix.tail = (r.ix.tail + 1) % cap := by simp [Ring.put, Indices.put, hf, Indices.step, hcap]
  have hput : ∀ i, (r.put b).at_ i = Memory.read (Memory.write r.buf r.ix.head b) ((r.ix.tail + 1 + i) % cap) := by
    intro i
    simp only [at_, htail]
    rw [show (r.put b).ix.cap = cap from hcap, Nat.mod_add_mod]
    rfl
  congr 1
  · apply List.map_congr_left
    intro i hi
    rw [List.mem_range] at hi
    rw [hput, Memory.read_write_ne h.canonical]
    · simp only [at_, hcap]
      congr 2
      omega
    · rw [hhead]
      intro heq
      have : (r.ix.tail + (1 + i)) % cap = (r.ix.tail + 0) % cap := by
        rw [← Nat.add_assoc, heq, Nat.add_zero, Nat.mod_eq_of_lt h2]
      have := mod_inj _ (by omega) hp this
      omega
  · rw [hput, show r.ix.tail + 1 + k = r.ix.tail + cap by omega, Nat.add_mod_right, Nat.mod_eq_of_lt h2, ← hhead,
      Memory.read_write_same h.canonical]

theorem grow_ix (s : List Byte) :
    ∀ r : Ring, (grow s r).ix.cap = r.ix.cap ∧ (grow s r).ix.tail = r.ix.tail := by
  induction s with
  | nil => intro r; exact ⟨rfl, rfl⟩
  | cons b s ih => intro r; exact ih _

theorem grow_head (s : List Byte) :
    ∀ {r : Ring}, r.ix.head < r.ix.cap → (grow s r).ix.head = (r.ix.head + s.length) % r.ix.cap := by
  induction s with
  | nil => intro r h; simp [grow, Nat.mod_eq_of_lt h]
  | cons b s ih =>
    intro r h
    simp only [grow, List.length_cons]
    rw [ih (r := { ix := r.ix.grow1, buf := _ }) (Nat.mod_lt _ (by omega))]
    simp only [Indices.grow1, Indices.step]
    rw [Nat.mod_add_mod]
    congr 1
    omega

theorem grow_wf (s : List Byte) :
    ∀ {r : Ring}, r.buf.wf = true → r.buf.below r.ix.cap = true → r.ix.head < r.ix.cap →
      (grow s r).buf.wf = true ∧ (grow s r).buf.below r.ix.cap = true := by
  induction s with
  | nil => intro r h h' _; exact ⟨h, h'⟩
  | cons b s ih =>
    intro r h h' hh
    exact ih (r := { ix := r.ix.grow1, buf := _ }) (Memory.wf_write h _ b) (Memory.below_write h' _ b hh)
      (Nat.mod_lt _ (by omega))

/-- R69: the storage after a write: the byte written at each place after the head, the old byte elsewhere. -/
theorem grow_read (s : List Byte) :
    ∀ {r : Ring}, r.buf.wf = true → r.ix.head < r.ix.cap → s.length ≤ r.ix.cap →
      (∀ i, i < s.length → Memory.read (grow s r).buf ((r.ix.head + i) % r.ix.cap) = s.getD i 0) ∧
      (∀ x, (∀ i, i < s.length → x ≠ (r.ix.head + i) % r.ix.cap) →
        Memory.read (grow s r).buf x = Memory.read r.buf x) := by
  induction s with
  | nil => intro r _ _ _; exact ⟨fun i hi => absurd hi (by simp), fun x _ => rfl⟩
  | cons b s ih =>
    intro r h hh hl
    simp only [List.length_cons] at hl
    have hpos : 0 < r.ix.cap := by omega
    obtain ⟨h1, h2⟩ := ih (r := { ix := r.ix.grow1, buf := Memory.write r.buf r.ix.head b })
      (Memory.wf_write h _ b) (Nat.mod_lt _ hpos) (by simp only [Indices.grow1]; omega)
    simp only [Indices.grow1, Indices.step, Nat.mod_add_mod] at h1 h2
    constructor
    · intro i hi
      simp only [List.length_cons] at hi
      cases i with
      | zero =>
        simp only [grow, Nat.add_zero, Nat.mod_eq_of_lt hh]
        rw [show (r.ix.grow1) = { r.ix with head := (r.ix.head + 1) % r.ix.cap } from rfl, h2]
        · simp [Memory.read_write_same h]
        · intro j hj heq
          have : (r.ix.head + 0) % r.ix.cap = (r.ix.head + (1 + j)) % r.ix.cap := by
            rw [Nat.add_zero, Nat.mod_eq_of_lt hh, heq]
            congr 1
            omega
          have := mod_inj _ hpos (by omega) this
          omega
      | succ i =>
        have := h1 i (by omega)
        rw [show r.ix.head + 1 + i = r.ix.head + (i + 1) by omega] at this
        simpa [grow, Indices.grow1, Indices.step] using this
    · intro x hx
      have hx0 := hx 0 (by simp)
      rw [Nat.add_zero, Nat.mod_eq_of_lt hh] at hx0
      simp only [grow]
      rw [show (r.ix.grow1) = { r.ix with head := (r.ix.head + 1) % r.ix.cap } from rfl, h2 x]
      · exact Memory.read_write_ne h b hx0
      · intro i hi
        have := hx (i + 1) (by simp; omega)
        rw [show r.ix.head + 1 + i = r.ix.head + (i + 1) by omega]
        exact this

theorem Wf.append (h : r.Wf cap) (s : List Byte) : (r.append s).Wf cap := by
  have hc := h.ix.cap_eq
  have hh := h.ix.head_lt
  have ht := h.ix.tail_lt
  have hp := h.ix.cap_pos
  obtain ⟨hg1, hg2⟩ := grow_ix s r
  have hb := grow_wf s h.canonical (hc ▸ h.inside) (by omega)
  refine ⟨⟨?_, hp, ?_, ?_, ?_⟩, hb.1, ?_⟩
  · simp only [Ring.append, Indices.setFull, hg1, hc]
  · simp only [Ring.append, Indices.setFull]
    rw [grow_head s (by omega), hc]
    exact Nat.mod_lt _ hp
  · simp only [Ring.append, Indices.setFull, hg2]
    exact ht
  · simp only [Ring.append, Indices.setFull, decide_eq_true_eq]
    exact id
  · rw [← hc]; exact hb.2

/-- R69: a non-empty write that fits leaves the indices of one push. -/
theorem append_ix (h : r.ix.Wf cap) (s : List Byte) : (r.append s).ix = r.ix.push s.length := by
  have hc := h.cap_eq
  have hh := h.head_lt
  obtain ⟨hg1, hg2⟩ := grow_ix s r
  have hg3 := grow_head s (r := r) (by omega)
  have hcap : (r.append s).ix.cap = (r.ix.push s.length).cap := hg1
  have hhead : (r.append s).ix.head = (r.ix.push s.length).head := hg3
  have htail : (r.append s).ix.tail = (r.ix.push s.length).tail := hg2
  have hfull : (r.append s).ix.full = (r.ix.push s.length).full := by
    simp only [Ring.append, Indices.setFull, Indices.push, hg3, hg2, Indices.step]
    rfl
  cases hA : (r.append s).ix
  cases hB : r.ix.push s.length
  simp_all

theorem dataLen_append (h : r.ix.Wf cap) {s : List Byte} (hn : 1 ≤ s.length)
    (hfit : r.ix.dataLen + s.length ≤ cap) : (r.append s).ix.dataLen = r.ix.dataLen + s.length := by
  rw [append_ix h, Indices.dataLen_push h hn hfit]

/-- R69, R78 (a): a write that fits appends its bytes, in order. -/
theorem contents_append (h : r.Wf cap) {s : List Byte} (hn : 1 ≤ s.length)
    (hfit : r.ix.dataLen + s.length ≤ cap) : (r.append s).contents = r.contents ++ s := by
  have hc := h.ix.cap_eq
  have hh := h.ix.head_lt
  have hd := dataLen_append h.ix hn hfit
  have hhead := head_eq h.ix
  obtain ⟨hg1, hg2⟩ := grow_ix s r
  obtain ⟨h1, h2⟩ := grow_read s (r := r) h.canonical (by omega) (by omega)
  have hat : ∀ i, (r.append s).at_ i = Memory.read (grow s r).buf ((r.ix.tail + i) % cap) := by
    intro i
    simp only [at_, append, Indices.setFull, hg1, hg2, hc]
  apply List.ext_getElem
  · simp [hd]
  · intro i hi1 hi2
    simp only [length_contents, hd] at hi1
    have e1 : (r.append s).contents[i]'(by simpa [hd] using hi1) = (r.append s).at_ i := by
      simp [contents_eq (h.append s).ix]
    rw [e1, hat]
    by_cases hlt : i < r.ix.dataLen
    · rw [List.getElem_append_left (by simpa using hlt)]
      have e2 : r.contents[i]'(by simpa using hlt) = r.at_ i := by simp [contents_eq h.ix]
      rw [e2, h2]
      · simp [at_, hc]
      · intro j hj heq
        rw [hc, hhead, Nat.mod_add_mod, Nat.add_assoc] at heq
        have := mod_inj _ (by omega) (by omega) heq
        omega
    · rw [List.getElem_append_right (by simpa using hlt)]
      have := h1 (i - r.ix.dataLen) (by omega)
      rw [hc, hhead, Nat.mod_add_mod, Nat.add_assoc, show r.ix.dataLen + (i - r.ix.dataLen) = i by omega] at this
      rw [this]
      simp only [length_contents]
      rw [List.getD_eq_getElem _ _ (by omega)]

theorem Wf.clear (h : r.Wf cap) : r.clear.Wf cap := ⟨h.ix.clear, h.canonical, h.inside⟩

@[simp] theorem contents_clear (r : Ring) : r.clear.contents = [] := by
  apply List.eq_nil_of_length_eq_zero
  simp [Ring.clear]

theorem Wf.init {n : Nat} (hn : 0 < n) {m : Memory} (h : m.wf = true) (h' : m.below n = true) :
    (ringInit n m).Wf n := ⟨Indices.Wf.empty hn, h, h'⟩

@[simp] theorem contents_init (n : Nat) (m : Memory) : (ringInit n m).contents = [] := by
  apply List.eq_nil_of_length_eq_zero
  simp [ringInit]

/-- R69: a write answers OK exactly when its bytes fit. -/
theorem writeResult_ok_iff (h : r.ix.Wf cap) (s : List Byte) :
    r.writeResult s = .ok ↔ r.ix.dataLen + s.length ≤ cap := by
  have hle := Indices.dataLen_le h
  have hfree := Indices.dataLen_add_freeSpace h
  have hfull := Indices.full_iff h
  simp only [writeResult]
  split
  · simp; omega
  · split
    · rename_i hf
      rw [hfull] at hf
      simp; omega
    · split
      · simp; omega
      · simp; omega

/-- R69: all or nothing. -/
theorem write_spec (h : r.Wf cap) (s : List Byte) :
    (r.write s).Wf cap ∧
      (r.ix.dataLen + s.length ≤ cap → (r.write s).contents = r.contents ++ s) ∧
      (¬ r.ix.dataLen + s.length ≤ cap → r.write s = r) := by
  have hok := writeResult_ok_iff h.ix s
  simp only [write]
  split
  · rename_i h0
    have : s = [] := List.eq_nil_of_length_eq_zero h0
    subst this
    exact ⟨h, fun _ => by simp, fun _ => rfl⟩
  · split
    · rename_i hr
      exact ⟨h.append s, fun hfit => contents_append h (by omega) hfit, fun hn => absurd (hok.mp hr) hn⟩
    · rename_i hr
      exact ⟨h, fun hfit => absurd (hok.mpr hfit) hr, fun _ => rfl⟩

end Ring

end Sys2Proof.Machine
end

