-- ==== Sys2Proof/Laws/State.lean ====
section
/-! SUPPORT. One lemma for each field after each named update of the state, so that no proof unfolds a record update. -/

namespace Sys2Proof.Machine

section setErr_fields
variable (e : Err) (s : State)

@[simp] theorem setErr_cfg : (setErr e s).cfg = s.cfg := rfl
@[simp] theorem setErr_built : (setErr e s).built = s.built := rfl
@[simp] theorem setErr_inbox : (setErr e s).inbox = s.inbox := rfl
@[simp] theorem setErr_result : (setErr e s).result = s.result := rfl
@[simp] theorem setErr_freeCtr : (setErr e s).freeCtr = s.freeCtr := rfl
@[simp] theorem setErr_rxState : (setErr e s).rxState = s.rxState := rfl
@[simp] theorem setErr_preIdx : (setErr e s).preIdx = s.preIdx := rfl
@[simp] theorem setErr_rxHdr : (setErr e s).rxHdr = s.rxHdr := rfl
@[simp] theorem setErr_rxPl : (setErr e s).rxPl = s.rxPl := rfl
@[simp] theorem setErr_rxTmr : (setErr e s).rxTmr = s.rxTmr := rfl
@[simp] theorem setErr_txState : (setErr e s).txState = s.txState := rfl
@[simp] theorem setErr_txReq : (setErr e s).txReq = s.txReq := rfl
@[simp] theorem setErr_txRetry : (setErr e s).txRetry = s.txRetry := rfl
@[simp] theorem setErr_txNoack : (setErr e s).txNoack = s.txNoack := rfl
@[simp] theorem setErr_ackTmr : (setErr e s).ackTmr = s.ackTmr := rfl
@[simp] theorem setErr_rx : (setErr e s).rx = s.rx := rfl
@[simp] theorem setErr_tx : (setErr e s).tx = s.tx := rfl
@[simp] theorem setErr_q : (setErr e s).q = s.q := rfl
@[simp] theorem setErr_errCode : (setErr e s).errCode = e.code := rfl
@[simp] theorem setErr_dropCnt : (setErr e s).dropCnt = s.dropCnt := rfl
@[simp] theorem setErr_abortCnt : (setErr e s).abortCnt = s.abortCnt := rfl
@[simp] theorem setErr_abandonCnt : (setErr e s).abandonCnt = s.abandonCnt := rfl
@[simp] theorem setErr_rxOverrun : (setErr e s).rxOverrun = s.rxOverrun := rfl
@[simp] theorem setErr_wireOut : (setErr e s).wireOut = s.wireOut := rfl

end setErr_fields

section rxPut_fields
variable (b : Byte) (s : State)

@[simp] theorem rxPut_cfg : (rxPut b s).cfg = s.cfg := rfl
@[simp] theorem rxPut_built : (rxPut b s).built = s.built := rfl
@[simp] theorem rxPut_inbox : (rxPut b s).inbox = s.inbox := rfl
@[simp] theorem rxPut_result : (rxPut b s).result = s.result := rfl
@[simp] theorem rxPut_freeCtr : (rxPut b s).freeCtr = s.freeCtr := rfl
@[simp] theorem rxPut_rxState : (rxPut b s).rxState = s.rxState := rfl
@[simp] theorem rxPut_preIdx : (rxPut b s).preIdx = s.preIdx := rfl
@[simp] theorem rxPut_rxHdr : (rxPut b s).rxHdr = s.rxHdr := rfl
@[simp] theorem rxPut_rxPl : (rxPut b s).rxPl = s.rxPl := rfl
@[simp] theorem rxPut_rxTmr : (rxPut b s).rxTmr = s.rxTmr := rfl
@[simp] theorem rxPut_txState : (rxPut b s).txState = s.txState := rfl
@[simp] theorem rxPut_txReq : (rxPut b s).txReq = s.txReq := rfl
@[simp] theorem rxPut_txRetry : (rxPut b s).txRetry = s.txRetry := rfl
@[simp] theorem rxPut_txNoack : (rxPut b s).txNoack = s.txNoack := rfl
@[simp] theorem rxPut_ackTmr : (rxPut b s).ackTmr = s.ackTmr := rfl
@[simp] theorem rxPut_rx : (rxPut b s).rx = s.rx.put b := rfl
@[simp] theorem rxPut_tx : (rxPut b s).tx = s.tx := rfl
@[simp] theorem rxPut_q : (rxPut b s).q = s.q := rfl
@[simp] theorem rxPut_errCode : (rxPut b s).errCode = s.errCode := rfl
@[simp] theorem rxPut_dropCnt : (rxPut b s).dropCnt = s.dropCnt := rfl
@[simp] theorem rxPut_abortCnt : (rxPut b s).abortCnt = s.abortCnt := rfl
@[simp] theorem rxPut_abandonCnt : (rxPut b s).abandonCnt = s.abandonCnt := rfl
@[simp] theorem rxPut_rxOverrun : (rxPut b s).rxOverrun = (s.rxOverrun || s.rx.ix.full) := rfl
@[simp] theorem rxPut_wireOut : (rxPut b s).wireOut = s.wireOut := rfl

end rxPut_fields

section rxClear_fields
variable (s : State)

@[simp] theorem rxClear_cfg : (rxClear s).cfg = s.cfg := rfl
@[simp] theorem rxClear_built : (rxClear s).built = s.built := rfl
@[simp] theorem rxClear_inbox : (rxClear s).inbox = s.inbox := rfl
@[simp] theorem rxClear_result : (rxClear s).result = s.result := rfl
@[simp] theorem rxClear_freeCtr : (rxClear s).freeCtr = s.freeCtr := rfl
@[simp] theorem rxClear_rxState : (rxClear s).rxState = s.rxState := rfl
@[simp] theorem rxClear_preIdx : (rxClear s).preIdx = s.preIdx := rfl
@[simp] theorem rxClear_rxHdr : (rxClear s).rxHdr = s.rxHdr := rfl
@[simp] theorem rxClear_rxPl : (rxClear s).rxPl = s.rxPl := rfl
@[simp] theorem rxClear_rxTmr : (rxClear s).rxTmr = s.rxTmr := rfl
@[simp] theorem rxClear_txState : (rxClear s).txState = s.txState := rfl
@[simp] theorem rxClear_txReq : (rxClear s).txReq = s.txReq := rfl
@[simp] theorem rxClear_txRetry : (rxClear s).txRetry = s.txRetry := rfl
@[simp] theorem rxClear_txNoack : (rxClear s).txNoack = s.txNoack := rfl
@[simp] theorem rxClear_ackTmr : (rxClear s).ackTmr = s.ackTmr := rfl
@[simp] theorem rxClear_rx : (rxClear s).rx = s.rx.clear := rfl
@[simp] theorem rxClear_tx : (rxClear s).tx = s.tx := rfl
@[simp] theorem rxClear_q : (rxClear s).q = s.q := rfl
@[simp] theorem rxClear_errCode : (rxClear s).errCode = s.errCode := rfl
@[simp] theorem rxClear_dropCnt : (rxClear s).dropCnt = s.dropCnt := rfl
@[simp] theorem rxClear_abortCnt : (rxClear s).abortCnt = s.abortCnt := rfl
@[simp] theorem rxClear_abandonCnt : (rxClear s).abandonCnt = s.abandonCnt := rfl
@[simp] theorem rxClear_rxOverrun : (rxClear s).rxOverrun = s.rxOverrun := rfl
@[simp] theorem rxClear_wireOut : (rxClear s).wireOut = s.wireOut := rfl

end rxClear_fields

section txWrite_fields
variable (f : List Byte) (s : State)

@[simp] theorem txWrite_cfg : (txWrite f s).cfg = s.cfg := rfl
@[simp] theorem txWrite_built : (txWrite f s).built = s.built := rfl
@[simp] theorem txWrite_inbox : (txWrite f s).inbox = s.inbox := rfl
@[simp] theorem txWrite_result : (txWrite f s).result = s.result := rfl
@[simp] theorem txWrite_freeCtr : (txWrite f s).freeCtr = s.freeCtr := rfl
@[simp] theorem txWrite_rxState : (txWrite f s).rxState = s.rxState := rfl
@[simp] theorem txWrite_preIdx : (txWrite f s).preIdx = s.preIdx := rfl
@[simp] theorem txWrite_rxHdr : (txWrite f s).rxHdr = s.rxHdr := rfl
@[simp] theorem txWrite_rxPl : (txWrite f s).rxPl = s.rxPl := rfl
@[simp] theorem txWrite_rxTmr : (txWrite f s).rxTmr = s.rxTmr := rfl
@[simp] theorem txWrite_txState : (txWrite f s).txState = s.txState := rfl
@[simp] theorem txWrite_txReq : (txWrite f s).txReq = s.txReq := rfl
@[simp] theorem txWrite_txRetry : (txWrite f s).txRetry = s.txRetry := rfl
@[simp] theorem txWrite_txNoack : (txWrite f s).txNoack = s.txNoack := rfl
@[simp] theorem txWrite_ackTmr : (txWrite f s).ackTmr = s.ackTmr := rfl
@[simp] theorem txWrite_rx : (txWrite f s).rx = s.rx := rfl
@[simp] theorem txWrite_tx : (txWrite f s).tx = s.tx.write f := rfl
@[simp] theorem txWrite_q : (txWrite f s).q = s.q := rfl
@[simp] theorem txWrite_errCode : (txWrite f s).errCode = s.errCode := rfl
@[simp] theorem txWrite_dropCnt : (txWrite f s).dropCnt = s.dropCnt := rfl
@[simp] theorem txWrite_abortCnt : (txWrite f s).abortCnt = s.abortCnt := rfl
@[simp] theorem txWrite_abandonCnt : (txWrite f s).abandonCnt = s.abandonCnt := rfl
@[simp] theorem txWrite_rxOverrun : (txWrite f s).rxOverrun = s.rxOverrun := rfl
@[simp] theorem txWrite_wireOut : (txWrite f s).wireOut = s.wireOut := rfl

end txWrite_fields

section txPop_fields
variable (s : State)

@[simp] theorem txPop_cfg : (txPop s).cfg = s.cfg := rfl
@[simp] theorem txPop_built : (txPop s).built = s.built := rfl
@[simp] theorem txPop_inbox : (txPop s).inbox = s.inbox := rfl
@[simp] theorem txPop_result : (txPop s).result = s.result := rfl
@[simp] theorem txPop_freeCtr : (txPop s).freeCtr = s.freeCtr := rfl
@[simp] theorem txPop_rxState : (txPop s).rxState = s.rxState := rfl
@[simp] theorem txPop_preIdx : (txPop s).preIdx = s.preIdx := rfl
@[simp] theorem txPop_rxHdr : (txPop s).rxHdr = s.rxHdr := rfl
@[simp] theorem txPop_rxPl : (txPop s).rxPl = s.rxPl := rfl
@[simp] theorem txPop_rxTmr : (txPop s).rxTmr = s.rxTmr := rfl
@[simp] theorem txPop_txState : (txPop s).txState = s.txState := rfl
@[simp] theorem txPop_txReq : (txPop s).txReq = s.txReq := rfl
@[simp] theorem txPop_txRetry : (txPop s).txRetry = s.txRetry := rfl
@[simp] theorem txPop_txNoack : (txPop s).txNoack = s.txNoack := rfl
@[simp] theorem txPop_ackTmr : (txPop s).ackTmr = s.ackTmr := rfl
@[simp] theorem txPop_rx : (txPop s).rx = s.rx := rfl
@[simp] theorem txPop_tx : (txPop s).tx = { s.tx with ix := s.tx.ix.drop1 } := rfl
@[simp] theorem txPop_q : (txPop s).q = s.q := rfl
@[simp] theorem txPop_errCode : (txPop s).errCode = s.errCode := rfl
@[simp] theorem txPop_dropCnt : (txPop s).dropCnt = s.dropCnt := rfl
@[simp] theorem txPop_abortCnt : (txPop s).abortCnt = s.abortCnt := rfl
@[simp] theorem txPop_abandonCnt : (txPop s).abandonCnt = s.abandonCnt := rfl
@[simp] theorem txPop_rxOverrun : (txPop s).rxOverrun = s.rxOverrun := rfl
@[simp] theorem txPop_wireOut : (txPop s).wireOut = s.wireOut := rfl

end txPop_fields

section qWrite_fields
variable (r : Request) (s : State)

@[simp] theorem qWrite_cfg : (qWrite r s).cfg = s.cfg := rfl
@[simp] theorem qWrite_built : (qWrite r s).built = s.built := rfl
@[simp] theorem qWrite_inbox : (qWrite r s).inbox = s.inbox := rfl
@[simp] theorem qWrite_result : (qWrite r s).result = s.result := rfl
@[simp] theorem qWrite_freeCtr : (qWrite r s).freeCtr = s.freeCtr := rfl
@[simp] theorem qWrite_rxState : (qWrite r s).rxState = s.rxState := rfl
@[simp] theorem qWrite_preIdx : (qWrite r s).preIdx = s.preIdx := rfl
@[simp] theorem qWrite_rxHdr : (qWrite r s).rxHdr = s.rxHdr := rfl
@[simp] theorem qWrite_rxPl : (qWrite r s).rxPl = s.rxPl := rfl
@[simp] theorem qWrite_rxTmr : (qWrite r s).rxTmr = s.rxTmr := rfl
@[simp] theorem qWrite_txState : (qWrite r s).txState = s.txState := rfl
@[simp] theorem qWrite_txReq : (qWrite r s).txReq = s.txReq := rfl
@[simp] theorem qWrite_txRetry : (qWrite r s).txRetry = s.txRetry := rfl
@[simp] theorem qWrite_txNoack : (qWrite r s).txNoack = s.txNoack := rfl
@[simp] theorem qWrite_ackTmr : (qWrite r s).ackTmr = s.ackTmr := rfl
@[simp] theorem qWrite_rx : (qWrite r s).rx = s.rx := rfl
@[simp] theorem qWrite_tx : (qWrite r s).tx = s.tx := rfl
@[simp] theorem qWrite_q :
    (qWrite r s).q =
      if qFits r s then { ix := s.q.ix.push (reqSize s.cfg r), reqs := s.q.reqs ++ [r] } else s.q := rfl
@[simp] theorem qWrite_errCode : (qWrite r s).errCode = s.errCode := rfl
@[simp] theorem qWrite_dropCnt : (qWrite r s).dropCnt = s.dropCnt := rfl
@[simp] theorem qWrite_abortCnt : (qWrite r s).abortCnt = s.abortCnt := rfl
@[simp] theorem qWrite_abandonCnt : (qWrite r s).abandonCnt = s.abandonCnt := rfl
@[simp] theorem qWrite_rxOverrun : (qWrite r s).rxOverrun = s.rxOverrun := rfl
@[simp] theorem qWrite_wireOut : (qWrite r s).wireOut = s.wireOut := rfl

end qWrite_fields

section qDrop_fields
variable (r : Request) (s : State)

@[simp] theorem qDrop_cfg : (qDrop r s).cfg = s.cfg := rfl
@[simp] theorem qDrop_built : (qDrop r s).built = s.built := rfl
@[simp] theorem qDrop_inbox : (qDrop r s).inbox = s.inbox := rfl
@[simp] theorem qDrop_result : (qDrop r s).result = s.result := rfl
@[simp] theorem qDrop_freeCtr : (qDrop r s).freeCtr = s.freeCtr := rfl
@[simp] theorem qDrop_rxState : (qDrop r s).rxState = s.rxState := rfl
@[simp] theorem qDrop_preIdx : (qDrop r s).preIdx = s.preIdx := rfl
@[simp] theorem qDrop_rxHdr : (qDrop r s).rxHdr = s.rxHdr := rfl
@[simp] theorem qDrop_rxPl : (qDrop r s).rxPl = s.rxPl := rfl
@[simp] theorem qDrop_rxTmr : (qDrop r s).rxTmr = s.rxTmr := rfl
@[simp] theorem qDrop_txState : (qDrop r s).txState = s.txState := rfl
@[simp] theorem qDrop_txReq : (qDrop r s).txReq = s.txReq := rfl
@[simp] theorem qDrop_txRetry : (qDrop r s).txRetry = s.txRetry := rfl
@[simp] theorem qDrop_txNoack : (qDrop r s).txNoack = s.txNoack := rfl
@[simp] theorem qDrop_ackTmr : (qDrop r s).ackTmr = s.ackTmr := rfl
@[simp] theorem qDrop_rx : (qDrop r s).rx = s.rx := rfl
@[simp] theorem qDrop_tx : (qDrop r s).tx = s.tx := rfl
@[simp] theorem qDrop_q : (qDrop r s).q = { ix := s.q.ix.pull (reqSize s.cfg r), reqs := s.q.reqs.tail } := rfl
@[simp] theorem qDrop_errCode : (qDrop r s).errCode = s.errCode := rfl
@[simp] theorem qDrop_dropCnt : (qDrop r s).dropCnt = s.dropCnt := rfl
@[simp] theorem qDrop_abortCnt : (qDrop r s).abortCnt = s.abortCnt := rfl
@[simp] theorem qDrop_abandonCnt : (qDrop r s).abandonCnt = s.abandonCnt := rfl
@[simp] theorem qDrop_rxOverrun : (qDrop r s).rxOverrun = s.rxOverrun := rfl
@[simp] theorem qDrop_wireOut : (qDrop r s).wireOut = s.wireOut := rfl

end qDrop_fields

section sendCtl_fields
variable (t : Byte) (s : State)

@[simp] theorem sendCtl_cfg : (sendCtl t s).cfg = s.cfg := rfl
@[simp] theorem sendCtl_built : (sendCtl t s).built = s.built := rfl
@[simp] theorem sendCtl_inbox : (sendCtl t s).inbox = s.inbox := rfl
@[simp] theorem sendCtl_result : (sendCtl t s).result = s.result := rfl
@[simp] theorem sendCtl_freeCtr : (sendCtl t s).freeCtr = s.freeCtr := rfl
@[simp] theorem sendCtl_rxState : (sendCtl t s).rxState = s.rxState := rfl
@[simp] theorem sendCtl_preIdx : (sendCtl t s).preIdx = s.preIdx := rfl
@[simp] theorem sendCtl_rxHdr : (sendCtl t s).rxHdr = s.rxHdr := rfl
@[simp] theorem sendCtl_rxPl : (sendCtl t s).rxPl = s.rxPl := rfl
@[simp] theorem sendCtl_rxTmr : (sendCtl t s).rxTmr = s.rxTmr := rfl
@[simp] theorem sendCtl_txState : (sendCtl t s).txState = s.txState := rfl
@[simp] theorem sendCtl_txReq : (sendCtl t s).txReq = s.txReq := rfl
@[simp] theorem sendCtl_txRetry : (sendCtl t s).txRetry = s.txRetry := rfl
@[simp] theorem sendCtl_txNoack : (sendCtl t s).txNoack = s.txNoack := rfl
@[simp] theorem sendCtl_ackTmr : (sendCtl t s).ackTmr = s.ackTmr := rfl
@[simp] theorem sendCtl_rx : (sendCtl t s).rx = s.rx := rfl
@[simp] theorem sendCtl_tx : (sendCtl t s).tx = s.tx := rfl
@[simp] theorem sendCtl_q : (sendCtl t s).q = (qWrite (mkCtl s.cfg t) s).q := rfl
@[simp] theorem sendCtl_errCode : (sendCtl t s).errCode = s.errCode := rfl
@[simp] theorem sendCtl_dropCnt :
    (sendCtl t s).dropCnt =
      if qFits (mkCtl s.cfg t) s then s.dropCnt else s.dropCnt + 1 := rfl
@[simp] theorem sendCtl_abortCnt : (sendCtl t s).abortCnt = s.abortCnt := rfl
@[simp] theorem sendCtl_abandonCnt : (sendCtl t s).abandonCnt = s.abandonCnt := rfl
@[simp] theorem sendCtl_rxOverrun : (sendCtl t s).rxOverrun = s.rxOverrun := rfl
@[simp] theorem sendCtl_wireOut : (sendCtl t s).wireOut = s.wireOut := rfl

end sendCtl_fields

section flushFor_fields
variable (e : Err) (s : State)

@[simp] theorem flushFor_cfg : (flushFor e s).cfg = s.cfg := rfl
@[simp] theorem flushFor_built : (flushFor e s).built = s.built := rfl
@[simp] theorem flushFor_inbox : (flushFor e s).inbox = s.inbox := rfl
@[simp] theorem flushFor_result : (flushFor e s).result = s.result := rfl
@[simp] theorem flushFor_freeCtr : (flushFor e s).freeCtr = s.freeCtr := rfl
@[simp] theorem flushFor_rxState : (flushFor e s).rxState = s.rxState := rfl
@[simp] theorem flushFor_preIdx : (flushFor e s).preIdx = s.preIdx := rfl
@[simp] theorem flushFor_rxHdr : (flushFor e s).rxHdr = s.rxHdr := rfl
@[simp] theorem flushFor_rxPl : (flushFor e s).rxPl = s.rxPl := rfl
@[simp] theorem flushFor_rxTmr : (flushFor e s).rxTmr = s.rxTmr := rfl
@[simp] theorem flushFor_txState : (flushFor e s).txState = s.txState := rfl
@[simp] theorem flushFor_txReq : (flushFor e s).txReq = s.txReq := rfl
@[simp] theorem flushFor_txRetry : (flushFor e s).txRetry = s.txRetry := rfl
@[simp] theorem flushFor_txNoack : (flushFor e s).txNoack = s.txNoack := rfl
@[simp] theorem flushFor_ackTmr : (flushFor e s).ackTmr = s.ackTmr := rfl
@[simp] theorem flushFor_rx : (flushFor e s).rx = if flushes s.cfg e then s.rx.clear else s.rx := rfl
@[simp] theorem flushFor_tx : (flushFor e s).tx = s.tx := rfl
@[simp] theorem flushFor_q : (flushFor e s).q = s.q := rfl
@[simp] theorem flushFor_errCode : (flushFor e s).errCode = s.errCode := rfl
@[simp] theorem flushFor_dropCnt : (flushFor e s).dropCnt = s.dropCnt := rfl
@[simp] theorem flushFor_abortCnt : (flushFor e s).abortCnt = s.abortCnt := rfl
@[simp] theorem flushFor_abandonCnt : (flushFor e s).abandonCnt = s.abandonCnt := rfl
@[simp] theorem flushFor_rxOverrun : (flushFor e s).rxOverrun = s.rxOverrun := rfl
@[simp] theorem flushFor_wireOut : (flushFor e s).wireOut = s.wireOut := rfl

end flushFor_fields

section restartRx_fields
variable (s : State)

@[simp] theorem restartRx_cfg : (restartRx s).cfg = s.cfg := rfl
@[simp] theorem restartRx_built : (restartRx s).built = s.built := rfl
@[simp] theorem restartRx_inbox : (restartRx s).inbox = s.inbox := rfl
@[simp] theorem restartRx_result : (restartRx s).result = s.result := rfl
@[simp] theorem restartRx_freeCtr : (restartRx s).freeCtr = s.freeCtr := rfl
@[simp] theorem restartRx_rxState : (restartRx s).rxState = .waitPreamble := rfl
@[simp] theorem restartRx_preIdx : (restartRx s).preIdx = 0 := rfl
@[simp] theorem restartRx_rxHdr : (restartRx s).rxHdr = s.rxHdr := rfl
@[simp] theorem restartRx_rxPl : (restartRx s).rxPl = s.rxPl := rfl
@[simp] theorem restartRx_rxTmr : (restartRx s).rxTmr = timerStop s.rxTmr := rfl
@[simp] theorem restartRx_txState : (restartRx s).txState = s.txState := rfl
@[simp] theorem restartRx_txReq : (restartRx s).txReq = s.txReq := rfl
@[simp] theorem restartRx_txRetry : (restartRx s).txRetry = s.txRetry := rfl
@[simp] theorem restartRx_txNoack : (restartRx s).txNoack = s.txNoack := rfl
@[simp] theorem restartRx_ackTmr : (restartRx s).ackTmr = s.ackTmr := rfl
@[simp] theorem restartRx_rx : (restartRx s).rx = s.rx := rfl
@[simp] theorem restartRx_tx : (restartRx s).tx = s.tx := rfl
@[simp] theorem restartRx_q : (restartRx s).q = s.q := rfl
@[simp] theorem restartRx_errCode : (restartRx s).errCode = s.errCode := rfl
@[simp] theorem restartRx_dropCnt : (restartRx s).dropCnt = s.dropCnt := rfl
@[simp] theorem restartRx_abortCnt : (restartRx s).abortCnt = s.abortCnt := rfl
@[simp] theorem restartRx_abandonCnt : (restartRx s).abandonCnt = s.abandonCnt := rfl
@[simp] theorem restartRx_rxOverrun : (restartRx s).rxOverrun = s.rxOverrun := rfl
@[simp] theorem restartRx_wireOut : (restartRx s).wireOut = s.wireOut := rfl

end restartRx_fields

section enterHeader_fields
variable (s : State)

@[simp] theorem enterHeader_cfg : (enterHeader s).cfg = s.cfg := rfl
@[simp] theorem enterHeader_built : (enterHeader s).built = s.built := rfl
@[simp] theorem enterHeader_inbox : (enterHeader s).inbox = s.inbox := rfl
@[simp] theorem enterHeader_result : (enterHeader s).result = s.result := rfl
@[simp] theorem enterHeader_freeCtr : (enterHeader s).freeCtr = s.freeCtr := rfl
@[simp] theorem enterHeader_rxState : (enterHeader s).rxState = .waitHeader := rfl
@[simp] theorem enterHeader_preIdx : (enterHeader s).preIdx = 0 := rfl
@[simp] theorem enterHeader_rxHdr : (enterHeader s).rxHdr = s.rxHdr := rfl
@[simp] theorem enterHeader_rxPl : (enterHeader s).rxPl = s.rxPl := rfl
@[simp] theorem enterHeader_rxTmr : (enterHeader s).rxTmr = timerStart s.cfg.tHdr := rfl
@[simp] theorem enterHeader_txState : (enterHeader s).txState = s.txState := rfl
@[simp] theorem enterHeader_txReq : (enterHeader s).txReq = s.txReq := rfl
@[simp] theorem enterHeader_txRetry : (enterHeader s).txRetry = s.txRetry := rfl
@[simp] theorem enterHeader_txNoack : (enterHeader s).txNoack = s.txNoack := rfl
@[simp] theorem enterHeader_ackTmr : (enterHeader s).ackTmr = s.ackTmr := rfl
@[simp] theorem enterHeader_rx : (enterHeader s).rx = s.rx := rfl
@[simp] theorem enterHeader_tx : (enterHeader s).tx = s.tx := rfl
@[simp] theorem enterHeader_q : (enterHeader s).q = s.q := rfl
@[simp] theorem enterHeader_errCode : (enterHeader s).errCode = s.errCode := rfl
@[simp] theorem enterHeader_dropCnt : (enterHeader s).dropCnt = s.dropCnt := rfl
@[simp] theorem enterHeader_abortCnt : (enterHeader s).abortCnt = s.abortCnt := rfl
@[simp] theorem enterHeader_abandonCnt : (enterHeader s).abandonCnt = s.abandonCnt := rfl
@[simp] theorem enterHeader_rxOverrun : (enterHeader s).rxOverrun = s.rxOverrun := rfl
@[simp] theorem enterHeader_wireOut : (enterHeader s).wireOut = s.wireOut := rfl

end enterHeader_fields

section enterPayload_fields
variable (s : State)

@[simp] theorem enterPayload_cfg : (enterPayload s).cfg = s.cfg := rfl
@[simp] theorem enterPayload_built : (enterPayload s).built = s.built := rfl
@[simp] theorem enterPayload_inbox : (enterPayload s).inbox = s.inbox := rfl
@[simp] theorem enterPayload_result : (enterPayload s).result = s.result := rfl
@[simp] theorem enterPayload_freeCtr : (enterPayload s).freeCtr = s.freeCtr := rfl
@[simp] theorem enterPayload_rxState : (enterPayload s).rxState = .waitPayload := rfl
@[simp] theorem enterPayload_preIdx : (enterPayload s).preIdx = s.preIdx := rfl
@[simp] theorem enterPayload_rxHdr : (enterPayload s).rxHdr = s.rxHdr := rfl
@[simp] theorem enterPayload_rxPl : (enterPayload s).rxPl = s.rxPl := rfl
@[simp] theorem enterPayload_rxTmr : (enterPayload s).rxTmr = timerStart (payTimeout s.cfg s.rxHdr.len) := rfl
@[simp] theorem enterPayload_txState : (enterPayload s).txState = s.txState := rfl
@[simp] theorem enterPayload_txReq : (enterPayload s).txReq = s.txReq := rfl
@[simp] theorem enterPayload_txRetry : (enterPayload s).txRetry = s.txRetry := rfl
@[simp] theorem enterPayload_txNoack : (enterPayload s).txNoack = s.txNoack := rfl
@[simp] theorem enterPayload_ackTmr : (enterPayload s).ackTmr = s.ackTmr := rfl
@[simp] theorem enterPayload_rx : (enterPayload s).rx = s.rx := rfl
@[simp] theorem enterPayload_tx : (enterPayload s).tx = s.tx := rfl
@[simp] theorem enterPayload_q : (enterPayload s).q = s.q := rfl
@[simp] theorem enterPayload_errCode : (enterPayload s).errCode = s.errCode := rfl
@[simp] theorem enterPayload_dropCnt : (enterPayload s).dropCnt = s.dropCnt := rfl
@[simp] theorem enterPayload_abortCnt : (enterPayload s).abortCnt = s.abortCnt := rfl
@[simp] theorem enterPayload_abandonCnt : (enterPayload s).abandonCnt = s.abandonCnt := rfl
@[simp] theorem enterPayload_rxOverrun : (enterPayload s).rxOverrun = s.rxOverrun := rfl
@[simp] theorem enterPayload_wireOut : (enterPayload s).wireOut = s.wireOut := rfl

end enterPayload_fields

section enterTrailer_fields
variable (s : State)

@[simp] theorem enterTrailer_cfg : (enterTrailer s).cfg = s.cfg := rfl
@[simp] theorem enterTrailer_built : (enterTrailer s).built = s.built := rfl
@[simp] theorem enterTrailer_inbox : (enterTrailer s).inbox = s.inbox := rfl
@[simp] theorem enterTrailer_result : (enterTrailer s).result = s.result := rfl
@[simp] theorem enterTrailer_freeCtr : (enterTrailer s).freeCtr = s.freeCtr := rfl
@[simp] theorem enterTrailer_rxState : (enterTrailer s).rxState = .waitCrcPost := rfl
@[simp] theorem enterTrailer_preIdx : (enterTrailer s).preIdx = s.preIdx := rfl
@[simp] theorem enterTrailer_rxHdr : (enterTrailer s).rxHdr = s.rxHdr := rfl
@[simp] theorem enterTrailer_rxPl : (enterTrailer s).rxPl = s.rxPl := rfl
@[simp] theorem enterTrailer_rxTmr : (enterTrailer s).rxTmr = timerStart s.cfg.tCrc := rfl
@[simp] theorem enterTrailer_txState : (enterTrailer s).txState = s.txState := rfl
@[simp] theorem enterTrailer_txReq : (enterTrailer s).txReq = s.txReq := rfl
@[simp] theorem enterTrailer_txRetry : (enterTrailer s).txRetry = s.txRetry := rfl
@[simp] theorem enterTrailer_txNoack : (enterTrailer s).txNoack = s.txNoack := rfl
@[simp] theorem enterTrailer_ackTmr : (enterTrailer s).ackTmr = s.ackTmr := rfl
@[simp] theorem enterTrailer_rx : (enterTrailer s).rx = s.rx := rfl
@[simp] theorem enterTrailer_tx : (enterTrailer s).tx = s.tx := rfl
@[simp] theorem enterTrailer_q : (enterTrailer s).q = s.q := rfl
@[simp] theorem enterTrailer_errCode : (enterTrailer s).errCode = s.errCode := rfl
@[simp] theorem enterTrailer_dropCnt : (enterTrailer s).dropCnt = s.dropCnt := rfl
@[simp] theorem enterTrailer_abortCnt : (enterTrailer s).abortCnt = s.abortCnt := rfl
@[simp] theorem enterTrailer_abandonCnt : (enterTrailer s).abandonCnt = s.abandonCnt := rfl
@[simp] theorem enterTrailer_rxOverrun : (enterTrailer s).rxOverrun = s.rxOverrun := rfl
@[simp] theorem enterTrailer_wireOut : (enterTrailer s).wireOut = s.wireOut := rfl

end enterTrailer_fields

section enterReady_fields
variable (s : State)

@[simp] theorem enterReady_cfg : (enterReady s).cfg = s.cfg := rfl
@[simp] theorem enterReady_built : (enterReady s).built = s.built := rfl
@[simp] theorem enterReady_inbox : (enterReady s).inbox = s.inbox := rfl
@[simp] theorem enterReady_result : (enterReady s).result = s.result := rfl
@[simp] theorem enterReady_freeCtr : (enterReady s).freeCtr = s.freeCtr := rfl
@[simp] theorem enterReady_rxState : (enterReady s).rxState = .packetReady := rfl
@[simp] theorem enterReady_preIdx : (enterReady s).preIdx = s.preIdx := rfl
@[simp] theorem enterReady_rxHdr : (enterReady s).rxHdr = s.rxHdr := rfl
@[simp] theorem enterReady_rxPl : (enterReady s).rxPl = s.rxPl := rfl
@[simp] theorem enterReady_rxTmr : (enterReady s).rxTmr = timerStop s.rxTmr := rfl
@[simp] theorem enterReady_txState : (enterReady s).txState = s.txState := rfl
@[simp] theorem enterReady_txReq : (enterReady s).txReq = s.txReq := rfl
@[simp] theorem enterReady_txRetry : (enterReady s).txRetry = s.txRetry := rfl
@[simp] theorem enterReady_txNoack : (enterReady s).txNoack = s.txNoack := rfl
@[simp] theorem enterReady_ackTmr : (enterReady s).ackTmr = s.ackTmr := rfl
@[simp] theorem enterReady_rx : (enterReady s).rx = s.rx := rfl
@[simp] theorem enterReady_tx : (enterReady s).tx = s.tx := rfl
@[simp] theorem enterReady_q : (enterReady s).q = s.q := rfl
@[simp] theorem enterReady_errCode : (enterReady s).errCode = s.errCode := rfl
@[simp] theorem enterReady_dropCnt : (enterReady s).dropCnt = s.dropCnt := rfl
@[simp] theorem enterReady_abortCnt : (enterReady s).abortCnt = s.abortCnt := rfl
@[simp] theorem enterReady_abandonCnt : (enterReady s).abandonCnt = s.abandonCnt := rfl
@[simp] theorem enterReady_rxOverrun : (enterReady s).rxOverrun = s.rxOverrun := rfl
@[simp] theorem enterReady_wireOut : (enterReady s).wireOut = s.wireOut := rfl

end enterReady_fields

section abortSend_fields
variable (s : State)

@[simp] theorem abortSend_cfg : (abortSend s).cfg = s.cfg := rfl
@[simp] theorem abortSend_built : (abortSend s).built = s.built := rfl
@[simp] theorem abortSend_inbox : (abortSend s).inbox = s.inbox := rfl
@[simp] theorem abortSend_result : (abortSend s).result = s.result := rfl
@[simp] theorem abortSend_freeCtr : (abortSend s).freeCtr = s.freeCtr := rfl
@[simp] theorem abortSend_rxState : (abortSend s).rxState = s.rxState := rfl
@[simp] theorem abortSend_preIdx : (abortSend s).preIdx = s.preIdx := rfl
@[simp] theorem abortSend_rxHdr : (abortSend s).rxHdr = s.rxHdr := rfl
@[simp] theorem abortSend_rxPl : (abortSend s).rxPl = s.rxPl := rfl
@[simp] theorem abortSend_rxTmr : (abortSend s).rxTmr = s.rxTmr := rfl
@[simp] theorem abortSend_txState : (abortSend s).txState = s.txState := rfl
@[simp] theorem abortSend_txReq : (abortSend s).txReq = s.txReq := rfl
@[simp] theorem abortSend_txRetry : (abortSend s).txRetry = s.txRetry := rfl
@[simp] theorem abortSend_txNoack : (abortSend s).txNoack = s.txNoack := rfl
@[simp] theorem abortSend_ackTmr : (abortSend s).ackTmr = s.ackTmr := rfl
@[simp] theorem abortSend_rx : (abortSend s).rx = s.rx := rfl
@[simp] theorem abortSend_tx : (abortSend s).tx = s.tx := rfl
@[simp] theorem abortSend_q : (abortSend s).q = s.q := rfl
@[simp] theorem abortSend_errCode : (abortSend s).errCode = Err.code .txWriteFail := rfl
@[simp] theorem abortSend_dropCnt : (abortSend s).dropCnt = s.dropCnt := rfl
@[simp] theorem abortSend_abortCnt : (abortSend s).abortCnt = s.abortCnt + 1 := rfl
@[simp] theorem abortSend_abandonCnt : (abortSend s).abandonCnt = s.abandonCnt := rfl
@[simp] theorem abortSend_rxOverrun : (abortSend s).rxOverrun = s.rxOverrun := rfl
@[simp] theorem abortSend_wireOut : (abortSend s).wireOut = s.wireOut := rfl

end abortSend_fields

section enterTransmitRegs_fields
variable (s : State)

@[simp] theorem enterTransmitRegs_cfg : (enterTransmitRegs s).cfg = s.cfg := rfl
@[simp] theorem enterTransmitRegs_built : (enterTransmitRegs s).built = s.built := rfl
@[simp] theorem enterTransmitRegs_inbox : (enterTransmitRegs s).inbox = s.inbox := rfl
@[simp] theorem enterTransmitRegs_result : (enterTransmitRegs s).result = s.result := rfl
@[simp] theorem enterTransmitRegs_freeCtr : (enterTransmitRegs s).freeCtr = s.freeCtr := rfl
@[simp] theorem enterTransmitRegs_rxState : (enterTransmitRegs s).rxState = s.rxState := rfl
@[simp] theorem enterTransmitRegs_preIdx : (enterTransmitRegs s).preIdx = s.preIdx := rfl
@[simp] theorem enterTransmitRegs_rxHdr : (enterTransmitRegs s).rxHdr = s.rxHdr := rfl
@[simp] theorem enterTransmitRegs_rxPl : (enterTransmitRegs s).rxPl = s.rxPl := rfl
@[simp] theorem enterTransmitRegs_rxTmr : (enterTransmitRegs s).rxTmr = s.rxTmr := rfl
@[simp] theorem enterTransmitRegs_txState : (enterTransmitRegs s).txState = .transmitPacket := rfl
@[simp] theorem enterTransmitRegs_txReq : (enterTransmitRegs s).txReq = s.txReq := rfl
@[simp] theorem enterTransmitRegs_txRetry : (enterTransmitRegs s).txRetry = s.txRetry := rfl
@[simp] theorem enterTransmitRegs_txNoack : (enterTransmitRegs s).txNoack = !s.txReq.ackReq := rfl
@[simp] theorem enterTransmitRegs_ackTmr :
    (enterTransmitRegs s).ackTmr =
      if s.txReq.ackReq then timerStart s.cfg.tAck else s.ackTmr := rfl
@[simp] theorem enterTransmitRegs_rx : (enterTransmitRegs s).rx = s.rx := rfl
@[simp] theorem enterTransmitRegs_tx : (enterTransmitRegs s).tx = s.tx := rfl
@[simp] theorem enterTransmitRegs_q : (enterTransmitRegs s).q = s.q := rfl
@[simp] theorem enterTransmitRegs_errCode : (enterTransmitRegs s).errCode = s.errCode := rfl
@[simp] theorem enterTransmitRegs_dropCnt : (enterTransmitRegs s).dropCnt = s.dropCnt := rfl
@[simp] theorem enterTransmitRegs_abortCnt : (enterTransmitRegs s).abortCnt = s.abortCnt := rfl
@[simp] theorem enterTransmitRegs_abandonCnt : (enterTransmitRegs s).abandonCnt = s.abandonCnt := rfl
@[simp] theorem enterTransmitRegs_rxOverrun : (enterTransmitRegs s).rxOverrun = s.rxOverrun := rfl
@[simp] theorem enterTransmitRegs_wireOut : (enterTransmitRegs s).wireOut = s.wireOut := rfl

end enterTransmitRegs_fields

section exitTransmit_fields
variable (s : State)

@[simp] theorem exitTransmit_cfg : (exitTransmit s).cfg = s.cfg := rfl
@[simp] theorem exitTransmit_built : (exitTransmit s).built = s.built := rfl
@[simp] theorem exitTransmit_inbox : (exitTransmit s).inbox = s.inbox := rfl
@[simp] theorem exitTransmit_result : (exitTransmit s).result = s.result := rfl
@[simp] theorem exitTransmit_freeCtr : (exitTransmit s).freeCtr = s.freeCtr := rfl
@[simp] theorem exitTransmit_rxState : (exitTransmit s).rxState = s.rxState := rfl
@[simp] theorem exitTransmit_preIdx : (exitTransmit s).preIdx = s.preIdx := rfl
@[simp] theorem exitTransmit_rxHdr : (exitTransmit s).rxHdr = s.rxHdr := rfl
@[simp] theorem exitTransmit_rxPl : (exitTransmit s).rxPl = s.rxPl := rfl
@[simp] theorem exitTransmit_rxTmr : (exitTransmit s).rxTmr = s.rxTmr := rfl
@[simp] theorem exitTransmit_txState : (exitTransmit s).txState = s.txState := rfl
@[simp] theorem exitTransmit_txReq : (exitTransmit s).txReq = s.txReq := rfl
@[simp] theorem exitTransmit_txRetry : (exitTransmit s).txRetry = s.txRetry := rfl
@[simp] theorem exitTransmit_txNoack : (exitTransmit s).txNoack = s.txNoack := rfl
@[simp] theorem exitTransmit_ackTmr : (exitTransmit s).ackTmr = timerStop s.ackTmr := rfl
@[simp] theorem exitTransmit_rx : (exitTransmit s).rx = s.rx := rfl
@[simp] theorem exitTransmit_tx : (exitTransmit s).tx = s.tx := rfl
@[simp] theorem exitTransmit_q : (exitTransmit s).q = s.q := rfl
@[simp] theorem exitTransmit_errCode : (exitTransmit s).errCode = s.errCode := rfl
@[simp] theorem exitTransmit_dropCnt : (exitTransmit s).dropCnt = s.dropCnt := rfl
@[simp] theorem exitTransmit_abortCnt : (exitTransmit s).abortCnt = s.abortCnt := rfl
@[simp] theorem exitTransmit_abandonCnt : (exitTransmit s).abandonCnt = s.abandonCnt := rfl
@[simp] theorem exitTransmit_rxOverrun : (exitTransmit s).rxOverrun = s.rxOverrun := rfl
@[simp] theorem exitTransmit_wireOut : (exitTransmit s).wireOut = s.wireOut := rfl

end exitTransmit_fields

section completeRequest_fields
variable (s : State)

@[simp] theorem completeRequest_cfg : (completeRequest s).cfg = s.cfg := rfl
@[simp] theorem completeRequest_built : (completeRequest s).built = s.built := rfl
@[simp] theorem completeRequest_inbox : (completeRequest s).inbox = s.inbox := rfl
@[simp] theorem completeRequest_result : (completeRequest s).result = s.result := rfl
@[simp] theorem completeRequest_freeCtr : (completeRequest s).freeCtr = s.freeCtr := rfl
@[simp] theorem completeRequest_rxState : (completeRequest s).rxState = s.rxState := rfl
@[simp] theorem completeRequest_preIdx : (completeRequest s).preIdx = s.preIdx := rfl
@[simp] theorem completeRequest_rxHdr : (completeRequest s).rxHdr = s.rxHdr := rfl
@[simp] theorem completeRequest_rxPl : (completeRequest s).rxPl = s.rxPl := rfl
@[simp] theorem completeRequest_rxTmr : (completeRequest s).rxTmr = s.rxTmr := rfl
@[simp] theorem completeRequest_txState : (completeRequest s).txState = .pollPending := rfl
@[simp] theorem completeRequest_txReq : (completeRequest s).txReq = s.txReq := rfl
@[simp] theorem completeRequest_txRetry : (completeRequest s).txRetry = s.txRetry := rfl
@[simp] theorem completeRequest_txNoack : (completeRequest s).txNoack = s.txNoack := rfl
@[simp] theorem completeRequest_ackTmr : (completeRequest s).ackTmr = timerStop s.ackTmr := rfl
@[simp] theorem completeRequest_rx : (completeRequest s).rx = s.rx := rfl
@[simp] theorem completeRequest_tx : (completeRequest s).tx = s.tx := rfl
@[simp] theorem completeRequest_q : (completeRequest s).q = s.q := rfl
@[simp] theorem completeRequest_errCode : (completeRequest s).errCode = s.errCode := rfl
@[simp] theorem completeRequest_dropCnt : (completeRequest s).dropCnt = s.dropCnt := rfl
@[simp] theorem completeRequest_abortCnt : (completeRequest s).abortCnt = s.abortCnt := rfl
@[simp] theorem completeRequest_abandonCnt : (completeRequest s).abandonCnt = s.abandonCnt := rfl
@[simp] theorem completeRequest_rxOverrun : (completeRequest s).rxOverrun = s.rxOverrun := rfl
@[simp] theorem completeRequest_wireOut : (completeRequest s).wireOut = s.wireOut := rfl

end completeRequest_fields

section abandonRequest_fields
variable (s : State)

@[simp] theorem abandonRequest_cfg : (abandonRequest s).cfg = s.cfg := rfl
@[simp] theorem abandonRequest_built : (abandonRequest s).built = s.built := rfl
@[simp] theorem abandonRequest_inbox : (abandonRequest s).inbox = s.inbox := rfl
@[simp] theorem abandonRequest_result : (abandonRequest s).result = s.result := rfl
@[simp] theorem abandonRequest_freeCtr : (abandonRequest s).freeCtr = s.freeCtr := rfl
@[simp] theorem abandonRequest_rxState : (abandonRequest s).rxState = s.rxState := rfl
@[simp] theorem abandonRequest_preIdx : (abandonRequest s).preIdx = s.preIdx := rfl
@[simp] theorem abandonRequest_rxHdr : (abandonRequest s).rxHdr = s.rxHdr := rfl
@[simp] theorem abandonRequest_rxPl : (abandonRequest s).rxPl = s.rxPl := rfl
@[simp] theorem abandonRequest_rxTmr : (abandonRequest s).rxTmr = s.rxTmr := rfl
@[simp] theorem abandonRequest_txState : (abandonRequest s).txState = .pollPending := rfl
@[simp] theorem abandonRequest_txReq : (abandonRequest s).txReq = s.txReq := rfl
@[simp] theorem abandonRequest_txRetry : (abandonRequest s).txRetry = s.txRetry := rfl
@[simp] theorem abandonRequest_txNoack : (abandonRequest s).txNoack = s.txNoack := rfl
@[simp] theorem abandonRequest_ackTmr : (abandonRequest s).ackTmr = timerStop s.ackTmr := rfl
@[simp] theorem abandonRequest_rx : (abandonRequest s).rx = s.rx := rfl
@[simp] theorem abandonRequest_tx : (abandonRequest s).tx = s.tx := rfl
@[simp] theorem abandonRequest_q : (abandonRequest s).q = s.q := rfl
@[simp] theorem abandonRequest_errCode : (abandonRequest s).errCode = Err.code .retryExhausted := rfl
@[simp] theorem abandonRequest_dropCnt : (abandonRequest s).dropCnt = s.dropCnt := rfl
@[simp] theorem abandonRequest_abortCnt : (abandonRequest s).abortCnt = s.abortCnt := rfl
@[simp] theorem abandonRequest_abandonCnt : (abandonRequest s).abandonCnt = s.abandonCnt + 1 := rfl
@[simp] theorem abandonRequest_rxOverrun : (abandonRequest s).rxOverrun = s.rxOverrun := rfl
@[simp] theorem abandonRequest_wireOut : (abandonRequest s).wireOut = s.wireOut := rfl

end abandonRequest_fields

section countRetry_fields
variable (s : State)

@[simp] theorem countRetry_cfg : (countRetry s).cfg = s.cfg := rfl
@[simp] theorem countRetry_built : (countRetry s).built = s.built := rfl
@[simp] theorem countRetry_inbox : (countRetry s).inbox = s.inbox := rfl
@[simp] theorem countRetry_result : (countRetry s).result = s.result := rfl
@[simp] theorem countRetry_freeCtr : (countRetry s).freeCtr = s.freeCtr := rfl
@[simp] theorem countRetry_rxState : (countRetry s).rxState = s.rxState := rfl
@[simp] theorem countRetry_preIdx : (countRetry s).preIdx = s.preIdx := rfl
@[simp] theorem countRetry_rxHdr : (countRetry s).rxHdr = s.rxHdr := rfl
@[simp] theorem countRetry_rxPl : (countRetry s).rxPl = s.rxPl := rfl
@[simp] theorem countRetry_rxTmr : (countRetry s).rxTmr = s.rxTmr := rfl
@[simp] theorem countRetry_txState : (countRetry s).txState = s.txState := rfl
@[simp] theorem countRetry_txReq : (countRetry s).txReq = s.txReq := rfl
@[simp] theorem countRetry_txRetry : (countRetry s).txRetry = s.txRetry + 1 := rfl
@[simp] theorem countRetry_txNoack : (countRetry s).txNoack = s.txNoack := rfl
@[simp] theorem countRetry_ackTmr : (countRetry s).ackTmr = s.ackTmr := rfl
@[simp] theorem countRetry_rx : (countRetry s).rx = s.rx := rfl
@[simp] theorem countRetry_tx : (countRetry s).tx = s.tx := rfl
@[simp] theorem countRetry_q : (countRetry s).q = s.q := rfl
@[simp] theorem countRetry_errCode : (countRetry s).errCode = s.errCode := rfl
@[simp] theorem countRetry_dropCnt : (countRetry s).dropCnt = s.dropCnt := rfl
@[simp] theorem countRetry_abortCnt : (countRetry s).abortCnt = s.abortCnt := rfl
@[simp] theorem countRetry_abandonCnt : (countRetry s).abandonCnt = s.abandonCnt := rfl
@[simp] theorem countRetry_rxOverrun : (countRetry s).rxOverrun = s.rxOverrun := rfl
@[simp] theorem countRetry_wireOut : (countRetry s).wireOut = s.wireOut := rfl

end countRetry_fields

theorem qFits_congr {s u : State} {r : Request} (hc : u.cfg = s.cfg) (hq : u.q = s.q) : qFits r u = qFits r s := by
  rw [Bool.eq_iff_iff]
  unfold qFits qFree qUsed
  rw [decide_eq_true_eq, decide_eq_true_eq, hc, hq]

/-- What SendCtl does to the queue depends on nothing but the configuration and the queue. -/
theorem sendCtl_q_congr {s u : State} {t : Byte} (hc : u.cfg = s.cfg) (hq : u.q = s.q) :
    (sendCtl t u).q = (sendCtl t s).q := by
  rw [sendCtl_q, sendCtl_q, qWrite_q, qWrite_q, hc, qFits_congr hc hq, hq]

theorem sendCtl_dropCnt_congr {s u : State} {t : Byte} (hc : u.cfg = s.cfg) (hq : u.q = s.q)
    (hd : u.dropCnt = s.dropCnt) : (sendCtl t u).dropCnt = (sendCtl t s).dropCnt := by
  rw [sendCtl_dropCnt, sendCtl_dropCnt, hc, qFits_congr hc hq, hd]

section rxFail_fields
variable (e : Err) (s : State)

@[simp] theorem rxFail_cfg : (rxFail e s).cfg = s.cfg := by
  simp only [rxFail, restartRx_cfg, sendCtl_cfg, flushFor_cfg, setErr_cfg]
@[simp] theorem rxFail_built : (rxFail e s).built = s.built := by
  simp only [rxFail, restartRx_built, sendCtl_built, flushFor_built, setErr_built]
@[simp] theorem rxFail_inbox : (rxFail e s).inbox = s.inbox := by
  simp only [rxFail, restartRx_inbox, sendCtl_inbox, flushFor_inbox, setErr_inbox]
@[simp] theorem rxFail_result : (rxFail e s).result = s.result := by
  simp only [rxFail, restartRx_result, sendCtl_result, flushFor_result, setErr_result]
@[simp] theorem rxFail_freeCtr : (rxFail e s).freeCtr = s.freeCtr := by
  simp only [rxFail, restartRx_freeCtr, sendCtl_freeCtr, flushFor_freeCtr, setErr_freeCtr]
@[simp] theorem rxFail_rxState : (rxFail e s).rxState = .waitPreamble := rfl
@[simp] theorem rxFail_preIdx : (rxFail e s).preIdx = 0 := rfl
@[simp] theorem rxFail_rxHdr : (rxFail e s).rxHdr = s.rxHdr := by
  simp only [rxFail, restartRx_rxHdr, sendCtl_rxHdr, flushFor_rxHdr, setErr_rxHdr]
@[simp] theorem rxFail_rxPl : (rxFail e s).rxPl = s.rxPl := by
  simp only [rxFail, restartRx_rxPl, sendCtl_rxPl, flushFor_rxPl, setErr_rxPl]
@[simp] theorem rxFail_rxTmr : (rxFail e s).rxTmr = timerStop s.rxTmr := by
  simp only [rxFail, restartRx_rxTmr, sendCtl_rxTmr, flushFor_rxTmr, setErr_rxTmr]
@[simp] theorem rxFail_txState : (rxFail e s).txState = s.txState := by
  simp only [rxFail, restartRx_txState, sendCtl_txState, flushFor_txState, setErr_txState]
@[simp] theorem rxFail_txReq : (rxFail e s).txReq = s.txReq := by
  simp only [rxFail, restartRx_txReq, sendCtl_txReq, flushFor_txReq, setErr_txReq]
@[simp] theorem rxFail_txRetry : (rxFail e s).txRetry = s.txRetry := by
  simp only [rxFail, restartRx_txRetry, sendCtl_txRetry, flushFor_txRetry, setErr_txRetry]
@[simp] theorem rxFail_txNoack : (rxFail e s).txNoack = s.txNoack := by
  simp only [rxFail, restartRx_txNoack, sendCtl_txNoack, flushFor_txNoack, setErr_txNoack]
@[simp] theorem rxFail_ackTmr : (rxFail e s).ackTmr = s.ackTmr := by
  simp only [rxFail, restartRx_ackTmr, sendCtl_ackTmr, flushFor_ackTmr, setErr_ackTmr]
@[simp] theorem rxFail_rx : (rxFail e s).rx = if flushes s.cfg e then s.rx.clear else s.rx := by
  rw [rxFail, restartRx_rx, sendCtl_rx]
  rfl
@[simp] theorem rxFail_tx : (rxFail e s).tx = s.tx := by
  simp only [rxFail, restartRx_tx, sendCtl_tx, flushFor_tx, setErr_tx]
@[simp] theorem rxFail_q : (rxFail e s).q = (sendCtl s.cfg.nackType s).q := by
  rw [rxFail, restartRx_q]
  exact sendCtl_q_congr rfl rfl
@[simp] theorem rxFail_errCode : (rxFail e s).errCode = e.code := by
  simp only [rxFail, restartRx_errCode, sendCtl_errCode, flushFor_errCode, setErr_errCode]
@[simp] theorem rxFail_dropCnt : (rxFail e s).dropCnt = (sendCtl s.cfg.nackType s).dropCnt := by
  rw [rxFail, restartRx_dropCnt]
  exact sendCtl_dropCnt_congr rfl rfl rfl
@[simp] theorem rxFail_abortCnt : (rxFail e s).abortCnt = s.abortCnt := by
  simp only [rxFail, restartRx_abortCnt, sendCtl_abortCnt, flushFor_abortCnt, setErr_abortCnt]
@[simp] theorem rxFail_abandonCnt : (rxFail e s).abandonCnt = s.abandonCnt := by
  simp only [rxFail, restartRx_abandonCnt, sendCtl_abandonCnt, flushFor_abandonCnt, setErr_abandonCnt]
@[simp] theorem rxFail_rxOverrun : (rxFail e s).rxOverrun = s.rxOverrun := by
  simp only [rxFail, restartRx_rxOverrun, sendCtl_rxOverrun, flushFor_rxOverrun, setErr_rxOverrun]
@[simp] theorem rxFail_wireOut : (rxFail e s).wireOut = s.wireOut := by
  simp only [rxFail, restartRx_wireOut, sendCtl_wireOut, flushFor_wireOut, setErr_wireOut]

end rxFail_fields

section resetState_fields
variable (s : State)

@[simp] theorem resetState_cfg : (resetState s).cfg = s.cfg := rfl
@[simp] theorem resetState_built : (resetState s).built = s.built := rfl
@[simp] theorem resetState_inbox : (resetState s).inbox = s.inbox := rfl
@[simp] theorem resetState_result : (resetState s).result = s.result := rfl
@[simp] theorem resetState_freeCtr : (resetState s).freeCtr = s.freeCtr + 1 := rfl
@[simp] theorem resetState_rxState : (resetState s).rxState = .waitPreamble := rfl
@[simp] theorem resetState_preIdx : (resetState s).preIdx = 0 := rfl
@[simp] theorem resetState_rxHdr : (resetState s).rxHdr = freeHeader .rxHdr s.freeCtr := rfl
@[simp] theorem resetState_rxPl : (resetState s).rxPl = freeBytes .rxPl s.freeCtr maxPayload := rfl
@[simp] theorem resetState_rxTmr : (resetState s).rxTmr = TimeEvent.idle := rfl
@[simp] theorem resetState_txState : (resetState s).txState = .pollPending := rfl
@[simp] theorem resetState_txReq : (resetState s).txReq = freeTxReq s.freeCtr := rfl
@[simp] theorem resetState_txRetry : (resetState s).txRetry = 0 := rfl
@[simp] theorem resetState_txNoack : (resetState s).txNoack = false := rfl
@[simp] theorem resetState_ackTmr : (resetState s).ackTmr = TimeEvent.idle := rfl
@[simp] theorem resetState_rx :
    (resetState s).rx =
      ringInit s.cfg.rxCap.toNat (freeBytes .rxBuf s.freeCtr s.cfg.rxCap.toNat) := rfl
@[simp] theorem resetState_tx :
    (resetState s).tx =
      ringInit s.cfg.txCap.toNat (freeBytes .txBuf s.freeCtr s.cfg.txCap.toNat) := rfl
@[simp] theorem resetState_q : (resetState s).q = { ix := Indices.empty s.cfg.txqCap.toNat, reqs := [] } := rfl
@[simp] theorem resetState_errCode : (resetState s).errCode = 0 := rfl
@[simp] theorem resetState_dropCnt : (resetState s).dropCnt = 0 := rfl
@[simp] theorem resetState_abortCnt : (resetState s).abortCnt = 0 := rfl
@[simp] theorem resetState_abandonCnt : (resetState s).abandonCnt = 0 := rfl
@[simp] theorem resetState_rxOverrun : (resetState s).rxOverrun = false := rfl
@[simp] theorem resetState_wireOut : (resetState s).wireOut = s.wireOut := rfl

end resetState_fields

section loadRequest_fields
variable (r : Request) (m : Memory) (s : State)

@[simp] theorem loadRequest_cfg : (loadRequest r m s).cfg = s.cfg := rfl
@[simp] theorem loadRequest_built : (loadRequest r m s).built = s.built := rfl
@[simp] theorem loadRequest_inbox : (loadRequest r m s).inbox = s.inbox := rfl
@[simp] theorem loadRequest_result : (loadRequest r m s).result = s.result := rfl
@[simp] theorem loadRequest_freeCtr : (loadRequest r m s).freeCtr = s.freeCtr := rfl
@[simp] theorem loadRequest_rxState : (loadRequest r m s).rxState = s.rxState := rfl
@[simp] theorem loadRequest_preIdx : (loadRequest r m s).preIdx = s.preIdx := rfl
@[simp] theorem loadRequest_rxHdr : (loadRequest r m s).rxHdr = s.rxHdr := rfl
@[simp] theorem loadRequest_rxPl : (loadRequest r m s).rxPl = s.rxPl := rfl
@[simp] theorem loadRequest_rxTmr : (loadRequest r m s).rxTmr = s.rxTmr := rfl
@[simp] theorem loadRequest_txState : (loadRequest r m s).txState = s.txState := rfl
@[simp] theorem loadRequest_txReq :
    (loadRequest r m s).txReq =
      { origin := r.origin, ackReq := r.ackReq, hdr := r.hdr, pl := m } := rfl
@[simp] theorem loadRequest_txRetry : (loadRequest r m s).txRetry = 0 := rfl
@[simp] theorem loadRequest_txNoack : (loadRequest r m s).txNoack = s.txNoack := rfl
@[simp] theorem loadRequest_ackTmr : (loadRequest r m s).ackTmr = s.ackTmr := rfl
@[simp] theorem loadRequest_rx : (loadRequest r m s).rx = s.rx := rfl
@[simp] theorem loadRequest_tx : (loadRequest r m s).tx = s.tx := rfl
@[simp] theorem loadRequest_q : (loadRequest r m s).q = s.q := rfl
@[simp] theorem loadRequest_errCode : (loadRequest r m s).errCode = s.errCode := rfl
@[simp] theorem loadRequest_dropCnt : (loadRequest r m s).dropCnt = s.dropCnt := rfl
@[simp] theorem loadRequest_abortCnt : (loadRequest r m s).abortCnt = s.abortCnt := rfl
@[simp] theorem loadRequest_abandonCnt : (loadRequest r m s).abandonCnt = s.abandonCnt := rfl
@[simp] theorem loadRequest_rxOverrun : (loadRequest r m s).rxOverrun = s.rxOverrun := rfl
@[simp] theorem loadRequest_wireOut : (loadRequest r m s).wireOut = s.wireOut := rfl

end loadRequest_fields

end Sys2Proof.Machine
end

