-- ==== Sys2Proof/Laws/Words.lean ====
section
/-! SUPPORT. The laws of wire order (R11): wire16 and word16, wire32 and word32 are inverses, said through the values of
the bytes. -/

namespace Sys2Proof.Machine

theorem toNat_append8 {n : Nat} (a : BitVec n) (b : Byte) : (a ++ b).toNat = a.toNat * 256 + b.toNat := by
  have hb : b.toNat < 2 ^ 8 := b.isLt
  rw [BitVec.toNat_append, ← Nat.shiftLeft_add_eq_or_of_lt hb, Nat.shiftLeft_eq]

theorem toNat_word16_le (a b : Byte) : (word16 .le a b).toNat = a.toNat + 256 * b.toNat := by
  have := toNat_append8 b a
  simp only [word16]; omega

theorem toNat_word16_be (a b : Byte) : (word16 .be a b).toNat = 256 * a.toNat + b.toNat := by
  have := toNat_append8 a b
  simp only [word16]; omega

theorem toNat_word32_le (a b c d : Byte) :
    (word32 .le a b c d).toNat = a.toNat + 256 * b.toNat + 65536 * c.toNat + 16777216 * d.toNat := by
  have h1 := toNat_append8 (d ++ c ++ b) a
  have h2 := toNat_append8 (d ++ c) b
  have h3 := toNat_append8 d c
  simp only [word32]; omega

theorem toNat_word32_be (a b c d : Byte) :
    (word32 .be a b c d).toNat = 16777216 * a.toNat + 65536 * b.toNat + 256 * c.toNat + d.toNat := by
  have h1 := toNat_append8 (a ++ b ++ c) d
  have h2 := toNat_append8 (a ++ b) c
  have h3 := toNat_append8 a b
  simp only [word32]; omega

theorem toNat_extract8 {n : Nat} (x : BitVec n) (k : Nat) :
    (x.extractLsb' k 8).toNat = x.toNat / 2 ^ k % 256 := by
  rw [BitVec.extractLsb'_toNat, Nat.shiftRight_eq_div_pow]

/-- R11: wire16 after unwire16. -/
@[simp] theorem wire16_word16 (o : WireOrder) (a b : Byte) : wire16 o (word16 o a b) = [a, b] := by
  have ha := a.isLt
  have hb := b.isLt
  cases o <;> simp only [wire16, List.cons.injEq, and_true] <;> constructor <;> apply BitVec.eq_of_toNat_eq <;>
    rw [toNat_extract8] <;> simp only [toNat_word16_le, toNat_word16_be] <;> omega

/-- R11: unwire16 after wire16. -/
@[simp] theorem word16_wire16 (o : WireOrder) (x : U16) :
    word16 o ((wire16 o x).getD 0 0) ((wire16 o x).getD 1 0) = x := by
  have hx := x.isLt
  cases o <;> simp only [wire16, List.getD_cons_zero, List.getD_cons_succ] <;> apply BitVec.eq_of_toNat_eq <;>
    simp only [toNat_word16_le, toNat_word16_be, toNat_extract8] <;> omega

/-- R11: wire32 after unwire32. -/
@[simp] theorem wire32_word32 (o : WireOrder) (a b c d : Byte) : wire32 o (word32 o a b c d) = [a, b, c, d] := by
  have ha := a.isLt
  have hb := b.isLt
  have hc := c.isLt
  have hd := d.isLt
  cases o <;> simp only [wire32, List.cons.injEq, and_true] <;> refine ⟨?_, ?_, ?_, ?_⟩ <;>
    apply BitVec.eq_of_toNat_eq <;> rw [toNat_extract8] <;> simp only [toNat_word32_le, toNat_word32_be] <;> omega

/-- R11: unwire32 after wire32. -/
@[simp] theorem unwire32_wire32 (o : WireOrder) (x : U32) : unwire32 o (wire32 o x) = x := by
  have hx := x.isLt
  cases o <;> simp only [unwire32, wire32, List.getD_cons_zero, List.getD_cons_succ] <;>
    apply BitVec.eq_of_toNat_eq <;> simp only [toNat_word32_le, toNat_word32_be, toNat_extract8] <;> omega

end Sys2Proof.Machine
end

