-- ==== Sys2Proof/Laws/Ops.lean ====
section
/-! SUPPORT. One lemma for each shared operation that says once everything it can do; proofs about instructions cite
these instead of unfolding the operation. -/

namespace Sys2Proof.Machine

/-! ## Ending an operation -/

theorem done_next {r : Result} {s t : State} : done r s = .next t ↔ t = { s with result := r } := by
  simp only [done, Host.Outcome.next.injEq]
  exact eq_comm

theorem done_ne_fault {r : Result} {s : State} {f : Fault} : done r s ≠ .fault f := by simp [done]

theorem done_ne_refused {r : Result} {s : State} {f : Refusal} : done r s ≠ .refused f := by simp [done]

theorem finish_next {r : Result} {e : Except Fault State} {t : State} :
    finish r e = .next t ↔ ∃ s, e = .ok s ∧ t = { s with result := r } := by
  cases e with
  | ok s => simp [finish, done_next]
  | error f => simp [finish]

theorem finish_fault {r : Result} {e : Except Fault State} {f : Fault} : finish r e = .fault f ↔ e = .error f := by
  cases e with
  | ok s => simp [finish, done]
  | error g => simp [finish]

theorem finish_ne_refused {r : Result} {e : Except Fault State} {f : Refusal} : finish r e ≠ .refused f := by
  cases e <;> simp [finish, done]

@[simp] theorem finish_ok (r : Result) (s : State) : finish r (.ok s) = .next { s with result := r } := rfl

/-! ## The RX ring -/

/-- R66: a read of bytes that are held answers them and moves the tail; nothing else changes. -/
theorem rxRead_of_le {s : State} {n : Nat} (hn : n ≤ rxLen s) :
    rxRead n s = some ((Ring.take n s.rx).1, { s with rx := (Ring.take n s.rx).2 }) := by
  simp only [rxRead, Ring.read_of_le (show n ≤ s.rx.ix.dataLen from hn), Option.map_some]

/-- R66: what a read that answers has done. -/
theorem rxRead_spec {s t : State} {n cap : Nat} {bs : List Byte} (h : s.rx.Wf cap) (hr : rxRead n s = some (bs, t)) :
    n ≤ rxLen s ∧ bs = s.rx.contents.take n ∧ t.rx.contents = s.rx.contents.drop n ∧ t.rx.buf = s.rx.buf ∧
      t.rx.Wf cap ∧ t = { s with rx := t.rx } := by
  simp only [rxRead, Option.map_eq_some_iff, Prod.exists, Prod.mk.injEq] at hr
  obtain ⟨bs', r', hread, rfl, rfl⟩ := hr
  obtain ⟨h1, h2, h3, -, h5, h6⟩ := Ring.read_spec h.ix hread
  exact ⟨h1, h2, h3, h5, h6 ▸ h.take n, rfl⟩

/-- R66: a read fails exactly when fewer bytes are held. -/
theorem rxRead_eq_none {s : State} {n : Nat} : rxRead n s = none ↔ rxLen s < n := by
  simp only [rxRead, Option.map_eq_none_iff, Ring.read, rxLen]
  split <;> simp_all

theorem rxLen_eq (s : State) : rxLen s = s.rx.contents.length := (Ring.length_contents s.rx).symm

theorem txLen_eq (s : State) : txLen s = s.tx.contents.length := (Ring.length_contents s.tx).symm

/-! ## The queue and the deframer's requests -/

theorem reqSize_pos (c : Config) (r : Request) : 4 ≤ reqSize c r := by simp only [reqSize]; omega

/-- R73: the fit test, with the free space written out. -/
theorem qFits_iff {r : Request} {s : State} :
    qFits r s = true ↔ reqSize s.cfg r ≤ s.cfg.txqCap.toNat - (s.q.reqs.map (reqSize s.cfg)).sum := by
  unfold qFits
  rw [decide_eq_true_eq]
  rfl

/-- R73: QWrite keeps the queue's shape when the request is a packet. -/
theorem qWrite_wf {s : State} {r : Request} (h : s.q.Wf s.cfg) (hp : isPacket r.hdr r.pl = true) :
    (qWrite r s).q.Wf s.cfg := by
  simp only [qWrite]
  split
  · rename_i hf
    rw [qFits_iff] at hf
    have hpos := reqSize_pos s.cfg r
    have hfits := h.fits
    refine ⟨h.ix.push _, ?_, ?_, ?_⟩
    · intro x hx
      rcases List.mem_append.mp hx with hx | hx
      · exact h.packets x hx
      · rw [List.mem_singleton.mp hx]; exact hp
    · simp only [List.map_append, List.sum_append, List.map_cons, List.map_nil, List.sum_cons, List.sum_nil]
      omega
    · simp only [List.map_append, List.sum_append, List.map_cons, List.map_nil, List.sum_cons, List.sum_nil]
      rw [Indices.dataLen_push h.ix (by omega) (by rw [h.accounts]; omega), h.accounts]
      omega
  · exact h

/-- R75: QRead keeps the queue's shape. -/
theorem qDrop_wf {s : State} {r : Request} (h : s.q.Wf s.cfg) (hr : qFetch s = some r) :
    (qDrop r s).q.Wf s.cfg := by
  simp only [qFetch] at hr
  cases hq : s.q.reqs with
  | nil => simp [hq] at hr
  | cons x rest =>
    simp only [hq, List.head?_cons, Option.some.injEq] at hr
    subst hr
    have hpos := reqSize_pos s.cfg x
    have hfits := h.fits
    have hacc := h.accounts
    rw [hq, List.map_cons, List.sum_cons] at hfits hacc
    refine ⟨h.ix.pull _, ?_, ?_, ?_⟩
    · intro y hy
      apply h.packets y
      rw [hq]
      simp only [qDrop, hq, List.tail_cons] at hy
      exact List.mem_cons_of_mem _ hy
    · simp only [qDrop, hq, List.tail_cons]; omega
    · simp only [qDrop, hq, List.tail_cons]
      rw [Indices.dataLen_pull h.ix (by omega) (by omega), hacc]
      omega

theorem isPacket_mkCtl (c : Config) (t : Byte) : isPacket (mkCtl c t).hdr (mkCtl c t).pl = true := by
  simp [isPacket, mkCtl, maxPayload]

@[simp] theorem reqSize_mkCtl (c : Config) (t : Byte) : reqSize c (mkCtl c t) = c.reqOverhead.toNat + 4 := by
  simp [reqSize, mkCtl]

theorem sendCtl_wf {s : State} (h : s.q.Wf s.cfg) (t : Byte) : (sendCtl t s).q.Wf s.cfg :=
  qWrite_wf h (isPacket_mkCtl s.cfg t)

/-- R189: SendCtl queues the request when it fits and counts it otherwise, in any state `u` that has the queue, the
counter and the configuration of `s`. -/
theorem sendCtl_ctlSent {s u t : State} (ty : Byte) (hcfg : u.cfg = s.cfg) (hq : u.q = s.q)
    (hd : u.dropCnt = s.dropCnt) (htq : t.q = (sendCtl ty u).q) (htd : t.dropCnt = (sendCtl ty u).dropCnt) :
    CtlSent ty s t := by
  have hfit : qFits (mkCtl u.cfg ty) u = true ↔ s.cfg.reqOverhead.toNat + 4 + qUsed s ≤ s.cfg.txqCap.toNat := by
    rw [qFits_iff, reqSize_mkCtl, hcfg, hq]
    unfold qUsed
    omega
  constructor
  · intro h
    rw [sendCtl_q, qWrite_q, if_pos (hfit.mpr h)] at htq
    rw [sendCtl_dropCnt, if_pos (hfit.mpr h)] at htd
    rw [htq, htd, hd, hq, hcfg]
    exact ⟨rfl, rfl⟩
  · intro h
    rw [sendCtl_q, qWrite_q, if_neg (fun hx => h (hfit.mp hx))] at htq
    rw [sendCtl_dropCnt, if_neg (fun hx => h (hfit.mp hx))] at htd
    rw [htq, htd, hd, hq]
    exact ⟨rfl, rfl⟩

/-- R302: what RxFail does. -/
theorem rxFail_recovered (e : Err) (s : State) :
    Recovered e (flushes s.cfg e) s { rxFail e s with result := .none } where
  err := rfl
  flushed h := by
    show (if flushes s.cfg e then s.rx.clear else s.rx) = _
    rw [if_pos h]; rfl
  kept h := by
    show (if flushes s.cfg e then s.rx.clear else s.rx) = _
    rw [h]; rfl
  nack := by
    apply sendCtl_ctlSent (u := flushFor e (setErr e s)) s.cfg.nackType <;> rfl
  state := rfl
  index := rfl
  timer := rfl
  frame := by simp only [rxFail, restartRx, sendCtl, qWrite, flushFor, setErr]

/-- R302 for the conditions that always flush. -/
theorem rxFail_recovered_flush {e : Err} (h1 : e ≠ .badChecksum) (h2 : e ≠ .badPostamble) (s : State) :
    Recovered e true s { rxFail e s with result := .none } := by
  have h := rxFail_recovered e s
  have hf : flushes s.cfg e = true := by simp [flushes, h1, h2]
  rwa [hf] at h

/-- R302 for the two conditions that flush as FLUSH_ON_TRAILER_ERROR says. -/
theorem rxFail_recovered_trailer {e : Err} (h : e = .badChecksum ∨ e = .badPostamble) (s : State) :
    Recovered e s.cfg.flushOnTrailerError s { rxFail e s with result := .none } := by
  have h1 := rxFail_recovered e s
  have hf : flushes s.cfg e = s.cfg.flushOnTrailerError := by rcases h with rfl | rfl <;> simp [flushes]
  rwa [hf] at h1

/-! ## The send attempt -/

/-- R232: an attempt writes only the TX ring, err_code and abort_cnt. -/
theorem sendFields_frame (fs : List (List Byte)) :
    ∀ s : State, sendFields fs s = { s with tx := (sendFields fs s).tx, errCode := (sendFields fs s).errCode,
                                            abortCnt := (sendFields fs s).abortCnt } := by
  induction fs with
  | nil => intro s; rfl
  | cons f fs ih =>
    intro s
    simp only [sendFields]
    split
    · rw [ih (txWrite f s)]; rfl
    · rfl

/-- R232, R233: an attempt either writes every field, or the fields before the first that does not fit. -/
theorem sendFields_spec (fs : List (List Byte)) :
    ∀ {s : State} {cap : Nat}, s.tx.Wf cap →
      (sendFields fs s).tx.Wf cap ∧
      (s.tx.ix.dataLen + fs.flatten.length ≤ cap →
        (sendFields fs s).tx.contents = s.tx.contents ++ fs.flatten ∧ (sendFields fs s).errCode = s.errCode ∧
        (sendFields fs s).abortCnt = s.abortCnt) ∧
      (¬ s.tx.ix.dataLen + fs.flatten.length ≤ cap →
        ∃ pre f post, fs = pre ++ f :: post ∧ s.tx.ix.dataLen + pre.flatten.length ≤ cap ∧
          ¬ s.tx.ix.dataLen + pre.flatten.length + f.length ≤ cap ∧
          (sendFields fs s).tx.contents = s.tx.contents ++ pre.flatten ∧ (sendFields fs s).errCode = 10 ∧
          (sendFields fs s).abortCnt = s.abortCnt + 1) := by
  induction fs with
  | nil =>
    intro s cap h
    refine ⟨h, fun _ => by simp [sendFields], fun hn => absurd ?_ hn⟩
    simpa using Indices.dataLen_le h.ix
  | cons f fs ih =>
    intro s cap h
    have hok := Ring.writeResult_ok_iff h.ix f
    obtain ⟨hw1, hw2, hw3⟩ := Ring.write_spec h f
    simp only [List.flatten_cons, List.length_append]
    by_cases hfit : s.tx.ix.dataLen + f.length ≤ cap
    · have hs : sendFields (f :: fs) s = sendFields fs (txWrite f s) := by
        show (if txWriteResult f s = .ok then sendFields fs (txWrite f s) else abortSend s) = _
        exact if_pos (hok.mpr hfit)
      have hc := hw2 hfit
      have hlen : (txWrite f s).tx.ix.dataLen = s.tx.ix.dataLen + f.length := by
        rw [← Ring.length_contents, txWrite_tx, hc]; simp
      obtain ⟨h1, h2, h3⟩ := ih (s := txWrite f s) hw1
      rw [hs]
      rw [hlen] at h2 h3
      refine ⟨h1, fun hall => ?_, fun hnot => ?_⟩
      · obtain ⟨e1, e2, e3⟩ := h2 (by omega)
        refine ⟨?_, e2, e3⟩
        rw [e1, txWrite_tx, hc, List.append_assoc]
      · obtain ⟨pre, g, post, e1, e2, e3, e4, e5, e6⟩ := h3 (by omega)
        refine ⟨f :: pre, g, post, by rw [e1]; rfl, ?_, ?_, ?_, e5, e6⟩
        · simp only [List.flatten_cons, List.length_append]; omega
        · simp only [List.flatten_cons, List.length_append]; omega
        · rw [e4, txWrite_tx, hc, List.flatten_cons, List.append_assoc]
    · have hs : sendFields (f :: fs) s = abortSend s := by
        show (if txWriteResult f s = .ok then sendFields fs (txWrite f s) else abortSend s) = _
        exact if_neg (fun hx => hfit (hok.mp hx))
      rw [hs]
      refine ⟨h, fun hall => absurd (by omega) hfit, fun _ => ⟨[], f, fs, rfl, ?_, ?_, ?_, rfl, rfl⟩⟩
      · simpa using Indices.dataLen_le h.ix
      · simpa using hfit
      · simp

theorem write_storage {r : Ring} {cap : Nat} (h : r.Wf cap) (s : List Byte) {a : Nat}
    (ha : ∀ i, i < (r.write s).contents.length - r.contents.length → a ≠ (r.ix.head + i) % cap) :
    Memory.read (r.write s).buf a = Memory.read r.buf a := by
  have hok := Ring.writeResult_ok_iff h.ix s
  have hc := h.ix.cap_eq
  have hh := h.ix.head_lt
  by_cases h0 : s.length = 0
  · simp [Ring.write, h0]
  · by_cases hfit : r.ix.dataLen + s.length ≤ cap
    · have hw : r.write s = r.append s := by
        simp only [Ring.write, if_neg h0]
        rw [if_pos (hok.mpr hfit)]
      rw [hw, Ring.contents_append h (by omega) hfit] at ha
      rw [hw]
      refine (Ring.grow_read s h.canonical (by omega) (by omega)).2 a fun i hi => ?_
      rw [hc]
      exact ha i (by simpa using hi)
    · rw [(Ring.write_spec h s).2.2 hfit]

theorem write_ends {r : Ring} {cap : Nat} (h : r.Wf cap) (s : List Byte) :
    (r.write s).ix.cap = r.ix.cap ∧ (r.write s).ix.tail = r.ix.tail := by
  simp only [Ring.write]
  split
  · exact ⟨rfl, rfl⟩
  · split
    · rw [Ring.append_ix h.ix]; exact ⟨rfl, rfl⟩
    · exact ⟨rfl, rfl⟩

theorem sendFields_ends (fs : List (List Byte)) :
    ∀ {s : State} {cap : Nat}, s.tx.Wf cap →
      (sendFields fs s).tx.ix.cap = s.tx.ix.cap ∧ (sendFields fs s).tx.ix.tail = s.tx.ix.tail := by
  induction fs with
  | nil => intro s cap _; exact ⟨rfl, rfl⟩
  | cons f fs ih =>
    intro s cap h
    simp only [sendFields]
    split
    · have hw := write_ends h f
      have := ih (s := txWrite f s) (Ring.write_spec h f).1
      exact ⟨this.1.trans hw.1, this.2.trans hw.2⟩
    · exact ⟨rfl, rfl⟩

theorem sendFields_length_le (fs : List (List Byte)) :
    ∀ {s : State} {cap : Nat}, s.tx.Wf cap → s.tx.contents.length ≤ (sendFields fs s).tx.contents.length := by
  intro s cap h
  obtain ⟨-, h1, h2⟩ := sendFields_spec fs h
  by_cases hfit : s.tx.ix.dataLen + fs.flatten.length ≤ cap
  · rw [(h1 hfit).1]; simp
  · obtain ⟨pre, f, post, -, -, -, e, -⟩ := h2 hfit
    rw [e]; simp

/-- R232: the only storage an attempt writes is at the places after the old head. -/
theorem sendFields_storage (fs : List (List Byte)) :
    ∀ {s : State} {cap : Nat} {a : Nat}, s.tx.Wf cap →
      (∀ i, i < (sendFields fs s).tx.contents.length - s.tx.contents.length → a ≠ (s.tx.ix.head + i) % cap) →
      Memory.read (sendFields fs s).tx.buf a = Memory.read s.tx.buf a := by
  induction fs with
  | nil => intro s cap a _ _; rfl
  | cons f fs ih =>
    intro s cap a h ha
    have hok := Ring.writeResult_ok_iff h.ix f
    by_cases hfit : s.tx.ix.dataLen + f.length ≤ cap
    · have hs : sendFields (f :: fs) s = sendFields fs (txWrite f s) := by
        show (if txWriteResult f s = .ok then sendFields fs (txWrite f s) else abortSend s) = _
        exact if_pos (hok.mpr hfit)
      obtain ⟨hw, hcont, -⟩ := Ring.write_spec h f
      have hlen : (txWrite f s).tx.contents.length = s.tx.contents.length + f.length := by
        rw [txWrite_tx, hcont hfit]; simp
      have hle := sendFields_length_le fs (s := txWrite f s) hw
      have hcap := h.ix.cap_eq
      have hd := Indices.dataLen_le h.ix
      have hhead : (txWrite f s).tx.ix.head = (s.tx.ix.head + f.length) % cap := by
        have h1 := Ring.head_eq hw.ix
        have h2 := Ring.head_eq h.ix
        have h3 : (s.tx.write f).ix.dataLen = s.tx.ix.dataLen + f.length := by
          simpa using hlen
        rw [txWrite_tx, h1, (write_ends h f).2, h3, h2, Nat.mod_add_mod, Nat.add_assoc]
      rw [hs] at ha ⊢
      rw [ih hw, txWrite_tx]
      · refine write_storage h f fun i hi => ha i ?_
        rw [txWrite_tx] at hlen hle
        rw [hlen] at hi hle
        omega
      · intro i hi
        rw [hhead, Nat.mod_add_mod, Nat.add_assoc]
        exact ha (f.length + i) (by omega)
    · have hs : sendFields (f :: fs) s = abortSend s := by
        show (if txWriteResult f s = .ok then sendFields fs (txWrite f s) else abortSend s) = _
        exact if_neg (fun hx => hfit (hok.mp hx))
      rw [hs]; rfl

@[simp] theorem length_wire32 (o : WireOrder) (x : U32) : (wire32 o x).length = 4 := by cases o <;> rfl

@[simp] theorem length_wire16 (o : WireOrder) (x : U16) : (wire16 o x).length = 2 := by cases o <;> rfl

@[simp] theorem length_hdrPack (o : WireOrder) (h : Header) : (hdrPack o h).length = 4 := by simp [hdrPack]

/-- R149: a frame is 16 bytes and its payload. -/
@[simp] theorem length_frameEncode (c : Config) (h : Header) (pl : List Byte) :
    (frameEncode c h pl).length = 16 + pl.length := by
  simp [frameEncode]; omega

/-- R232, R149: the fields of a packet, joined, are its frame. -/
theorem flatten_frameFields (c : Config) {h : Header} {pl : List Byte} (hl : pl.length = h.len.toNat) :
    (frameFields c h pl).flatten = frameEncode c h pl := by
  simp only [frameFields, frameEncode]
  by_cases h0 : h.len.toNat > 0
  · simp [h0]
  · have : pl = [] := List.eq_nil_of_length_eq_zero (by omega)
    simp [h0, this]

/-- R232 to R234: what an attempt for the request in tx_req does. -/
theorem send_spec {s : State} {cap : Nat} (h : s.tx.Wf cap) (hl : s.txReq.hdr.len.toNat ≤ maxPayload) :
    ∃ t, send s = .ok t ∧ t.tx.Wf cap ∧
      Attempted s.txReq.hdr (Memory.readBytes s.txReq.pl 0 s.txReq.hdr.len.toNat) s.errCode s t ∧
      t = { s with tx := t.tx, errCode := t.errCode, abortCnt := t.abortCnt } := by
  have hm : memRead s.txReq.pl 0 s.txReq.hdr.len.toNat
      = some (Memory.readBytes s.txReq.pl 0 s.txReq.hdr.len.toNat) := by
    simp only [memRead]; rw [if_pos (by omega)]
  have hlen : (Memory.readBytes s.txReq.pl 0 s.txReq.hdr.len.toNat).length = s.txReq.hdr.len.toNat := by simp
  generalize hpl : Memory.readBytes s.txReq.pl 0 s.txReq.hdr.len.toNat = pl at hm hlen
  have hflat := flatten_frameFields s.cfg hlen
  obtain ⟨h1, h2, h3⟩ := sendFields_spec (frameFields s.cfg s.txReq.hdr pl) h
  rw [hflat, length_frameEncode] at h2 h3
  refine ⟨sendFields (frameFields s.cfg s.txReq.hdr pl) s, by simp only [send, hm], h1, ?_, sendFields_frame _ _⟩
  have hcap := h.ix.cap_eq
  refine ⟨?_, ?_, ?_, sendFields_ends _ h⟩
  · intro hfit
    rw [hcap] at hfit
    exact h2 hfit
  · intro hn
    rw [hcap] at hn ⊢
    exact h3 hn
  · intro a ha
    refine sendFields_storage _ h fun i hi => ?_
    have := ha i hi
    simpa [Indices.step, hcap] using this

/-- R234: EnterTransmit, in a state whose TX ring is well formed and whose tx_req holds at most 256 bytes. -/
theorem enterTransmit_spec {s : State} {cap : Nat} (h : s.tx.Wf cap) (hl : s.txReq.hdr.len.toNat ≤ maxPayload) :
    ∃ t, enterTransmit s = .ok t ∧ t.tx.Wf cap ∧
      Attempted s.txReq.hdr (Memory.readBytes s.txReq.pl 0 s.txReq.hdr.len.toNat) s.errCode s t ∧
      t = { s with tx := t.tx, errCode := t.errCode, abortCnt := t.abortCnt, txState := .transmitPacket,
                   txNoack := !s.txReq.ackReq,
                   ackTmr := if s.txReq.ackReq then timerStart s.cfg.tAck else s.ackTmr } := by
  obtain ⟨t, h1, h2, h3, h4⟩ := send_spec (s := enterTransmitRegs s) h hl
  exact ⟨t, h1, h2, ⟨h3.sent, h3.aborted, h3.storage, h3.ends⟩, h4⟩

/-- R235: a resend records why, then exits and enters TRANSMIT_PACKET. -/
theorem resend_spec {s : State} {cap : Nat} (e : Err) (h : s.tx.Wf cap)
    (hl : s.txReq.hdr.len.toNat ≤ maxPayload) :
    ∃ t, resend e s = .ok t ∧ t.tx.Wf cap ∧
      Attempted s.txReq.hdr (Memory.readBytes s.txReq.pl 0 s.txReq.hdr.len.toNat) e.code s t ∧
      t = { s with tx := t.tx, errCode := t.errCode, abortCnt := t.abortCnt, txState := .transmitPacket,
                   txNoack := !s.txReq.ackReq,
                   ackTmr := if s.txReq.ackReq then timerStart s.cfg.tAck else timerStop s.ackTmr } := by
  obtain ⟨t, h1, h2, h3, h4⟩ := enterTransmit_spec (s := exitTransmit (setErr e s)) h hl
  exact ⟨t, h1, h2, ⟨h3.sent, h3.aborted, h3.storage, h3.ends⟩, h4⟩

end Sys2Proof.Machine
end

