-- ==== Sys2Proof/Laws/Deframer.lean ====
section
/-! SUPPORT. Everything one poll of the deframer can do, said once: `rxPoll_cases` for a poll that answers, and the value
of each phase's poll where it has bytes enough. -/

namespace Sys2Proof.Machine

/-- The RX ring with its `n` oldest bytes consumed. -/
def rxTaken (n : Nat) (s : State) : State := { s with rx := (Ring.take n s.rx).2 }

@[simp] theorem rxTaken_cfg (n : Nat) (s : State) : (rxTaken n s).cfg = s.cfg := rfl
@[simp] theorem rxTaken_rxState (n : Nat) (s : State) : (rxTaken n s).rxState = s.rxState := rfl
@[simp] theorem rxTaken_rxHdr (n : Nat) (s : State) : (rxTaken n s).rxHdr = s.rxHdr := rfl
@[simp] theorem rxTaken_rx (n : Nat) (s : State) : (rxTaken n s).rx = (Ring.take n s.rx).2 := rfl

theorem length_one {l : List Byte} (h : l.length = 1) : ∃ a, l = [a] := List.length_eq_one_iff.mp h

theorem length_four {l : List Byte} (h : l.length = 4) : ∃ a b c d, l = [a, b, c, d] := by
  match l, h with
  | [a, b, c, d], _ => exact ⟨a, b, c, d, rfl⟩

/-! ## The poll of each state -/

theorem rxPoll_waitPreamble {s : State} (h : s.rxState = .waitPreamble) : rxPoll s = pollPreamble s := by
  simp only [rxPoll, h]

theorem rxPoll_waitHeader {s : State} (h : s.rxState = .waitHeader) : rxPoll s = pollHeader s := by
  simp only [rxPoll, h]

theorem rxPoll_waitPayload {s : State} (h : s.rxState = .waitPayload) : rxPoll s = pollPayload s := by
  simp only [rxPoll, h]

theorem rxPoll_waitCrcPost {s : State} (h : s.rxState = .waitCrcPost) : rxPoll s = pollTrailer s := by
  simp only [rxPoll, h]

/-- R181: a poll that answers ends the operation with the state it answers. -/
theorem exec_rxPoll_of {s t : State} (h : rxPoll s = .ok t) : exec .rxPoll s = .next { t with result := .none } := by
  rw [exec, execRxPoll, h, finish_ok]

/-! ## What a byte of the preamble does -/

theorem preambleStep_mismatch {b : Byte} {s : State} (h : b ≠ preByte s.cfg s.preIdx) :
    preambleStep b s = { s with preIdx := 0 } := if_neg h

theorem preambleStep_advance {b : Byte} {s : State} (h : b = preByte s.cfg s.preIdx) (h3 : s.preIdx ≠ 3#2) :
    preambleStep b s = { s with preIdx := s.preIdx + 1 } := (if_pos h).trans (if_neg h3)

theorem preambleStep_last {b : Byte} {s : State} (h : b = preByte s.cfg s.preIdx) (h3 : s.preIdx = 3#2) :
    preambleStep b s = enterHeader s := (if_pos h).trans (if_pos h3)

/-- R182: a poll of WAIT_PREAMBLE that finds a byte. -/
theorem pollPreamble_of_le {s : State} (h : 1 ≤ rxLen s) :
    ∃ b, (Ring.take 1 s.rx).1 = [b] ∧ pollPreamble s = .ok (preambleStep b (rxTaken 1 s)) := by
  obtain ⟨b, hb⟩ := length_one (Ring.length_take 1 s.rx)
  refine ⟨b, hb, ?_⟩
  simp only [pollPreamble, if_neg (show rxLen s ≠ 0 by omega), rxRead_of_le h, hb, rxTaken]

theorem pollPreamble_of_empty {s : State} (h : rxLen s = 0) : pollPreamble s = .ok s := by
  simp only [pollPreamble, if_pos h]

/-- R183: a poll of WAIT_HEADER that finds a header. -/
theorem pollHeader_of_le {s : State} (hr : s.rxTmr.raised = false) (h : 4 ≤ rxLen s) :
    ∃ b0 b1 b2 b3, (Ring.take 4 s.rx).1 = [b0, b1, b2, b3] ∧
      pollHeader s = .ok (headerStep (hdrUnpack s.cfg.wireOrder ⟨b0, b1, b2, b3⟩) (rxTaken 4 s)) := by
  obtain ⟨b0, b1, b2, b3, hb⟩ := length_four (Ring.length_take 4 s.rx)
  refine ⟨b0, b1, b2, b3, hb, ?_⟩
  simp only [pollHeader, hr, if_neg (show ¬ rxLen s < 4 by omega), rxRead_of_le h, hb, rxTaken]
  rfl

theorem pollHeader_of_short {s : State} (hr : s.rxTmr.raised = false) (h : rxLen s < 4) : pollHeader s = .ok s := by
  simp only [pollHeader, hr, if_pos h]
  rfl

theorem pollHeader_of_raised {s : State} (hr : s.rxTmr.raised = true) :
    pollHeader s = .ok (rxFail .timeoutHeader s) := by
  simp only [pollHeader, hr]
  rfl

/-- R184: a poll of WAIT_PAYLOAD that finds the whole payload. -/
theorem pollPayload_of_le {s : State} (hr : s.rxTmr.raised = false) (hl : s.rxHdr.len.toNat ≤ maxPayload)
    (h : s.rxHdr.len.toNat ≤ rxLen s) :
    pollPayload s = .ok (enterTrailer { rxTaken s.rxHdr.len.toNat s with
      rxPl := Memory.writeBytes s.rxPl 0 (Ring.take s.rxHdr.len.toNat s.rx).1 }) := by
  have hm : memWrite s.rxPl 0 s.rxHdr.len.toNat (Ring.take s.rxHdr.len.toNat s.rx).1
      = some (Memory.writeBytes s.rxPl 0 (Ring.take s.rxHdr.len.toNat s.rx).1) := by
    simp only [memWrite]
    rw [if_pos ⟨by omega, Ring.length_take _ _⟩]
  simp only [pollPayload, hr, if_neg (Nat.not_lt.mpr h), rxRead_of_le h, hm, rxTaken]
  rfl

theorem pollPayload_of_short {s : State} (hr : s.rxTmr.raised = false) (h : rxLen s < s.rxHdr.len.toNat) :
    pollPayload s = .ok s := by
  simp only [pollPayload, hr, if_pos h]
  rfl

theorem pollPayload_of_raised {s : State} (hr : s.rxTmr.raised = true) :
    pollPayload s = .ok (rxFail .timeoutPayload s) := by
  simp only [pollPayload, hr]
  rfl

/-- R185: a poll of WAIT_CRC_POST that finds the trailer. -/
theorem pollTrailer_of_le {s : State} (hr : s.rxTmr.raised = false) (hl : s.rxHdr.len.toNat ≤ maxPayload)
    (h : 8 ≤ rxLen s) :
    pollTrailer s = .ok (trailerStep
      (frameChecksum s.cfg s.rxHdr (Memory.readBytes s.rxPl 0 s.rxHdr.len.toNat))
      (unwire32 s.cfg.wireOrder ((Ring.take 8 s.rx).1.take 4))
      (unwire32 s.cfg.wireOrder ((Ring.take 8 s.rx).1.drop 4)) (rxTaken 8 s)) := by
  have hm : memRead s.rxPl 0 s.rxHdr.len.toNat = some (Memory.readBytes s.rxPl 0 s.rxHdr.len.toNat) := by
    simp only [memRead]
    rw [if_pos (by omega)]
  simp only [pollTrailer, hr, if_neg (Nat.not_lt.mpr h), rxRead_of_le h, hm, rxTaken]
  rfl

theorem pollTrailer_of_short {s : State} (hr : s.rxTmr.raised = false) (h : rxLen s < 8) :
    pollTrailer s = .ok s := by
  simp only [pollTrailer, hr, if_pos h]
  rfl

theorem pollTrailer_of_raised {s : State} (hr : s.rxTmr.raised = true) :
    pollTrailer s = .ok (rxFail .timeoutTrailer s) := by
  simp only [pollTrailer, hr]
  rfl

/-- R181 to R186: everything a poll that answers can have done. -/
theorem rxPoll_cases {s t : State} (h : rxPoll s = .ok t) :
    t = s ∨
    (s.rxState = .waitPreamble ∧ 1 ≤ rxLen s ∧ ∃ b, t = preambleStep b (rxTaken 1 s)) ∨
    (s.rxTmr.raised = true ∧ ∃ e, t = rxFail e s ∧
      (s.rxState = .waitHeader ∧ e = .timeoutHeader ∨ s.rxState = .waitPayload ∧ e = .timeoutPayload ∨
        s.rxState = .waitCrcPost ∧ e = .timeoutTrailer)) ∨
    (s.rxState = .waitHeader ∧ 4 ≤ rxLen s ∧ ∃ hd, t = headerStep hd (rxTaken 4 s)) ∨
    (s.rxState = .waitPayload ∧ s.rxHdr.len.toNat ≤ rxLen s ∧ ∃ m,
      memWrite s.rxPl 0 s.rxHdr.len.toNat (Ring.take s.rxHdr.len.toNat s.rx).1 = some m ∧
      t = enterTrailer { rxTaken s.rxHdr.len.toNat s with rxPl := m }) ∨
    (s.rxState = .waitCrcPost ∧ 8 ≤ rxLen s ∧ ∃ sum received post, t = trailerStep sum received post (rxTaken 8 s)) := by
  cases hs : s.rxState with
  | waitPreamble =>
    simp only [rxPoll, hs] at h
    by_cases hl : rxLen s = 0
    · rw [pollPreamble_of_empty hl, Except.ok.injEq] at h
      exact .inl h.symm
    · obtain ⟨b, -, hb⟩ := pollPreamble_of_le (s := s) (by omega)
      rw [hb, Except.ok.injEq] at h
      exact .inr (.inl ⟨rfl, by omega, b, h.symm⟩)
  | waitHeader =>
    simp only [rxPoll, hs] at h
    cases hr : s.rxTmr.raised with
    | true =>
      rw [pollHeader_of_raised hr, Except.ok.injEq] at h
      exact .inr (.inr (.inl ⟨rfl, _, h.symm, .inl ⟨rfl, rfl⟩⟩))
    | false =>
      by_cases hl : rxLen s < 4
      · rw [pollHeader_of_short hr hl, Except.ok.injEq] at h
        exact .inl h.symm
      · obtain ⟨b0, b1, b2, b3, -, hb⟩ := pollHeader_of_le hr (by omega)
        rw [hb, Except.ok.injEq] at h
        exact .inr (.inr (.inr (.inl ⟨rfl, by omega, _, h.symm⟩)))
  | waitPayload =>
    simp only [rxPoll, hs] at h
    cases hr : s.rxTmr.raised with
    | true =>
      rw [pollPayload_of_raised hr, Except.ok.injEq] at h
      exact .inr (.inr (.inl ⟨rfl, _, h.symm, .inr (.inl ⟨rfl, rfl⟩)⟩))
    | false =>
      by_cases hl : rxLen s < s.rxHdr.len.toNat
      · rw [pollPayload_of_short hr hl, Except.ok.injEq] at h
        exact .inl h.symm
      · refine .inr (.inr (.inr (.inr (.inl ⟨rfl, by omega, ?_⟩))))
        simp only [pollPayload, hr, Bool.false_eq_true, if_false, if_neg hl, rxRead_of_le (Nat.not_lt.mp hl)] at h
        split at h
        · rename_i m hm
          rw [Except.ok.injEq] at h
          exact ⟨m, hm, h.symm⟩
        · cases h
  | waitCrcPost =>
    simp only [rxPoll, hs] at h
    cases hr : s.rxTmr.raised with
    | true =>
      rw [pollTrailer_of_raised hr, Except.ok.injEq] at h
      exact .inr (.inr (.inl ⟨rfl, _, h.symm, .inr (.inr ⟨rfl, rfl⟩)⟩))
    | false =>
      by_cases hl : rxLen s < 8
      · rw [pollTrailer_of_short hr hl, Except.ok.injEq] at h
        exact .inl h.symm
      · refine .inr (.inr (.inr (.inr (.inr ⟨rfl, by omega, ?_⟩))))
        simp only [pollTrailer, hr, Bool.false_eq_true, if_false, if_neg hl, rxRead_of_le (Nat.not_lt.mp hl)] at h
        split at h
        · rw [Except.ok.injEq] at h
          exact ⟨_, _, _, h.symm⟩
        · cases h
  | packetReady =>
    simp only [rxPoll, hs, Except.ok.injEq] at h
    exact .inl h.symm

/-! ## What a poll leaves alone -/

theorem preambleStep_frame (b : Byte) (s : State) :
    preambleStep b s = { s with preIdx := (preambleStep b s).preIdx, rxState := (preambleStep b s).rxState,
                                rxTmr := (preambleStep b s).rxTmr } := by
  unfold preambleStep
  split
  · split <;> rfl
  · rfl

theorem rxFail_frame (e : Err) (s : State) :
    rxFail e s = { s with errCode := e.code, rx := (rxFail e s).rx, q := (sendCtl s.cfg.nackType s).q,
                          dropCnt := (sendCtl s.cfg.nackType s).dropCnt, rxState := .waitPreamble, preIdx := 0,
                          rxTmr := timerStop s.rxTmr } := by
  apply State.ext <;> simp only [rxFail_cfg, rxFail_built, rxFail_inbox, rxFail_result, rxFail_freeCtr,
    rxFail_rxState, rxFail_preIdx, rxFail_rxHdr, rxFail_rxPl, rxFail_rxTmr, rxFail_txState, rxFail_txReq,
    rxFail_txRetry, rxFail_txNoack, rxFail_ackTmr, rxFail_tx, rxFail_q, rxFail_errCode, rxFail_dropCnt,
    rxFail_abortCnt, rxFail_abandonCnt, rxFail_rxOverrun, rxFail_wireOut]

theorem headerStep_valid {h : Header} {s : State} (hv : hdrValid s.cfg h = true) :
    headerStep h s = if h.len = 0 then enterTrailer { s with rxHdr := h } else enterPayload { s with rxHdr := h } :=
  if_pos hv

theorem headerStep_invalid {h : Header} {s : State} (hv : hdrValid s.cfg h = false) :
    headerStep h s = rxFail .badHeader s :=
  if_neg (by rw [hv]; exact Bool.false_ne_true)

/-- R183: a header either is stored, and then it is valid, or is rejected by the recovery. -/
theorem headerStep_cases (h : Header) (s : State) :
    (hdrValid s.cfg h = true ∧ (h.len = 0 ∧ headerStep h s = enterTrailer { s with rxHdr := h } ∨
      h.len ≠ 0 ∧ headerStep h s = enterPayload { s with rxHdr := h })) ∨
    (hdrValid s.cfg h = false ∧ headerStep h s = rxFail .badHeader s) := by
  cases hv : hdrValid s.cfg h with
  | true =>
    by_cases hl : h.len = 0
    · exact .inl ⟨rfl, .inl ⟨hl, (headerStep_valid hv).trans (if_pos hl)⟩⟩
    · exact .inl ⟨rfl, .inr ⟨hl, (headerStep_valid hv).trans (if_neg hl)⟩⟩
  | false => exact .inr ⟨rfl, headerStep_invalid hv⟩

/-- R185: a trailer is rejected by one of two recoveries, or the packet is held, with an ACK or without. -/
theorem trailerStep_cases (sum received post : U32) (s : State) :
    (received ≠ sum ∧ trailerStep sum received post s = rxFail .badChecksum s) ∨
    (received = sum ∧ post ≠ postamble ∧ trailerStep sum received post s = rxFail .badPostamble s) ∨
    (received = sum ∧ post = postamble ∧ isAckPkt s.cfg s.rxHdr = true ∧
      trailerStep sum received post s = enterReady s) ∨
    (received = sum ∧ post = postamble ∧ isAckPkt s.cfg s.rxHdr = false ∧
      trailerStep sum received post s = enterReady (sendCtl s.cfg.ackType s)) := by
  by_cases h1 : received = sum
  · by_cases h2 : post = postamble
    · cases ha : isAckPkt s.cfg s.rxHdr with
      | true =>
        refine .inr (.inr (.inl ⟨h1, h2, rfl, ?_⟩))
        simp only [trailerStep, h1, h2, ha, ne_eq, not_true_eq_false, if_false, if_true]
      | false =>
        refine .inr (.inr (.inr ⟨h1, h2, rfl, ?_⟩))
        simp only [trailerStep, h1, h2, ha, ne_eq, not_true_eq_false, if_false, Bool.false_eq_true]
    · refine .inr (.inl ⟨h1, h2, ?_⟩)
      simp only [trailerStep, h1, h2, ne_eq, not_true_eq_false, not_false_eq_true, if_false, if_true]
  · refine .inl ⟨h1, ?_⟩
    simp only [trailerStep, h1, ne_eq, not_false_eq_true, if_true]

theorem headerStep_frame (h : Header) (s : State) :
    headerStep h s = { s with rx := (headerStep h s).rx, rxState := (headerStep h s).rxState,
                              preIdx := (headerStep h s).preIdx, rxHdr := (headerStep h s).rxHdr,
                              rxTmr := (headerStep h s).rxTmr, q := (headerStep h s).q,
                              errCode := (headerStep h s).errCode, dropCnt := (headerStep h s).dropCnt } := by
  rcases headerStep_cases h s with ⟨-, ⟨-, e⟩ | ⟨-, e⟩⟩ | ⟨-, e⟩
  · rw [e]; rfl
  · rw [e]; rfl
  · rw [e, rxFail_frame]

theorem trailerStep_frame (sum received post : U32) (s : State) :
    trailerStep sum received post s =
      { s with rx := (trailerStep sum received post s).rx, rxState := (trailerStep sum received post s).rxState,
               preIdx := (trailerStep sum received post s).preIdx, rxTmr := (trailerStep sum received post s).rxTmr,
               q := (trailerStep sum received post s).q, errCode := (trailerStep sum received post s).errCode,
               dropCnt := (trailerStep sum received post s).dropCnt } := by
  rcases trailerStep_cases sum received post s with ⟨-, e⟩ | ⟨-, -, e⟩ | ⟨-, -, -, e⟩ | ⟨-, -, -, e⟩
  · rw [e, rxFail_frame]
  · rw [e, rxFail_frame]
  · rw [e]; rfl
  · rw [e]; rfl

/-- R181: everything a poll of the deframer may write. -/
theorem rxPoll_frame {s t : State} (h : rxPoll s = .ok t) :
    t = { s with rx := t.rx, rxState := t.rxState, preIdx := t.preIdx, rxHdr := t.rxHdr, rxPl := t.rxPl,
                 rxTmr := t.rxTmr, q := t.q, errCode := t.errCode, dropCnt := t.dropCnt } := by
  rcases rxPoll_cases h with rfl | ⟨-, -, b, rfl⟩ | ⟨-, e, rfl, -⟩ | ⟨-, -, hd, rfl⟩ | ⟨-, -, m, -, rfl⟩ |
    ⟨-, -, a, b, c, rfl⟩
  · rfl
  · rw [preambleStep_frame]; rfl
  · rw [rxFail_frame]
  · rw [headerStep_frame]; rfl
  · rfl
  · rw [trailerStep_frame]; rfl

end Sys2Proof.Machine
end

