-- ==== Sys2Proof/Laws/Delivery.lean ====
section
/-! SUPPORT. Everything one operation of Transmit Delivery can do, said once: `txPoll_cases` and `nackIn_cases`. -/

namespace Sys2Proof.Machine

/-- R234: the state after EnterTransmit, from the state it was entered in, but for what the attempt itself leaves in the
TX ring and the status. -/
def entered (s u : State) : State :=
  { s with tx := u.tx, errCode := u.errCode, abortCnt := u.abortCnt, txState := .transmitPacket,
           txNoack := !s.txReq.ackReq, ackTmr := if s.txReq.ackReq then timerStart s.cfg.tAck else s.ackTmr }

/-- R234: an EnterTransmit that answers changes only the registers R234 names, the TX ring and what an abort writes. -/
theorem enterTransmit_frame {s t : State} (h : enterTransmit s = .ok t) :
    s.txReq.hdr.len.toNat ≤ maxPayload ∧ t = entered s t := by
  simp only [enterTransmit, send] at h
  split at h
  · rename_i pl hm
    have hle := (memRead_spec hm).1
    rw [enterTransmitRegs_txReq] at hle
    rw [Except.ok.injEq] at h
    have hf := sendFields_frame (frameFields (enterTransmitRegs s).cfg (enterTransmitRegs s).txReq.hdr pl)
      (enterTransmitRegs s)
    rw [h] at hf
    exact ⟨by omega, hf⟩
  · cases h

/-- R236, R238: after the retry has been counted, abandon past MAX_RETRIES, else resend. -/
theorem retryOrAbandon_cases {e : Err} {s t : State} (h : retryOrAbandon e s = .ok t) :
    (s.cfg.maxRetries < s.txRetry ∧ t = abandonRequest s) ∨
    (¬ s.cfg.maxRetries < s.txRetry ∧ resend e s = .ok t) := by
  simp only [retryOrAbandon] at h
  split at h
  · rename_i hm
    rw [Except.ok.injEq] at h
    exact .inl ⟨hm, h.symm⟩
  · rename_i hm
    exact .inr ⟨hm, h⟩

/-- R236: everything a poll that answers can have done. -/
theorem txPoll_cases {s t : State} (h : txPoll s = .ok t) :
    (t = s ∧ (s.txState = .pollPending → s.q.reqs = [])) ∨
    (s.txState = .pollPending ∧ ∃ r rest m, s.q.reqs = r :: rest ∧
      memWrite s.txReq.pl 0 r.hdr.len.toNat r.pl = some m ∧
      enterTransmit (loadRequest r m (qDrop r s)) = .ok t) ∨
    (s.txState = .transmitPacket ∧ s.txNoack = true ∧ t = completeRequest s) ∨
    (s.txState = .transmitPacket ∧ s.txNoack = false ∧ s.ackTmr.raised = true ∧
      (s.cfg.maxRetries < s.txRetry + 1 ∧ t = abandonRequest (countRetry s) ∨
        ¬ s.cfg.maxRetries < s.txRetry + 1 ∧ resend .ackTimeout (countRetry s) = .ok t)) := by
  cases hs : s.txState with
  | pollPending =>
    simp only [txPoll, hs, pollPending, qFetch] at h
    cases hq : s.q.reqs with
    | nil =>
      simp only [hq, List.head?_nil, Except.ok.injEq] at h
      exact .inl ⟨h.symm, fun _ => rfl⟩
    | cons r rest =>
      simp only [hq, List.head?_cons] at h
      split at h
      · rename_i m hm
        exact .inr (.inl ⟨rfl, r, rest, m, rfl, hm, h⟩)
      · cases h
  | transmitPacket =>
    simp only [txPoll, hs, pollTransmit] at h
    split at h
    · rename_i hn
      rw [Except.ok.injEq] at h
      exact .inr (.inr (.inl ⟨rfl, hn, h.symm⟩))
    · rename_i hn
      rw [Bool.not_eq_true] at hn
      split at h
      · rename_i hr
        exact .inr (.inr (.inr ⟨rfl, hn, hr, retryOrAbandon_cases h⟩))
      · rw [Except.ok.injEq] at h
        exact .inl ⟨h.symm, fun hx => by cases hx⟩

/-- R238: everything a NACK_IN that is not ignored and answers can have done. -/
theorem nackStep_cases {s t : State} (h : nackStep s = .ok t) :
    (s.cfg.nackCountsRetry = true ∧ s.cfg.maxRetries < s.txRetry + 1 ∧ t = abandonRequest (countRetry s)) ∨
    (s.cfg.nackCountsRetry = true ∧ ¬ s.cfg.maxRetries < s.txRetry + 1 ∧
      resend .nackReceived (countRetry s) = .ok t) ∨
    (s.cfg.nackCountsRetry = false ∧ resend .nackReceived s = .ok t) := by
  simp only [nackStep] at h
  cases hn : s.cfg.nackCountsRetry with
  | true =>
    rw [hn, if_pos rfl] at h
    rcases retryOrAbandon_cases h with ⟨hm, ht⟩ | ⟨hm, ht⟩
    · exact .inl ⟨rfl, hm, ht⟩
    · exact .inr (.inl ⟨rfl, hm, ht⟩)
  | false =>
    rw [hn] at h
    exact .inr (.inr ⟨rfl, h⟩)

/-- R238: everything a NACK_IN that answers can have done. -/
theorem nackIn_cases {s t : State} (h : exec .nackIn s = .next t) :
    ∃ u, t = { u with result := .none } ∧
      ((s.txState = .pollPending ∨ s.txNoack = true) ∧ u = s ∨
        s.txState = .transmitPacket ∧ s.txNoack = false ∧ nackStep s = .ok u) := by
  simp only [exec, execNackIn, finish_next] at h
  obtain ⟨u, h, rfl⟩ := h
  refine ⟨u, rfl, ?_⟩
  split at h
  · rename_i hc
    rw [Except.ok.injEq] at h
    refine .inl ⟨?_, h.symm⟩
    cases hs : s.txState <;> simp_all
  · rename_i hc
    rw [not_or, not_not, Bool.not_eq_true] at hc
    exact .inr ⟨hc.1, hc.2, h⟩

/-! ## What the operations leave alone -/

/-- R236: everything a TX_POLL may write. -/
theorem txPoll_frame {s t : State} (h : txPoll s = .ok t) :
    t = { s with txReq := t.txReq, txRetry := t.txRetry, txState := t.txState, txNoack := t.txNoack,
                 ackTmr := t.ackTmr, tx := t.tx, q := t.q, errCode := t.errCode, abortCnt := t.abortCnt,
                 abandonCnt := t.abandonCnt } := by
  rcases txPoll_cases h with ⟨rfl, -⟩ | ⟨-, r, rest, m, -, -, he⟩ | ⟨-, -, rfl⟩ | ⟨-, -, -, ⟨-, rfl⟩ | ⟨-, he⟩⟩
  · rfl
  · obtain ⟨-, he⟩ := enterTransmit_frame he
    rw [he]; rfl
  · rfl
  · rfl
  · obtain ⟨-, he⟩ := enterTransmit_frame he
    rw [he]; rfl

/-- R238: everything a NACK_IN may write. -/
theorem nackStep_frame {s t : State} (h : nackStep s = .ok t) :
    t = { s with txRetry := t.txRetry, txState := t.txState, txNoack := t.txNoack, ackTmr := t.ackTmr, tx := t.tx,
                 errCode := t.errCode, abortCnt := t.abortCnt, abandonCnt := t.abandonCnt } := by
  rcases nackStep_cases h with ⟨-, -, rfl⟩ | ⟨-, -, he⟩ | ⟨-, he⟩
  · rfl
  · obtain ⟨-, he⟩ := enterTransmit_frame he
    rw [he]; rfl
  · obtain ⟨-, he⟩ := enterTransmit_frame he
    rw [he]; rfl

end Sys2Proof.Machine
end

