-- ==== Sys2Proof/Laws/Exec.lean ====
section
/-! SUPPORT. Everything one operation can do, said once over all of them: `exec_cases`. -/

namespace Sys2Proof.Machine

theorem exec_rxPoll {s t : State} (h : exec .rxPoll s = .next t) :
    ∃ u, rxPoll s = .ok u ∧ t = { u with result := .none } := by
  simpa only [exec, execRxPoll, finish_next] using h

theorem exec_txPoll {s t : State} (h : exec .txPoll s = .next t) :
    ∃ u, txPoll s = .ok u ∧ t = { u with result := .none } := by
  simpa only [exec, execTxPoll, finish_next] using h

/-- An operation that gives a next state: the three polls and steps of the machines, which have cases of their own, and
the state every other operation leaves. -/
theorem exec_cases {i : Instr} {s t : State} (h : exec i s = .next t) :
  (i = .rxPoll ∧ ∃ u, rxPoll s = .ok u ∧ t = { u with result := .none }) ∨
  (i = .txPoll ∧ ∃ u, txPoll s = .ok u ∧ t = { u with result := .none }) ∨
  (i = .nackIn ∧ ∃ u, (u = s ∨ s.txState = .transmitPacket ∧ s.txNoack = false ∧ nackStep s = .ok u) ∧ t = { u with result := .none }) ∨
  (i = .reset ∧ t = { resetState s with result := .none }) ∨
  (∃ b, i = .rxByte b ∧ t = { rxPut b s with result := .none }) ∨
  (i = .rxRelease ∧ t = { s with rxState := if s.rxState = .packetReady then .waitPreamble else s.rxState, result := .none }) ∨
  (∃ o a hd pl, i = .txEnqueue o a hd pl ∧ isPacket hd pl = true ∧ t = { qWrite ⟨o,a,hd,pl⟩ s with result := .enqOk (qFits ⟨o,a,hd,pl⟩ s) }) ∨
  (i = .ackIn ∧ t = if s.txState = .transmitPacket then { completeRequest s with result := .none } else { s with result := .none }) ∨
  (i = .txDrain ∧ (txLen s = 0 ∧ t = { s with result := .byte none } ∨ txLen s ≠ 0 ∧ t = { txPop s with wireOut := s.wireOut ++ [txOldest s], result := .byte (some (txOldest s)) })) ∨
  (i = .tick ∧ t = { s with rxTmr := timerTick s.rxTmr, ackTmr := timerTick s.ackTmr, result := .none }) ∨
  (∃ r, t = { s with result := r }) := by
  cases i with
  | rxPoll => exact .inl ⟨rfl, exec_rxPoll h⟩
  | txPoll => exact .inr (.inl ⟨rfl, exec_txPoll h⟩)
  | nackIn =>
    obtain ⟨u, rfl, ⟨-, rfl⟩ | h⟩ := nackIn_cases h
    · exact .inr (.inr (.inl ⟨rfl, _, .inl rfl, rfl⟩))
    · exact .inr (.inr (.inl ⟨rfl, _, .inr h, rfl⟩))
  | reset => exact .inr (.inr (.inr (.inl ⟨rfl, (done_next.mp h)⟩)))
  | rxByte b => exact .inr (.inr (.inr (.inr (.inl ⟨b, rfl, (done_next.mp h)⟩))))
  | rxRelease =>
    refine .inr (.inr (.inr (.inr (.inr (.inl ⟨rfl, ?_⟩)))))
    rw [done_next.mp h]
    split
    · rfl
    · rfl
  | txEnqueue o a hd pl =>
    refine .inr (.inr (.inr (.inr (.inr (.inr (.inl ⟨o, a, hd, pl, rfl, ?_⟩))))))
    simp only [exec, execTxEnqueue] at h
    split at h
    · rename_i hp; exact ⟨hp, done_next.mp h⟩
    · cases h
  | ackIn =>
    refine .inr (.inr (.inr (.inr (.inr (.inr (.inr (.inl ⟨rfl, ?_⟩)))))))
    rw [done_next.mp h]
    split <;> rfl
  | txDrain =>
    refine .inr (.inr (.inr (.inr (.inr (.inr (.inr (.inr (.inl ⟨rfl, ?_⟩))))))))
    simp only [exec, execTxDrain] at h
    split at h
    · rename_i hp; exact .inl ⟨hp, done_next.mp h⟩
    · rename_i hp; exact .inr ⟨hp, done_next.mp h⟩
  | tick => exact .inr (.inr (.inr (.inr (.inr (.inr (.inr (.inr (.inr (.inl ⟨rfl, done_next.mp h⟩)))))))))
  | frameEncode hd pl =>
    simp only [exec, execFrameEncode] at h
    split at h
    · exact .inr (.inr (.inr (.inr (.inr (.inr (.inr (.inr (.inr (.inr ⟨_, done_next.mp h⟩)))))))))
    · cases h
  | queueDepth => exact .inr (.inr (.inr (.inr (.inr (.inr (.inr (.inr (.inr (.inr ⟨_, done_next.mp h⟩)))))))))
  | chk => exact .inr (.inr (.inr (.inr (.inr (.inr (.inr (.inr (.inr (.inr ⟨_, done_next.mp h⟩)))))))))
  | hdrPack => exact .inr (.inr (.inr (.inr (.inr (.inr (.inr (.inr (.inr (.inr ⟨_, done_next.mp h⟩)))))))))
  | hdrUnpack => exact .inr (.inr (.inr (.inr (.inr (.inr (.inr (.inr (.inr (.inr ⟨_, done_next.mp h⟩)))))))))
  | classify => exact .inr (.inr (.inr (.inr (.inr (.inr (.inr (.inr (.inr (.inr ⟨_, done_next.mp h⟩)))))))))
  | hdrValid => exact .inr (.inr (.inr (.inr (.inr (.inr (.inr (.inr (.inr (.inr ⟨_, done_next.mp h⟩)))))))))

end Sys2Proof.Machine
end

