-- ==== Sys2Proof/Laws/PerInstr.lean ====
section
/-! SUPPORT. The family `OpWord`: the word an instruction encodes to lies in its row of spec/opcode_table.json. -/

namespace Sys2Proof.Laws.OpWord

/-- The match value of an instruction's row of spec/opcode_table.json. -/
def rowMatch : Instr → BitVec 16
  | .reset => 0x0100#16
  | .rxByte _ => 0x1000#16
  | .rxPoll => 0x1100#16
  | .rxRelease => 0x1200#16
  | .txEnqueue _ _ _ _ => 0x2000#16
  | .txPoll => 0x2100#16
  | .ackIn => 0x2200#16
  | .nackIn => 0x2300#16
  | .txDrain => 0x2400#16
  | .queueDepth => 0x2500#16
  | .tick => 0x3000#16
  | .chk _ => 0x4000#16
  | .hdrPack _ => 0x4100#16
  | .hdrUnpack _ => 0x4200#16
  | .classify _ => 0x4300#16
  | .hdrValid _ => 0x4400#16
  | .frameEncode _ _ => 0x4500#16

/-- The mask of an instruction's row of spec/opcode_table.json. -/
def rowMask : Instr → BitVec 16
  | .reset => 0xFFFF#16
  | .rxByte _ => 0xFF00#16
  | .rxPoll => 0xFFFF#16
  | .rxRelease => 0xFFFF#16
  | .txEnqueue _ _ _ _ => 0xFFFF#16
  | .txPoll => 0xFFFF#16
  | .ackIn => 0xFFFF#16
  | .nackIn => 0xFFFF#16
  | .txDrain => 0xFFFF#16
  | .queueDepth => 0xFFFF#16
  | .tick => 0xFFFF#16
  | .chk _ => 0xFFFF#16
  | .hdrPack _ => 0xFFFF#16
  | .hdrUnpack _ => 0xFFFF#16
  | .classify _ => 0xFF00#16
  | .hdrValid _ => 0xFFFF#16
  | .frameEncode _ _ => 0xFFFF#16

/-- R115, R116: the encoding of `i` matches its row, and the bits its row leaves free are its immediate. -/
def Statement (i : Instr) : Prop :=
  (encode i).word &&& rowMask i = rowMatch i ∧ wordOp (encode i).word = opByte i ∧
    wordImm (encode i).word = immByte i

theorem op_mkWord (op imm : Byte) : wordOp (mkWord op imm) = op := by
  simp only [wordOp, mkWord]
  exact BitVec.extractLsb'_append_eq_left

theorem imm_mkWord (op imm : Byte) : wordImm (mkWord op imm) = imm := by
  simp only [wordImm, mkWord]
  exact BitVec.extractLsb'_append_eq_right

theorem masked_mkWord (op imm : Byte) : mkWord op imm &&& 0xFF00#16 = mkWord op 0 := by
  apply BitVec.eq_of_getLsbD_eq
  intro i hi
  simp only [mkWord, BitVec.getLsbD_and, BitVec.getLsbD_append]
  interval_cases i <;> simp

/-- The statement, from the match alone. -/
theorem of_match {i : Instr} (h : mkWord (opByte i) (immByte i) &&& rowMask i = rowMatch i) : Statement i :=
  ⟨h, op_mkWord _ _, imm_mkWord _ _⟩

theorem reset : Statement .reset :=
  of_match (show mkWord 0x01#8 0#8 &&& 0xFFFF#16 = 0x0100#16 by decide)

theorem rxByte (b : Byte) : Statement (.rxByte b) :=
  of_match ((masked_mkWord 0x10#8 b).trans (show mkWord 0x10#8 0#8 = 0x1000#16 by decide))

theorem rxPoll : Statement .rxPoll :=
  of_match (show mkWord 0x11#8 0#8 &&& 0xFFFF#16 = 0x1100#16 by decide)

theorem rxRelease : Statement .rxRelease :=
  of_match (show mkWord 0x12#8 0#8 &&& 0xFFFF#16 = 0x1200#16 by decide)

theorem txEnqueue (origin : Byte) (ackReq : Bool) (hdr : Header) (pl : List Byte) :
    Statement (.txEnqueue origin ackReq hdr pl) :=
  of_match (show mkWord 0x20#8 0#8 &&& 0xFFFF#16 = 0x2000#16 by decide)

theorem txPoll : Statement .txPoll :=
  of_match (show mkWord 0x21#8 0#8 &&& 0xFFFF#16 = 0x2100#16 by decide)

theorem ackIn : Statement .ackIn :=
  of_match (show mkWord 0x22#8 0#8 &&& 0xFFFF#16 = 0x2200#16 by decide)

theorem nackIn : Statement .nackIn :=
  of_match (show mkWord 0x23#8 0#8 &&& 0xFFFF#16 = 0x2300#16 by decide)

theorem txDrain : Statement .txDrain :=
  of_match (show mkWord 0x24#8 0#8 &&& 0xFFFF#16 = 0x2400#16 by decide)

theorem queueDepth : Statement .queueDepth :=
  of_match (show mkWord 0x25#8 0#8 &&& 0xFFFF#16 = 0x2500#16 by decide)

theorem tick : Statement .tick :=
  of_match (show mkWord 0x30#8 0#8 &&& 0xFFFF#16 = 0x3000#16 by decide)

theorem chk (m : List Byte) : Statement (.chk m) :=
  of_match (show mkWord 0x40#8 0#8 &&& 0xFFFF#16 = 0x4000#16 by decide)

theorem hdrPack (hdr : Header) : Statement (.hdrPack hdr) :=
  of_match (show mkWord 0x41#8 0#8 &&& 0xFFFF#16 = 0x4100#16 by decide)

theorem hdrUnpack (q : Quad) : Statement (.hdrUnpack q) :=
  of_match (show mkWord 0x42#8 0#8 &&& 0xFFFF#16 = 0x4200#16 by decide)

theorem classify (t : Byte) : Statement (.classify t) :=
  of_match ((masked_mkWord 0x43#8 t).trans (show mkWord 0x43#8 0#8 = 0x4300#16 by decide))

theorem hdrValid (hdr : Header) : Statement (.hdrValid hdr) :=
  of_match (show mkWord 0x44#8 0#8 &&& 0xFFFF#16 = 0x4400#16 by decide)

theorem frameEncode (hdr : Header) (pl : List Byte) :
    Statement (.frameEncode hdr pl) :=
  of_match (show mkWord 0x45#8 0#8 &&& 0xFFFF#16 = 0x4500#16 by decide)

end Sys2Proof.Laws.OpWord
end

