-- ==== Sys2Proof/Tests/Slice0.lean ====
section
/-! SUPPORT. Smoke tests of WellFormed, the decoder on words written out from 30_encoding.md, one step of each operation
against the vectors of 95_test_vectors.md, and a witness for the hypotheses of each statement. -/

namespace Sys2Proof.Tests

open Sys2Proof Sys2Proof.Machine

set_option Elab.async false

/-! ## Helpers -/

/-- The operation gives a next state that passes the test. -/
def ends (i : Instr) (s : State) (p : State → Bool) : Bool :=
  match exec i s with
  | .next t => p t
  | .fault _ => false
  | .refused _ => false

theorem of_ends {i : Instr} {s : State} {p : State → Bool} (h : ends i s p = true) :
    ∃ t, exec i s = .next t ∧ p t = true := by
  unfold ends at h
  split at h
  · exact ⟨_, by assumption, h⟩
  · cases h
  · cases h

/-- The operation is refused because its operands are not a packet. -/
def refuses (i : Instr) (s : State) : Bool :=
  match exec i s with
  | .next _ => false
  | .fault _ => false
  | .refused r => decide (r = .notAPacket)

/-- The state after construction under TC. -/
def s0 : State := State.constructed Config.tc

/-- TC with other capacities. -/
def sized (rx tx q : U32) : State := State.constructed { Config.tc with rxCap := rx, txCap := tx, txqCap := q }

/-- The RX ring holding `bs`. -/
def withRx (bs : List Byte) (s : State) : State := { s with rx := (ringInit s.cfg.rxCap.toNat []).write bs }

/-- The TX ring holding `bs`. -/
def withTx (bs : List Byte) (s : State) : State := { s with tx := (ringInit s.cfg.txCap.toNat []).write bs }

/-- The requests queued, oldest first. -/
def queued (rs : List Request) (s : State) : State := rs.foldl (fun s r => qWrite r s) s

/-- The deframer in a state of its own, its timer running or fired. -/
def phase (st : RxState) (h : Header) (pl : List Byte) (raised : Bool) (s : State) : State :=
  { s with rxState := st, rxHdr := h, rxPl := Memory.writeBytes [] 0 pl,
           rxTmr := { rem := if raised then 0 else 40, active := !raised, raised := raised } }

/-- The deframer holding a packet. -/
def holding (h : Header) (pl : List Byte) (s : State) : State :=
  { s with rxState := .packetReady, rxHdr := h, rxPl := Memory.writeBytes [] 0 pl }

/-- A request in flight. -/
def inFlight (ackReq : Bool) (h : Header) (pl : List Byte) (retry : U32) (raised : Bool) (s : State) : State :=
  { s with txState := .transmitPacket, txRetry := retry, txNoack := !ackReq,
           txReq := { origin := 1, ackReq := ackReq, hdr := h, pl := Memory.writeBytes [] 0 pl },
           ackTmr := { rem := if raised then 0 else 500, active := ackReq && !raised, raised := raised } }

def hCmd : Header := { type := 0x01, dir := 0x01, len := 0 }
def hA : Header := { type := 0x05, dir := 0x01, len := 3 }
def hE0 : Header := { type := 0x80, dir := 0x02, len := 0 }
def hE4 : Header := { type := 0x80, dir := 0x02, len := 4 }
def hAck : Header := { type := 0x40, dir := 0x02, len := 0 }
def plA : List Byte := [0xDE, 0xAD, 0xBE]

/-- 95_test_vectors.md, named frames. -/
def fCmd : List Byte :=
  [0x55, 0xAA, 0x55, 0xAA, 0x01, 0x01, 0x00, 0x00, 0x01, 0x01, 0x00, 0x00, 0x55, 0xBB, 0x55, 0xBB]
def fA : List Byte :=
  [0x55, 0xAA, 0x55, 0xAA, 0x05, 0x01, 0x03, 0x00, 0xDE, 0xAD, 0xBE, 0xDB, 0xAC, 0xBD, 0x00, 0x55, 0xBB, 0x55, 0xBB]
def fABad : List Byte :=
  [0x55, 0xAA, 0x55, 0xAA, 0x05, 0x01, 0x03, 0x00, 0xDE, 0xAD, 0xBE, 0xDA, 0xAC, 0xBD, 0x00, 0x55, 0xBB, 0x55, 0xBB]
def fE0 : List Byte :=
  [0x55, 0xAA, 0x55, 0xAA, 0x80, 0x02, 0x00, 0x00, 0x80, 0x02, 0x00, 0x00, 0x55, 0xBB, 0x55, 0xBB]
def fE4 : List Byte :=
  [0x55, 0xAA, 0x55, 0xAA, 0x80, 0x02, 0x04, 0x00, 0x01, 0x02, 0x03, 0x04, 0x81, 0x00, 0x07, 0x04, 0x55, 0xBB, 0x55, 0xBB]

/-! ## WellFormed smoke -/

theorem test_wf_refuses_short_payload : wellFormed (.txEnqueue 0 true { type := 0x80, dir := 2, len := 2 } [1]) = false := by
  decide

theorem test_wf_refuses_long_payload : wellFormed (.frameEncode { type := 0x80, dir := 2, len := 0 } [1]) = false := by
  decide

theorem test_wf_refuses_len_257 :
    wellFormed (.txEnqueue 0 true { type := 0x80, dir := 2, len := 257 } (List.replicate 257 0)) = false ∧
    wellFormed (.frameEncode { type := 0x80, dir := 2, len := 257 } (List.replicate 257 0)) = false := by
  decide +kernel

theorem test_wf_accepts_len_256 :
    wellFormed (.frameEncode { type := 0x80, dir := 2, len := 256 } (List.replicate 256 0)) = true := by
  decide +kernel

/-! ## Decoding words written out from R115 and R116 -/

theorem test_decode_reset : decode 0b0000000100000000#16 Beside.zero = .ok .reset := by decide

/-- V-OP-01, V-OP-04, R115. -/
theorem test_decode_deframer :
    decode 0b0001000001010101#16 Beside.zero = .ok (.rxByte 0x55) ∧
    decode 0b0001000111111111#16 Beside.zero = .error (.nonzeroImm 0x11 0xFF) ∧
    decode 0b0001000100000000#16 Beside.zero = .ok .rxPoll ∧
    decode 0b0001001000000000#16 Beside.zero = .ok .rxRelease := by decide

/-- R115; V-OP-08. -/
theorem test_decode_delivery :
    decode 0b0010000000000000#16 ⟨7, true, hE0, ⟨0, 0, 0, 0⟩, [9]⟩ = .ok (.txEnqueue 7 true hE0 [9]) ∧
    decode 0b0010000100000000#16 Beside.zero = .ok .txPoll ∧
    decode 0b0010001000000000#16 Beside.zero = .ok .ackIn ∧
    decode 0b0010001100000000#16 Beside.zero = .ok .nackIn ∧
    decode 0b0010010000000000#16 Beside.zero = .ok .txDrain ∧
    decode 0b0010010100000000#16 Beside.zero = .ok .queueDepth := by decide

theorem test_decode_tick : decode 0b0011000000000000#16 Beside.zero = .ok .tick := by decide

/-- R115; V-OP-03. -/
theorem test_decode_codec :
    decode 0b0100000000000000#16 ⟨0, false, hE0, ⟨1, 2, 3, 4⟩, [9]⟩ = .ok (.chk [9]) ∧
    decode 0b0100000100000000#16 ⟨0, false, hE0, ⟨1, 2, 3, 4⟩, [9]⟩ = .ok (.hdrPack hE0) ∧
    decode 0b0100001000000000#16 ⟨0, false, hE0, ⟨1, 2, 3, 4⟩, [9]⟩ = .ok (.hdrUnpack ⟨1, 2, 3, 4⟩) ∧
    decode 0b0100001101000000#16 Beside.zero = .ok (.classify 0x40) ∧
    decode 0b0100010000000000#16 ⟨0, false, hE0, ⟨1, 2, 3, 4⟩, [9]⟩ = .ok (.hdrValid hE0) ∧
    decode 0b0100010100000000#16 ⟨0, false, hE0, ⟨1, 2, 3, 4⟩, [9]⟩ = .ok (.frameEncode hE0 [9]) := by decide

/-- V-OP-05, V-OP-06. -/
theorem test_decode_reserved :
    decode 0b0001000100000001#16 Beside.zero = .error (.nonzeroImm 0x11 0x01) ∧
    decode 0b0000011000000000#16 Beside.zero = .error (.unknownOp 0x06) := by decide

/-- A table word becomes the next operation, and the step that runs it consumes it. -/
theorem test_fetch_word :
    decodeTableWord 16 0x1055 = some (.rxByte 0x55) ∧ decodeTableWord 16 0x1101 = none ∧
    (match step (State.reset.withFetchWord 16 0x1055) with
     | .next t => decide (t.rx.contents = [0x55]) && decide (t.inbox = [])
     | .fault _ => false
     | .refused _ => false) = true := by decide +kernel

/-! ## One step of each operation, from the vectors of 95_test_vectors.md -/

/-- V-RS-01. -/
theorem test_reset : ends .reset { inFlight true hE0 [] 2 false (withTx fE0 s0) with preIdx := 2, errCode := 9 } (fun t =>
    decide (t.txState = .pollPending) && decide (t.preIdx = 0) && decide (t.tx.contents = []) && decide (t.errCode = 0)
      && decide (t.ackTmr = TimeEvent.idle) && decide (t.txRetry = 0)) = true := by decide +kernel

/-- V-RB-03: a full ring of 4 loses its oldest byte. -/
theorem test_rxByte_overwrites : ends (.rxByte 5) (withRx [1, 2, 3, 4] (sized 4 16 32)) (fun t =>
    decide (t.rx.contents = [2, 3, 4, 5]) && decide (t.rx.ix = { cap := 4, head := 1, tail := 1, full := true })
      && t.rxOverrun) = true := by decide +kernel

/-- V-RB-02: the byte that fills the ring. -/
theorem test_rxByte_fills : ends (.rxByte 4) (withRx [1, 2, 3] (sized 4 16 32)) (fun t =>
    decide (t.rx.contents = [1, 2, 3, 4]) && t.rx.ix.full && !t.rxOverrun) = true := by decide +kernel

/-- V-DF-04, V-DF-06, V-DF-07. -/
theorem test_rxPoll_preamble_and_header :
    ends .rxPoll { withRx [0xAA] s0 with preIdx := 3 } (fun t =>
      decide (t.rxState = .waitHeader) && decide (t.preIdx = 0) && decide (t.rxTmr = ⟨100, true, false⟩)) = true ∧
    ends .rxPoll (phase .waitHeader hA [] false (withRx [0x01, 0x01, 0x00, 0x00] s0)) (fun t =>
      decide (t.rxHdr = hCmd) && decide (t.rxState = .waitCrcPost) && decide (t.rxTmr = ⟨50, true, false⟩)) = true ∧
    ends .rxPoll (phase .waitHeader hA [] false (withRx [0x80, 0x01, 0x00, 0x00, 0x99] s0)) (fun t =>
      decide (t.errCode = 2) && decide (t.rx.contents = []) && decide (t.rxState = .waitPreamble)
        && decide (t.q.reqs = [mkCtl s0.cfg 0x41])) = true := by decide +kernel

/-- W4, V-DF-13 and V-DF-12. -/
theorem test_rxPoll_payload_and_trailer :
    ends .rxPoll (phase .waitPayload hA [] false (withRx (fA.drop 8) s0)) (fun t =>
      decide (Memory.readBytes t.rxPl 0 3 = plA) && decide (t.rx.contents = fA.drop 11)
        && decide (t.rxTmr = ⟨50, true, false⟩)) = true ∧
    ends .rxPoll (phase .waitCrcPost hA plA false (withRx (fA.drop 11) s0)) (fun t =>
      decide (pktOut t = some (hA, plA)) && decide (t.q.reqs = [mkCtl s0.cfg 0x40])) = true ∧
    ends .rxPoll (phase .waitCrcPost hCmd [] false (withRx [0x81, 0x01, 0, 0, 0, 0xBB, 0x55, 0xBB] s0)) (fun t =>
      decide (t.errCode = 6)) = true ∧
    ends .rxPoll (phase .waitCrcPost hCmd [] false (withRx [0x01, 0x01, 0, 0, 0x55, 0xBB, 0x55, 0xBC] s0)) (fun t =>
      decide (t.errCode = 7) && decide (t.q.reqs = [mkCtl s0.cfg 0x41])) = true := by decide +kernel

/-- V-DF-23. -/
theorem test_rxRelease : ends .rxRelease (holding hA plA s0) (fun t =>
    decide (t.rxState = .waitPreamble) && decide (pktOut t = none)) = true := by decide +kernel

/-- V-DF-17: ignored elsewhere. -/
theorem test_rxRelease_ignored : ends .rxRelease s0 (fun t => decide (t = s0)) = true := by decide +kernel

/-- V-RB-05: after three requests of 262 bytes a fourth does not fit, and one of 6 does. -/
theorem test_txEnqueue_full :
    ends (.txEnqueue 1 true { type := 0x80, dir := 2, len := 256 } (List.replicate 256 7))
      (queued (List.replicate 3 ⟨1, true, { type := 0x80, dir := 2, len := 256 }, List.replicate 256 7⟩) s0)
      (fun t => decide (t.result = .enqOk false) && decide (t.q.reqs.length = 3)) = true ∧
    ends (.txEnqueue 1 true hE0 [])
      (queued (List.replicate 3 ⟨1, true, { type := 0x80, dir := 2, len := 256 }, List.replicate 256 7⟩) s0)
      (fun t => decide (t.result = .enqOk true) && decide (qUsed t = 792)) = true := by decide +kernel

/-- V-TD-01. -/
theorem test_txPoll_sends : ends .txPoll (queued [⟨1, true, hE4, [1, 2, 3, 4]⟩] s0) (fun t =>
    decide (t.txState = .transmitPacket) && decide (t.txRetry = 0) && !t.txNoack
      && decide (t.ackTmr = ⟨500, true, false⟩) && decide (t.tx.contents = fE4) && decide (t.q.reqs = [])) = true := by
  decide +kernel

/-- V-TD-07: the postamble does not fit. -/
theorem test_txPoll_aborts :
    ends .txPoll (queued [⟨1, true, { type := 0x80, dir := 2, len := 1 }, [0x7E]⟩] (sized 64 16 64)) (fun t =>
      decide (t.tx.contents = [0x55, 0xAA, 0x55, 0xAA, 0x80, 0x02, 0x01, 0x00, 0x7E, 0xFE, 0x02, 0x01, 0x00])
        && decide (t.errCode = 10) && decide (t.abortCnt = 1) && decide (t.txState = .transmitPacket)) = true := by
  decide +kernel

/-- V-TD-12. -/
theorem test_ackIn : ends .ackIn (inFlight true hE0 [] 2 false s0) (fun t =>
    decide (t.txState = .pollPending) && !t.ackTmr.active && decide (t.txRetry = 2)) = true := by decide +kernel

/-- V-TD-04: the first NACK resends, the fourth abandons. -/
theorem test_nackIn :
    ends .nackIn (inFlight true hE0 [] 0 false s0) (fun t =>
      decide (t.tx.contents = fE0) && decide (t.txRetry = 1) && decide (t.errCode = 12)) = true ∧
    ends .nackIn (inFlight true hE0 [] 3 false s0) (fun t =>
      decide (t.tx.contents = []) && decide (t.txRetry = 4) && decide (t.errCode = 9) && decide (t.abandonCnt = 1)
        && decide (t.txState = .pollPending)) = true := by decide +kernel

/-- V-TD-11. -/
theorem test_txDrain :
    ends .txDrain (withTx [0x55, 0xAA] s0) (fun t =>
      decide (t.result = .byte (some 0x55)) && decide (t.wireOut = [0x55]) && decide (t.tx.contents = [0xAA])) = true ∧
    ends .txDrain s0 (fun t => decide (t.result = .byte none) && decide (t.wireOut = [])) = true := by decide +kernel

/-- V-RB-06. -/
theorem test_queueDepth : ends .queueDepth (queued [⟨1, true, hE0, []⟩, ⟨1, true, hE0, []⟩] s0) (fun t =>
    decide (t.result = .word 2)) = true := by decide +kernel

/-- V-TM-05. -/
theorem test_tick : ends .tick { s0 with rxTmr := ⟨1, true, false⟩, ackTmr := ⟨1, true, false⟩ } (fun t =>
    decide (t.rxTmr = ⟨0, false, true⟩) && decide (t.ackTmr = ⟨0, false, true⟩)) = true := by decide +kernel

/-- V-CK-03, V-CK-05. -/
theorem test_chk :
    ends (.chk ([0x05, 0x01, 0x03, 0x00] ++ plA)) s0 (fun t => decide (t.result = .word 0x00BDACDB)) = true ∧
    ends (.chk ([0x05, 0x01, 0x00, 0x01] ++ List.replicate 256 0xFF)) s0 (fun t =>
      decide (t.result = .word 0x01000105)) = true := by decide +kernel

/-- V-CK-10. -/
theorem test_chk_be : xorFold .be ([0x05, 0x01, 0x00, 0x03] ++ plA) = 0xDBACBE03 := by decide +kernel

/-- V-CK-11, V-CK-12. -/
theorem test_hdrPack :
    ends (.hdrPack hA) s0 (fun t => decide (t.result = .bytes [0x05, 0x01, 0x03, 0x00])) = true ∧
    hdrPack .be hA = [0x05, 0x01, 0x00, 0x03] := by decide +kernel

/-- V-CK-13, V-CK-14. -/
theorem test_hdrUnpack :
    ends (.hdrUnpack ⟨0x10, 0x01, 0x00, 0x01⟩) s0 (fun t => decide (t.result = .header ⟨0x10, 0x01, 256⟩)) = true ∧
    ends (.hdrUnpack ⟨0x01, 0x01, 0xFF, 0xFF⟩) s0 (fun t => decide (t.result = .header ⟨0x01, 0x01, 65535⟩)) = true := by
  decide +kernel

/-- V-CK-15. -/
theorem test_classify :
    ([0x00, 0x3F, 0x40, 0x7F, 0x80, 0xBF, 0xC0, 0xFF] : List Byte).map (classify Config.tc) =
      [.cmd, .cmd, .rsp, .rsp, .evt, .evt, .none, .none] ∧
    ends (.classify 0x80) s0 (fun t => decide (t.result = .cls .evt)) = true := by decide +kernel

/-- V-CK-16 to V-CK-22. -/
theorem test_hdrValid :
    ([⟨0x01, 0x01, 0⟩, ⟨0x01, 0x02, 0⟩, ⟨0x40, 0x01, 0⟩, ⟨0x40, 0x02, 0⟩, ⟨0x80, 0x01, 0⟩, ⟨0x80, 0x02, 0⟩,
      ⟨0xC0, 0x01, 0⟩, ⟨0x01, 0x00, 0⟩, ⟨0x01, 0x03, 0⟩, ⟨0x01, 0x01, 256⟩, ⟨0x01, 0x01, 257⟩] : List Header).map
      (hdrValid Config.tc) = [true, false, true, true, false, true, false, false, false, true, false] ∧
    ends (.hdrValid ⟨0x01, 0x01, 65535⟩) s0 (fun t => decide (t.result = .bool false)) = true := by decide +kernel

/-- V-CK-24, V-CK-30. -/
theorem test_frameEncode :
    ends (.frameEncode hA plA) s0 (fun t => decide (t.result = .bytes fA)) = true ∧
    refuses (.frameEncode ⟨0x01, 0x01, 2⟩ [0xAA]) s0 = true := by decide +kernel

/-- V-CK-29. -/
theorem test_frameEncode_be :
    frameEncode { Config.tc with wireOrder := .be } hA plA =
      [0xAA, 0x55, 0xAA, 0x55, 0x05, 0x01, 0x00, 0x03, 0xDE, 0xAD, 0xBE, 0xDB, 0xAC, 0xBE, 0x03, 0xBB, 0x55, 0xBB,
        0x55] := by decide +kernel

/-! ## Witnesses: states and operands that meet the hypotheses of each statement, clause by clause -/

/-- A state that passes the test of the invariant, with what else a statement asks of it. -/
theorem meets {s : State} {p : Prop} (h : s.check = true) (hp : p) : s.Inv ∧ p := ⟨State.inv_of_check h, hp⟩

theorem witness_HdrUnpackInvertsHdrPack : hdrPack s0.cfg.wireOrder hA = [0x05, 0x01, 0x03, 0x00] := by decide

/-- Each of the four ways to be invalid, and a phase that meets one. -/
theorem witness_InvalidHeaders :
    (0x03#8 ≠ Config.tc.dirH2T ∧ 0x03#8 ≠ Config.tc.dirT2H) ∧ classify Config.tc 0xC0 = .none ∧
    (legalFor Config.tc 0x01 = some Config.defaultLegalH2T ∧
      classIn Config.defaultLegalH2T (classify Config.tc 0x80) = false) ∧ 256 < (257#16).toNat := by decide

theorem witness_InvalidHeaders_phase :
    (phase .waitHeader hA [] false (withRx [0x80, 0x01, 0, 0, 0x99] s0)).Inv ∧
    (withRx [0x80, 0x01, 0, 0, 0x99] s0).rx.contents = [0x80, 0x01, 0, 0, 0x99] ∧
    hdrValid Config.tc (hdrUnpack .le ⟨0x80, 0x01, 0, 0⟩) = false :=
  meets (by decide +kernel) (by decide +kernel)

theorem witness_Classify : configOk s0.cfg = true := by decide +kernel

theorem witness_Chk : s0.cfg.checksumFn = .xorFold := by decide

theorem witness_XorFold :
    ([] : List Byte).length % 4 = 0 ∧ ([1, 2, 3, 4] : List Byte).length = 4 ∧ ([5, 6, 7, 8] : List Byte).length = 4 ∧
    6 < ([1, 2, 3, 4, 5, 6, 7] : List Byte).length := by decide

/-- A packet of each boundary length, and operands that are none. -/
theorem witness_FrameEncode :
    (([] : List Byte).length = hCmd.len.toNat ∧ hCmd.len.toNat ≤ 256) ∧
    ((List.replicate 256 (0xFF : Byte)).length = (256#16).toNat ∧ (256#16).toNat ≤ 256) ∧
    ¬ (([0xAA] : List Byte).length = (2#16).toNat ∧ (2#16).toNat ≤ 256) ∧
    ¬ ((List.replicate 257 (0xFF : Byte)).length = (257#16).toNat ∧ (257#16).toNat ≤ 256) := by decide +kernel

theorem witness_Decode :
    hdrValid Config.tc hCmd = true ∧ ([] : List Byte).length = hCmd.len.toNat ∧
    hdrValid Config.tc hA = true ∧ plA.length = hA.len.toNat ∧ 3 < 4 ∧ 7 < 8 := by decide

/-- A word of each reserved kind, issued to a ready machine. -/
theorem witness_ReservedWords :
    s0.ready = true ∧ (s0.withFetchWord 16 0x1101).inbox = [⟨0x1101#16, Beside.zero⟩] ∧
    decode 0x1101#16 Beside.zero = .error (.nonzeroImm 0x11 0x01) ∧
    decode 0x0600#16 Beside.zero = .error (.unknownOp 0x06) := by decide +kernel

/-- A ready machine with an operation issued, an instance not constructed, one of a bad configuration, an idle one. -/
theorem witness_StepRuns :
    ((s0.withFetchWord 16 0x3000).ready = true ∧ decode 0x3000#16 Beside.zero = .ok .tick) ∧
    ((State.unbuilt Config.tc).withFetchWord 16 0x3000).built = false ∧
    ((sized 0 16 16).built = true ∧ configOk (sized 0 16 16).cfg = false) ∧ s0.inbox = [] := by decide +kernel

/-- A legal configuration, one with an empty range besides, and one that breaks each kind of constraint of R8. -/
theorem witness_Construction :
    configOk Config.tc = true ∧ configOk { Config.tc with evtRange := ⟨0x90, 0x8F⟩ } = true ∧
    configOk { Config.tc with cmdRange := ⟨0x00, 0x40⟩ } = false ∧ configOk { Config.tc with nackType := 0x80 } = false ∧
    configOk { Config.tc with nackType := 0x40 } = false ∧ configOk { Config.tc with dirT2H := 0x01 } = false ∧
    configOk { Config.tc with txDir := 0x03 } = false ∧ configOk { Config.tc with tAck := 0 } = false ∧
    configOk { Config.tc with tPay := List.replicate 256 1 } = false ∧
    configOk { Config.tc with tPay := 2 :: List.replicate 256 1 } = false ∧
    configOk { Config.tc with maxRetries := 0xFFFFFFFF } = false ∧
    configOk { Config.tc with maxRetries := 0xFFFFFFFE } = true ∧
    configOk { Config.tc with txqCap := 0 } = false := by decide +kernel

/-- A full ring, one whose head has wrapped, an empty one. -/
theorem witness_RingQueries :
    Indices.Wf { cap := 4, head := 1, tail := 1, full := true } 4 ∧
    Indices.Wf { cap := 4, head := 1, tail := 3, full := false } 4 ∧
    Indices.Wf { cap := 4, head := 3, tail := 3, full := false } 4 :=
  ⟨Indices.wf_of_check (by decide), Indices.wf_of_check (by decide), Indices.wf_of_check (by decide)⟩

theorem witness_RingFetch :
    (withRx [1, 2] s0).rx.Wf 512 ∧ (withRx [1, 2] s0).rx.ix.dataLen < 3 ∧ 2 ≤ (withRx [1, 2] s0).rx.ix.dataLen :=
  ⟨Ring.wf_of_check (by decide +kernel), by decide +kernel⟩

/-- A full RX ring and one with room for one byte. -/
theorem witness_RxByte :
    ((withRx [1, 2, 3, 4] (sized 4 16 32)).Inv ∧ (withRx [1, 2, 3, 4] (sized 4 16 32)).rx.ix.full = true) ∧
    ((withRx [1, 2, 3] (sized 4 16 32)).Inv ∧ (withRx [1, 2, 3] (sized 4 16 32)).rx.ix.full = false) :=
  ⟨meets (by decide +kernel) (by decide +kernel), meets (by decide +kernel) (by decide +kernel)⟩

/-- A request that just fits in the queue, and one that just does not. -/
theorem witness_TxEnqueue :
    plA.length = hA.len.toNat ∧ hA.len.toNat ≤ 256 ∧
    (sized 4 16 9).cfg.reqOverhead.toNat + 4 + hA.len.toNat ≤ (sized 4 16 9).cfg.txqCap.toNat - qUsed (sized 4 16 9) ∧
    ¬ (sized 4 16 8).cfg.reqOverhead.toNat + 4 + hA.len.toNat
      ≤ (sized 4 16 8).cfg.txqCap.toNat - qUsed (sized 4 16 8) := by decide +kernel

theorem witness_OnlyNonPackets :
    wellFormed (.frameEncode ⟨1, 1, 2⟩ [0xAA]) = false ∧ wellFormed (.frameEncode hA plA) = true := by decide

theorem witness_QueueDepth : (queued [⟨1, true, hE0, []⟩] s0).Inv := State.inv_of_check (by decide +kernel)

/-- An empty ring; a byte that mismatches; one that matches at index 2; one that matches at index 3. -/
theorem witness_PreamblePoll :
    (s0.Inv ∧ s0.rxState = .waitPreamble ∧ s0.rx.contents = []) ∧
    ({ withRx [0x00] s0 with preIdx := 2 }.Inv ∧
      (0x00 : Byte) ≠ (wire32 .le preamble).getD ({ withRx [0x00] s0 with preIdx := 2 } : State).preIdx.toNat 0) ∧
    ({ withRx [0x55] s0 with preIdx := 2 }.Inv ∧ (withRx [0x55] s0).rx.contents = [0x55] ∧
      (0x55 : Byte) = (wire32 .le preamble).getD (2 : BitVec 2).toNat 0 ∧ (2 : BitVec 2).toNat < 3) ∧
    ({ withRx [0xAA] s0 with preIdx := 3 }.Inv ∧ (withRx [0xAA] s0).rx.contents = [0xAA] ∧
      (0xAA : Byte) = (wire32 .le preamble).getD (3 : BitVec 2).toNat 0 ∧ (3 : BitVec 2).toNat = 3) :=
  ⟨meets (by decide +kernel) (by decide +kernel), meets (by decide +kernel) (by decide +kernel),
   meets (by decide +kernel) (by decide +kernel), meets (by decide +kernel) (by decide +kernel)⟩

/-- Three bytes; a valid header of length 0, of length 256; an invalid header. -/
theorem witness_HeaderPoll :
    ((phase .waitHeader hA [] false (withRx [1, 1, 0] s0)).Inv ∧ (withRx [1, 1, 0] s0).rx.contents.length < 4) ∧
    ((phase .waitHeader hA [] false (withRx [1, 1, 0, 0] s0)).Inv ∧
      hdrValid Config.tc (hdrUnpack .le ⟨1, 1, 0, 0⟩) = true ∧ (hdrUnpack .le ⟨1, 1, 0, 0⟩).len.toNat = 0) ∧
    ((phase .waitHeader hA [] false (withRx [1, 1, 0, 1] s0)).Inv ∧
      hdrValid Config.tc (hdrUnpack .le ⟨1, 1, 0, 1⟩) = true ∧ (hdrUnpack .le ⟨1, 1, 0, 1⟩).len.toNat = 256) ∧
    ((phase .waitHeader hA [] false (withRx [1, 1, 1, 1] s0)).Inv ∧
      hdrValid Config.tc (hdrUnpack .le ⟨1, 1, 1, 1⟩) = false) :=
  ⟨meets (by decide +kernel) (by decide +kernel), meets (by decide +kernel) (by decide +kernel),
   meets (by decide +kernel) (by decide +kernel), meets (by decide +kernel) (by decide +kernel)⟩

/-- A payload phase that has timed out, one a byte short, one with exactly its payload. -/
theorem witness_PayloadPoll :
    ((phase .waitPayload hA [] true (withRx plA s0)).Inv ∧
      (phase .waitPayload hA [] true (withRx plA s0)).rxTmr.raised = true) ∧
    ((phase .waitPayload hA [] false (withRx [1, 2] s0)).Inv ∧
      (withRx [1, 2] s0).rx.contents.length < hA.len.toNat) ∧
    ((phase .waitPayload hA [] false (withRx plA s0)).Inv ∧
      hA.len.toNat ≤ (withRx plA s0).rx.contents.length) :=
  ⟨meets (by decide +kernel) (by decide +kernel), meets (by decide +kernel) (by decide +kernel),
   meets (by decide +kernel) (by decide +kernel)⟩

/-- A trailer of seven bytes; a good one; a bad checksum; a bad postamble; a good one of an ACK. -/
theorem witness_TrailerPoll :
    ((phase .waitCrcPost hCmd [] false (withRx (fCmd.drop 9) s0)).Inv ∧ (fCmd.drop 9).length < 8) ∧
    ((phase .waitCrcPost hCmd [] false (withRx (fCmd.drop 8) s0)).Inv ∧
      unwire32 .le [0x01, 0x01, 0x00, 0x00] = checksum Config.tc (hdrPack .le hCmd ++ []) ∧
      unwire32 .le [0x55, 0xBB, 0x55, 0xBB] = postamble ∧ isAckPkt Config.tc hCmd = false) ∧
    ((phase .waitCrcPost hA plA false (withRx (fABad.drop 11) s0)).Inv ∧
      unwire32 .le [0xDA, 0xAC, 0xBD, 0x00] ≠ checksum Config.tc (hdrPack .le hA ++ plA)) ∧
    ((phase .waitCrcPost hCmd [] false (withRx [1, 1, 0, 0, 0x55, 0xBB, 0x55, 0xBC] s0)).Inv ∧
      unwire32 .le [0x55, 0xBB, 0x55, 0xBC] ≠ postamble) ∧
    ((phase .waitCrcPost hAck [] false (withRx [0x40, 2, 0, 0, 0x55, 0xBB, 0x55, 0xBB] s0)).Inv ∧
      isAckPkt Config.tc hAck = true) :=
  ⟨meets (by decide +kernel) (by decide +kernel), meets (by decide +kernel) (by decide +kernel),
   meets (by decide +kernel) (by decide +kernel), meets (by decide +kernel) (by decide +kernel),
   meets (by decide +kernel) (by decide +kernel)⟩

/-- A held packet: for ReadyPollChangesNothing, RxReleaseFreesTheHeldPacket and HeldPacketIsStable. -/
theorem witness_Ready :
    (holding hA plA s0).rxState = .packetReady ∧ s0.rxState ≠ .packetReady ∧
    ∃ t, exec (.rxByte 1) (holding hA plA s0) = .next t ∧ (t.rx.contents == [1]) = true :=
  ⟨rfl, by decide, of_ends (by decide +kernel)⟩

theorem witness_TimedOut :
    (phase .waitHeader hA [] true s0).rxTmr.raised = true ∧ (phase .waitHeader hA [] true s0).rxState = .waitHeader ∧
    (phase .waitPayload hA [] true s0).rxState = .waitPayload ∧
    (phase .waitCrcPost hA [] true s0).rxState = .waitCrcPost := by decide +kernel

/-- A frame of 20 bytes in a TX ring of 20, and in one of 19. -/
theorem witness_Send :
    (inFlight true hE4 [1, 2, 3, 4] 0 false (sized 4 20 64)).tx.Wf 20 ∧
    (inFlight true hE4 [1, 2, 3, 4] 0 false (sized 4 19 64)).tx.Wf 19 ∧ hE4.len.toNat ≤ 256 ∧
    0 + (16 + 4) ≤ (sized 4 20 64).cfg.txCap.toNat ∧ ¬ 0 + (16 + 4) ≤ (sized 4 19 64).cfg.txCap.toNat ∧
    (sized 4 19 64).tx.ix.dataLen = 0 :=
  ⟨Ring.wf_of_check (by decide +kernel), Ring.wf_of_check (by decide +kernel), by decide +kernel⟩

theorem witness_TxPollSends :
    (s0.Inv ∧ s0.txState = .pollPending ∧ s0.q.reqs = []) ∧
    ((queued [⟨1, true, hE4, [1, 2, 3, 4]⟩] s0).Inv ∧ (queued [⟨1, true, hE4, [1, 2, 3, 4]⟩] s0).txState = .pollPending ∧
      (queued [⟨1, true, hE4, [1, 2, 3, 4]⟩] s0).q.reqs = [⟨1, true, hE4, [1, 2, 3, 4]⟩]) :=
  ⟨meets (by decide +kernel) (by decide +kernel), meets (by decide +kernel) (by decide +kernel)⟩

/-- No ACK needed; waiting; timed out with retries used up; timed out with one left. For TX_POLL and NACK_IN. -/
theorem witness_InFlight :
    ((inFlight false hE0 [] 0 false s0).Inv ∧ (inFlight false hE0 [] 0 false s0).txNoack = true) ∧
    ((inFlight true hE0 [] 0 false s0).Inv ∧ (inFlight true hE0 [] 0 false s0).ackTmr.raised = false) ∧
    ((inFlight true hE0 [] 3 true s0).Inv ∧ (inFlight true hE0 [] 3 true s0).ackTmr.raised = true ∧
      (inFlight true hE0 [] 3 true s0).txRetry = s0.cfg.maxRetries ∧ s0.cfg.nackCountsRetry = true) ∧
    ((inFlight true hE0 [] 2 true s0).Inv ∧ (inFlight true hE0 [] 2 true s0).txNoack = false ∧
      (inFlight true hE0 [] 2 true s0).txRetry < s0.cfg.maxRetries) ∧
    ((inFlight true hE0 [] 3 false (State.constructed { Config.tc with nackCountsRetry := false })).Inv ∧
      { Config.tc with nackCountsRetry := false }.nackCountsRetry = false) :=
  ⟨meets (by decide +kernel) (by decide +kernel), meets (by decide +kernel) (by decide +kernel),
   meets (by decide +kernel) (by decide +kernel), meets (by decide +kernel) (by decide +kernel),
   meets (by decide +kernel) (by decide +kernel)⟩

theorem witness_AckIn :
    (inFlight true hE0 [] 2 false s0).txState = .transmitPacket ∧ s0.txState = .pollPending := by decide

theorem witness_TxDrain :
    (s0.Inv ∧ s0.tx.contents = []) ∧ ((withTx [0x55, 0xAA] s0).Inv ∧ (withTx [0x55, 0xAA] s0).tx.contents = [0x55, 0xAA]) :=
  ⟨meets (by decide +kernel) (by decide +kernel), meets (by decide +kernel) (by decide +kernel)⟩

/-- A time event that is idle, one with 1 left, one with 2 left. -/
theorem witness_Tick :
    s0.rxTmr.active = false ∧ (⟨1, true, false⟩ : TimeEvent).rem.toNat ≤ 1 ∧ 2 ≤ (⟨2, true, false⟩ : TimeEvent).rem.toNat := by
  decide

theorem witness_Timer : 2 < (3#32).toNat ∧ (1 ≤ 3 ∧ (3#32).toNat ≤ 3) ∧ (1 ≤ 1 ∧ (0#32).toNat ≤ 1) := by decide

theorem witness_EveryStep :
    s0.Inv ∧ (∃ t, exec .tick s0 = .next t ∧ (t.result == Result.none) = true) ∧ step s0 = .next s0 :=
  ⟨State.inv_of_check (by decide +kernel), of_ends (by decide +kernel), rfl⟩

theorem witness_EveryOperationCompletes :
    s0.Inv ∧ wellFormed (.frameEncode hA plA) = true ∧ Instr.tick ≠ .rxPoll ∧ Instr.tick ≠ .txPoll ∧
    Instr.tick ≠ .nackIn :=
  meets (by decide +kernel) (by decide)

theorem witness_MachinesOwn :
    ofDelivery .txPoll = true ∧ ofDeframer .rxPoll = true ∧
    ∃ t, exec .txPoll (queued [⟨1, true, hE0, []⟩] s0) = .next t ∧ (t.rxTmr == s0.rxTmr) = true :=
  ⟨by decide, by decide, of_ends (by decide +kernel)⟩

/-- tx_req and tx_state are written by a dequeue, tx_state by ACK_IN. -/
theorem witness_RequestIsWritten :
    (∃ t, exec .txPoll (queued [⟨1, true, hE4, [1, 2, 3, 4]⟩] s0) = .next t ∧
      (decide (t.txReq ≠ s0.txReq) && decide (t.txState ≠ s0.txState)) = true) ∧ Instr.txPoll ≠ .reset :=
  ⟨of_ends (by decide +kernel), by decide⟩

/-- rx_hdr is written by a poll of WAIT_HEADER; and a state of each kind that holds a header. -/
theorem witness_HeaderRegister :
    (∃ t, exec .rxPoll (phase .waitHeader hA [] false (withRx [1, 1, 0, 0] s0)) = .next t ∧
      decide (t.rxHdr ≠ hA) = true) ∧
    (phase .waitPayload hA [] false s0).Inv ∧ (phase .waitCrcPost hA plA false s0).Inv ∧ (holding hA plA s0).Inv :=
  ⟨of_ends (by decide +kernel), State.inv_of_check (by decide +kernel), State.inv_of_check (by decide +kernel),
   State.inv_of_check (by decide +kernel)⟩

/-- Each flag of the deframer's side, changed. -/
theorem witness_Flags_rx :
    (∃ t, exec .rxPoll { withRx [0xAA] s0 with preIdx := 3 } = .next t ∧ t.rxTmr.active = true) ∧
    (∃ t, exec .tick { s0 with rxTmr := ⟨1, true, false⟩ } = .next t ∧ t.rxTmr.raised = true) ∧
    (∃ t, exec .rxPoll (phase .waitHeader hA [] true s0) = .next t ∧ (!t.rxTmr.raised) = true) ∧
    (∃ t, exec (.rxByte 4) (withRx [1, 2, 3] (sized 4 16 32)) = .next t ∧ t.rx.ix.full = true) ∧
    (∃ t, exec (.rxByte 5) (withRx [1, 2, 3, 4] (sized 4 16 32)) = .next t ∧ t.rxOverrun = true) ∧
    (∃ t, exec .tick { s0 with rxOverrun := true } = .next t ∧ t.rxOverrun = true) :=
  ⟨of_ends (by decide +kernel), of_ends (by decide +kernel), of_ends (by decide +kernel), of_ends (by decide +kernel),
   of_ends (by decide +kernel), of_ends (by decide +kernel)⟩

/-- Each flag of Transmit Delivery's side, changed. -/
theorem witness_Flags_tx :
    (∃ t, exec .txPoll (queued [⟨1, true, hE0, []⟩] s0) = .next t ∧ t.ackTmr.active = true) ∧
    (∃ t, exec .tick { s0 with ackTmr := ⟨1, true, false⟩ } = .next t ∧ t.ackTmr.raised = true) ∧
    (∃ t, exec .ackIn (inFlight true hE0 [] 0 true s0) = .next t ∧ (!t.ackTmr.raised) = true) ∧
    (∃ t, exec .txPoll (queued [⟨1, false, hE0, []⟩] s0) = .next t ∧ t.txNoack = true) ∧
    (∃ t, exec .txPoll (queued [⟨1, false, hE0, []⟩] (sized 4 16 32)) = .next t ∧ t.tx.ix.full = true) ∧
    (∃ t, exec .txDrain (withTx fE0 (sized 4 16 32)) = .next t ∧ (!t.tx.ix.full) = true) ∧
    (withTx fE0 (sized 4 16 32)).tx.ix.full = true :=
  ⟨of_ends (by decide +kernel), of_ends (by decide +kernel), of_ends (by decide +kernel), of_ends (by decide +kernel),
   of_ends (by decide +kernel), of_ends (by decide +kernel), by decide +kernel⟩

/-- A flag of each kind cleared, and q.full set, at the boundary: the clauses for R36's "cleared by" column. -/
theorem witness_Flags_cleared :
    (∃ t, exec .rxPoll (phase .waitHeader hA [] false (withRx [1, 1, 1, 1] s0)) = .next t ∧
      (!t.rxTmr.active) = true) ∧
    (∃ t, exec .tick { s0 with rxTmr := ⟨1, true, false⟩ } = .next t ∧ (!t.rxTmr.active && t.rxTmr.raised) = true) ∧
    (∃ t, exec .tick { s0 with ackTmr := ⟨1, true, false⟩ } = .next t ∧ (!t.ackTmr.active && t.ackTmr.raised) = true) ∧
    (∃ t, exec .nackIn (inFlight true hE0 [] 3 false s0) = .next t ∧ (!t.ackTmr.active) = true) ∧
    (∃ t, exec .ackIn (inFlight true hE0 [] 0 false s0) = .next t ∧ (!t.ackTmr.active) = true) :=
  ⟨of_ends (by decide +kernel), of_ends (by decide +kernel), of_ends (by decide +kernel), of_ends (by decide +kernel),
   of_ends (by decide +kernel)⟩

theorem witness_Flags_full :
    (let s := withRx [1, 2, 3, 4] (sized 4 16 32)
     s.Inv ∧ s.rx.ix.full = true ∧ ∃ t, exec .rxPoll s = .next t ∧ (!t.rx.ix.full) = true) ∧
    (∃ t, exec (.txEnqueue 1 true hE0 []) (sized 4 16 6) = .next t ∧ t.q.ix.full = true) ∧
    (∃ t, exec .rxPoll (phase .waitHeader hA [] true (sized 4 16 6)) = .next t ∧ t.q.ix.full = true) ∧
    (let s := queued [⟨1, true, hE0, []⟩] (sized 4 16 6)
     s.Inv ∧ s.q.ix.full = true ∧ ∃ t, exec .txPoll s = .next t ∧ (!t.q.ix.full) = true) :=
  ⟨⟨State.inv_of_check (by decide +kernel), by decide +kernel, of_ends (by decide +kernel)⟩,
   of_ends (by decide +kernel), of_ends (by decide +kernel),
   ⟨State.inv_of_check (by decide +kernel), by decide +kernel, of_ends (by decide +kernel)⟩⟩

theorem witness_Configuration :
    (withTx [0x55] s0).Inv ∧ ∃ t, exec .txDrain (withTx [0x55] s0) = .next t ∧ (t.wireOut == [0x55]) = true :=
  ⟨State.inv_of_check (by decide +kernel), of_ends (by decide +kernel)⟩

/-- Each store, written. -/
theorem witness_Stores :
    (∃ t, exec .rxPoll (phase .waitPayload hA [] false (withRx plA s0)) = .next t ∧
      (decide (t.rxPl ≠ []) && decide (t.rx.ix.tail = 3)) = true) ∧
    (∃ t, exec .txPoll (queued [⟨1, true, hE4, [1, 2, 3, 4]⟩] s0) = .next t ∧
      (decide (t.txReq.pl ≠ []) && decide (t.tx.buf ≠ []) && decide (t.tx.ix.head = 20) && decide (t.q.reqs = [])) = true) ∧
    (∃ t, exec (.rxByte 5) s0 = .next t ∧ (decide (t.rx.buf ≠ []) && decide (t.rx.ix.head = 1)) = true) ∧
    (∃ t, exec (.txEnqueue 1 true hE0 []) s0 = .next t ∧ decide (t.q.reqs.length = 1) = true) :=
  ⟨of_ends (by decide +kernel), of_ends (by decide +kernel), of_ends (by decide +kernel), of_ends (by decide +kernel)⟩

/-- A request in flight and one queued behind it: for NoSecondRequest and, with no ACK needed, NoAckRequest. -/
theorem witness_NoSecond :
    ((queued [⟨1, true, hE0, []⟩] (inFlight false hE4 [1, 2, 3, 4] 0 false s0)).Inv ∧
      (queued [⟨1, true, hE0, []⟩] (inFlight false hE4 [1, 2, 3, 4] 0 false s0)).txState = .transmitPacket ∧
      (queued [⟨1, true, hE0, []⟩] (inFlight false hE4 [1, 2, 3, 4] 0 false s0)).txNoack = true) ∧
    (∃ t, exec .nackIn (queued [⟨1, true, hE0, []⟩] (inFlight false hE4 [1, 2, 3, 4] 0 false s0)) = .next t ∧
      (t.tx.contents == []) = true) :=
  ⟨meets (by decide +kernel) (by decide +kernel), of_ends (by decide +kernel)⟩

/-- Room for exactly MAX_RETRIES + 1 = 4 frames of 16 bytes. -/
theorem witness_Unanswered :
    (queued [⟨1, true, hE0, []⟩] (sized 4 64 32)).Inv ∧
    (queued [⟨1, true, hE0, []⟩] (sized 4 64 32)).txState = .pollPending ∧
    (queued [⟨1, true, hE0, []⟩] (sized 4 64 32)).q.reqs = [⟨1, true, hE0, []⟩] ∧
    (sized 4 64 32).tx.ix.dataLen + (Config.tc.maxRetries.toNat + 1) * (16 + hE0.len.toNat)
      ≤ (sized 4 64 32).cfg.txCap.toNat :=
  meets (by decide +kernel) (by decide +kernel)

/-- A whole frame without a payload, one with, and one of an ACK, each with a byte after it. -/
theorem witness_WholeFrame :
    ((withRx (fCmd ++ [0x99]) s0).Inv ∧ (withRx (fCmd ++ [0x99]) s0).rx.contents = frameEncode s0.cfg hCmd [] ++ [0x99] ∧
      s0.preIdx = 0 ∧ s0.rxOverrun = false ∧ hdrValid s0.cfg hCmd = true ∧ isAckPkt s0.cfg hCmd = false) ∧
    ((withRx (fA ++ [0x99]) s0).Inv ∧ (withRx (fA ++ [0x99]) s0).rx.contents = frameEncode s0.cfg hA plA ++ [0x99] ∧
      hdrValid s0.cfg hA = true ∧ plA.length = hA.len.toNat) ∧
    (hdrValid s0.cfg hAck = true ∧ isAckPkt s0.cfg hAck = true) :=
  ⟨meets (by decide +kernel) (by decide +kernel), meets (by decide +kernel) (by decide +kernel), by decide +kernel⟩

/-- The same frame with bit 0 of its checksum's first byte flipped, under both flush policies. -/
theorem witness_FlippedChecksum :
    (withRx (fABad ++ [0x99]) s0).Inv ∧
    fABad = (frameEncode s0.cfg hA plA).set (8 + hA.len.toNat + 0)
      ((frameEncode s0.cfg hA plA).getD (8 + hA.len.toNat + 0) 0 ^^^ (1#8 <<< 0)) ∧
    (withRx (fABad ++ [0x99]) s0).rx.contents = fABad ++ [0x99] ∧ s0.cfg.flushOnTrailerError = true ∧
    { Config.tc with flushOnTrailerError := false }.flushOnTrailerError = false :=
  meets (by decide +kernel) (by decide +kernel)

/-- Two states after RESET that differ in everything R45 leaves unspecified. -/
def other : State :=
  { s0 with rxHdr := hA, rxPl := [(0, 7)], txReq := { origin := 9, ackReq := true, hdr := hE4, pl := [(1, 2)] },
            freeCtr := 3, rxTmr := ⟨7, false, false⟩, ackTmr := ⟨8, false, false⟩,
            rx := { s0.rx with buf := [(5, 5)] }, tx := { s0.tx with buf := [(6, 6)] } }

theorem witness_Unspecified : s0.Inv ∧ other.Inv ∧ s0.SameSeen other ∧ s0 ≠ other := by
  refine ⟨State.inv_of_check (by decide +kernel), State.inv_of_check (by decide +kernel), ?_, by decide +kernel⟩
  constructor
  case rxHdr => intro h; cases h
  case rxPl => intro h; rcases h with h | h <;> cases h
  case rxTmr_rem => intro h; cases h
  case ackReq => intro h; cases h
  case txHdr => intro h; cases h
  case txPl => intro h; cases h
  case ackTmr_rem => intro h; cases h
  all_goals rfl

/-! ## A run of an environment that meets its duties (R343), and one that never releases -/

/-- RX_RELEASE, then the five duties over and over. -/
def dutyOp : Nat → Instr
  | 0 => .rxRelease
  | n + 1 => match n % 5 with
    | 0 => .rxPoll
    | 1 => .txPoll
    | 2 => .tick
    | 3 => .txDrain
    | _ => .rxRelease

/-- The block after the held packet is freed, `r` the last answer. -/
def freed (r : Result) : State := { holding hA plA s0 with rxState := .waitPreamble, result := r }

def dutyRun : Nat → State
  | 0 => holding hA plA s0
  | n + 1 => freed (if n % 5 = 4 then .byte none else .none)

theorem freed_rxLen (r : Result) : rxLen (freed r) = 0 := show s0.rx.ix.dataLen = 0 by decide +kernel
theorem freed_txLen (r : Result) : txLen (freed r) = 0 := show s0.tx.ix.dataLen = 0 by decide +kernel

theorem freed_rxPoll (r : Result) : exec .rxPoll (freed r) = .next (freed .none) :=
  exec_rxPoll_of ((rxPoll_waitPreamble rfl).trans (pollPreamble_of_empty (freed_rxLen r)))
theorem freed_txPoll (r : Result) : exec .txPoll (freed r) = .next (freed .none) := rfl
theorem freed_tick (r : Result) : exec .tick (freed r) = .next (freed .none) := rfl
theorem freed_txDrain (r : Result) : exec .txDrain (freed r) = .next (freed (.byte none)) := by
  rw [exec, execTxDrain, if_pos (freed_txLen r)]
  rfl
theorem freed_rxRelease (r : Result) : exec .rxRelease (freed r) = .next (freed .none) := rfl

theorem duty_isRun : IsRun dutyOp dutyRun := by
  intro n
  cases n with
  | zero => rfl
  | succ n =>
    simp only [dutyOp, dutyRun]
    have h : n % 5 < 5 := Nat.mod_lt _ (by decide)
    rcases (by omega : n % 5 = 0 ∨ n % 5 = 1 ∨ n % 5 = 2 ∨ n % 5 = 3 ∨ n % 5 = 4) with h | h | h | h | h
    · rw [h, if_neg (show ¬ (n + 1) % 5 = 4 by omega)]; exact freed_rxPoll _
    · rw [h, if_neg (show ¬ (n + 1) % 5 = 4 by omega)]; exact freed_txPoll _
    · rw [h, if_neg (show ¬ (n + 1) % 5 = 4 by omega)]; exact freed_tick _
    · rw [h, if_pos (show (n + 1) % 5 = 4 by omega)]; exact freed_txDrain _
    · rw [h, if_neg (show ¬ (n + 1) % 5 = 4 by omega)]; exact freed_rxRelease _

theorem duty_often {k : Nat} {i : Instr} (h : ∀ n, n % 5 = k → dutyOp (n + 1) = i) (hk : k < 5) :
    InfinitelyOften dutyOp i :=
  fun n => ⟨5 * n + k + 1, by omega, h _ (by omega)⟩

theorem witness_Released :
    IsRun dutyOp dutyRun ∧ (dutyRun 0).rxState = .packetReady ∧ Fair dutyOp dutyRun :=
  ⟨duty_isRun, rfl,
   { rxPolls := duty_often (k := 0) (fun n h => by simp only [dutyOp, h]) (by decide)
     txPolls := duty_often (k := 1) (fun n h => by simp only [dutyOp, h]) (by decide)
     ticks := duty_often (k := 2) (fun n h => by simp only [dutyOp, h]) (by decide)
     drains := fun n _ => ⟨n + 1, by omega, .inr (freed_txLen _)⟩
     releases := fun n _ => duty_often (k := 4) (fun n h => by simp only [dutyOp, h]) (by decide) n
     acknowledges := fun n h => by cases h.2 }⟩

theorem witness_NeverReleased :
    IsRun (fun _ => .tick) (fun _ => holding hA plA s0) ∧ (holding hA plA s0).rxState = .packetReady ∧
    Instr.tick ≠ .rxRelease ∧ Instr.tick ≠ .reset :=
  ⟨fun _ => rfl, rfl, by decide, by decide⟩

/-- R6: of the answers only TX_ENQUEUE's Boolean is observed; R118: RX_FRAME of a packet, and of what is none. -/
theorem test_observation_and_rxFrame :
    (observe { s0 with result := .enqOk true }).enqOk = some true ∧
    observe { s0 with result := .word 2 } = observe s0 ∧ observe { s0 with result := .bool true } = observe s0 ∧
    rxFrame Config.tc hCmd [] = some (rxBytes fCmd) ∧ rxFrame Config.tc hA [] = none := by decide +kernel

end Sys2Proof.Tests
end

section
/-! SUPPORT. Which registers each operation reads and writes (10_state.md R26, R31, R23). The operations of Transmit
Delivery commute with replacing the deframer's registers, those of the deframer with replacing Transmit Delivery's; and
the only writers of tx_req, tx_state and rx_hdr. -/

namespace Sys2Proof.Machine

/-! ## Ending an operation commutes with an update that does not touch the answer -/

theorem finish_map (f : State → State) (hf : ∀ s r, f { s with result := r } = { f s with result := r })
    (r : Result) (e : Except Fault State) : finish r (e.map f) = mapNext f (finish r e) := by
  cases e with
  | ok s => exact congrArg Host.Outcome.next (hf s r).symm
  | error _ => rfl

/-! ## Transmit Delivery and the deframer's registers -/

section withDeframer
variable (d : DeframerRegs) (s : State)

@[simp] theorem State.withDeframer_txState : (s.withDeframer d).txState = s.txState := rfl
@[simp] theorem State.withDeframer_txReq : (s.withDeframer d).txReq = s.txReq := rfl
@[simp] theorem qFetch_withDeframer : qFetch (s.withDeframer d) = qFetch s := rfl

theorem done_withDeframer (r : Result) :
    done r (s.withDeframer d) = mapNext (fun t => t.withDeframer d) (done r s) := rfl

theorem finish_withDeframer (r : Result) (e : Except Fault State) :
    finish r (e.map fun t => t.withDeframer d) = mapNext (fun t => t.withDeframer d) (finish r e) :=
  finish_map _ (fun _ _ => rfl) r e

/-- R232: a send attempt neither reads nor writes the deframer's registers. -/
theorem sendFields_withDeframer (fs : List (List Byte)) :
    ∀ s : State, sendFields fs (s.withDeframer d) = (sendFields fs s).withDeframer d := by
  induction fs with
  | nil => intro s; rfl
  | cons f fs ih =>
    intro s
    simp only [sendFields, apply_ite (fun t : State => t.withDeframer d), ← ih]
    rfl

theorem enterTransmit_withDeframer :
    enterTransmit (s.withDeframer d) = (enterTransmit s).map fun t => t.withDeframer d := by
  cases hm : memRead s.txReq.pl 0 s.txReq.hdr.len.toNat with
  | none => simp only [enterTransmit, send, enterTransmitRegs_txReq, State.withDeframer_txReq, hm]; rfl
  | some pl =>
    simp only [enterTransmit, send, enterTransmitRegs_txReq, State.withDeframer_txReq, hm]
    exact congrArg Except.ok (sendFields_withDeframer d _ (enterTransmitRegs s))

theorem resend_withDeframer (e : Err) :
    resend e (s.withDeframer d) = (resend e s).map fun t => t.withDeframer d :=
  enterTransmit_withDeframer d (exitTransmit (setErr e s))

theorem retryOrAbandon_withDeframer (e : Err) :
    retryOrAbandon e (s.withDeframer d) = (retryOrAbandon e s).map fun t => t.withDeframer d := by
  simp only [retryOrAbandon, apply_ite (Except.map fun t : State => t.withDeframer d), resend_withDeframer]
  rfl

theorem pollPending_withDeframer :
    pollPending (s.withDeframer d) = (pollPending s).map fun t => t.withDeframer d := by
  cases hq : qFetch s with
  | none => simp only [pollPending, qFetch_withDeframer, hq]; rfl
  | some r =>
    cases hm : memWrite s.txReq.pl 0 r.hdr.len.toNat r.pl with
    | none => simp only [pollPending, qFetch_withDeframer, hq, State.withDeframer_txReq, hm]; rfl
    | some m =>
      simp only [pollPending, qFetch_withDeframer, hq, State.withDeframer_txReq, hm]
      exact enterTransmit_withDeframer d (loadRequest r m (qDrop r s))

theorem pollTransmit_withDeframer :
    pollTransmit (s.withDeframer d) = (pollTransmit s).map fun t => t.withDeframer d := by
  simp only [pollTransmit, apply_ite (Except.map fun t : State => t.withDeframer d),
    ← retryOrAbandon_withDeframer]
  rfl

theorem txPoll_withDeframer : txPoll (s.withDeframer d) = (txPoll s).map fun t => t.withDeframer d := by
  cases hs : s.txState with
  | pollPending => simpa only [txPoll, State.withDeframer_txState, hs] using pollPending_withDeframer d s
  | transmitPacket => simpa only [txPoll, State.withDeframer_txState, hs] using pollTransmit_withDeframer d s

theorem nackStep_withDeframer : nackStep (s.withDeframer d) = (nackStep s).map fun t => t.withDeframer d := by
  simp only [nackStep, apply_ite (Except.map fun t : State => t.withDeframer d),
    ← retryOrAbandon_withDeframer, ← resend_withDeframer]
  rfl

/-- R26: whatever the deframer's registers hold, an operation of Transmit Delivery does the same and leaves them. -/
theorem exec_withDeframer {i : Instr} (hi : ofDelivery i = true) :
    exec i (s.withDeframer d) = mapNext (fun t => t.withDeframer d) (exec i s) := by
  cases i with
  | txEnqueue o a hdr pl =>
    simp only [exec, execTxEnqueue, apply_ite (mapNext fun t : State => t.withDeframer d)]
    rfl
  | txPoll => simp only [exec, execTxPoll, txPoll_withDeframer, finish_withDeframer]
  | ackIn =>
    simp only [exec, execAckIn, ← done_withDeframer, apply_ite (fun t : State => t.withDeframer d)]
    rfl
  | nackIn =>
    simp only [exec, execNackIn, ← finish_withDeframer, nackStep_withDeframer,
      apply_ite (Except.map fun t : State => t.withDeframer d)]
    rfl
  | txDrain =>
    simp only [exec, execTxDrain, apply_ite (mapNext fun t : State => t.withDeframer d)]
    rfl
  | queueDepth => rfl
  | _ => cases hi

end withDeframer

/-! ## The deframer and Transmit Delivery's registers -/

section withDelivery
variable (d : DeliveryRegs) (s : State)

@[simp] theorem State.withDelivery_rxState : (s.withDelivery d).rxState = s.rxState := rfl
@[simp] theorem State.withDelivery_rxHdr : (s.withDelivery d).rxHdr = s.rxHdr := rfl
@[simp] theorem State.withDelivery_rxPl : (s.withDelivery d).rxPl = s.rxPl := rfl

theorem done_withDelivery (r : Result) :
    done r (s.withDelivery d) = mapNext (fun t => t.withDelivery d) (done r s) := rfl

theorem finish_withDelivery (r : Result) (e : Except Fault State) :
    finish r (e.map fun t => t.withDelivery d) = mapNext (fun t => t.withDelivery d) (finish r e) :=
  finish_map _ (fun _ _ => rfl) r e

/-- R302: the recovery neither reads nor writes Transmit Delivery's registers. -/
theorem rxFail_withDelivery (e : Err) : rxFail e (s.withDelivery d) = (rxFail e s).withDelivery d := by
  have hctl : sendCtl s.cfg.nackType (flushFor e (setErr e (s.withDelivery d))) =
      (sendCtl s.cfg.nackType (flushFor e (setErr e s))).withDelivery d := rfl
  exact congrArg restartRx hctl

theorem preambleStep_withDelivery (b : Byte) :
    preambleStep b (s.withDelivery d) = (preambleStep b s).withDelivery d := by
  simp only [preambleStep, apply_ite (fun t : State => t.withDelivery d)]
  rfl

theorem headerStep_withDelivery (h : Header) :
    headerStep h (s.withDelivery d) = (headerStep h s).withDelivery d := by
  simp only [headerStep, apply_ite (fun t : State => t.withDelivery d), ← rxFail_withDelivery]
  rfl

theorem trailerStep_withDelivery (sum received post : U32) :
    trailerStep sum received post (s.withDelivery d) = (trailerStep sum received post s).withDelivery d := by
  have hready :
      enterReady (if isAckPkt s.cfg s.rxHdr then s.withDelivery d else sendCtl s.cfg.ackType (s.withDelivery d)) =
      (enterReady (if isAckPkt s.cfg s.rxHdr then s else sendCtl s.cfg.ackType s)).withDelivery d := by
    cases isAckPkt s.cfg s.rxHdr <;> rfl
  simp only [trailerStep, apply_ite (fun t : State => t.withDelivery d), ← rxFail_withDelivery, ← hready]
  rfl

theorem rxRead_withDelivery (n : Nat) :
    rxRead n (s.withDelivery d) = (rxRead n s).map fun p => (p.1, p.2.withDelivery d) := by
  simp only [rxRead, Option.map_map]
  rfl

theorem pollPreamble_withDelivery :
    pollPreamble (s.withDelivery d) = (pollPreamble s).map fun t => t.withDelivery d := by
  simp only [pollPreamble, rxRead_withDelivery, apply_ite (Except.map fun t : State => t.withDelivery d)]
  refine if_congr Iff.rfl rfl ?_
  rcases rxRead 1 s with _ | ⟨bs, t⟩
  · rfl
  · match bs with
    | [] => rfl
    | [b] => exact congrArg Except.ok (preambleStep_withDelivery d t b)
    | _ :: _ :: _ => rfl

theorem pollHeader_withDelivery :
    pollHeader (s.withDelivery d) = (pollHeader s).map fun t => t.withDelivery d := by
  simp only [pollHeader, rxRead_withDelivery, apply_ite (Except.map fun t : State => t.withDelivery d),
    rxFail_withDelivery]
  refine if_congr Iff.rfl rfl (if_congr Iff.rfl rfl ?_)
  rcases rxRead 4 s with _ | ⟨bs, t⟩
  · rfl
  · match bs with
    | [] | [_] | [_, _] | [_, _, _] => rfl
    | [b0, b1, b2, b3] => exact congrArg Except.ok (headerStep_withDelivery d t _)
    | _ :: _ :: _ :: _ :: _ :: _ => rfl

theorem pollPayload_withDelivery :
    pollPayload (s.withDelivery d) = (pollPayload s).map fun t => t.withDelivery d := by
  simp only [pollPayload, rxRead_withDelivery, apply_ite (Except.map fun t : State => t.withDelivery d),
    rxFail_withDelivery]
  refine if_congr Iff.rfl rfl (if_congr Iff.rfl rfl ?_)
  rw [State.withDelivery_rxHdr, State.withDelivery_rxPl]
  rcases rxRead s.rxHdr.len.toNat s with _ | ⟨pl, t⟩
  · rfl
  · simp only [Option.map_some]
    cases memWrite s.rxPl 0 s.rxHdr.len.toNat pl <;> rfl

theorem pollTrailer_withDelivery :
    pollTrailer (s.withDelivery d) = (pollTrailer s).map fun t => t.withDelivery d := by
  simp only [pollTrailer, rxRead_withDelivery, apply_ite (Except.map fun t : State => t.withDelivery d),
    rxFail_withDelivery]
  refine if_congr Iff.rfl rfl (if_congr Iff.rfl rfl ?_)
  rw [State.withDelivery_rxHdr, State.withDelivery_rxPl]
  rcases rxRead 8 s with _ | ⟨trailer, t⟩
  · rfl
  · simp only [Option.map_some]
    cases memRead s.rxPl 0 s.rxHdr.len.toNat with
    | none => rfl
    | some pl => exact congrArg Except.ok (trailerStep_withDelivery d t _ _ _)

theorem rxPoll_withDelivery : rxPoll (s.withDelivery d) = (rxPoll s).map fun t => t.withDelivery d := by
  cases hs : s.rxState with
  | waitPreamble => simpa only [rxPoll, State.withDelivery_rxState, hs] using pollPreamble_withDelivery d s
  | waitHeader => simpa only [rxPoll, State.withDelivery_rxState, hs] using pollHeader_withDelivery d s
  | waitPayload => simpa only [rxPoll, State.withDelivery_rxState, hs] using pollPayload_withDelivery d s
  | waitCrcPost => simpa only [rxPoll, State.withDelivery_rxState, hs] using pollTrailer_withDelivery d s
  | packetReady => simp only [rxPoll, State.withDelivery_rxState, hs, Except.map]

/-- R26: whatever Transmit Delivery's registers hold, an operation of the deframer does the same and leaves them. -/
theorem exec_withDelivery {i : Instr} (hi : ofDeframer i = true) :
    exec i (s.withDelivery d) = mapNext (fun t => t.withDelivery d) (exec i s) := by
  cases i with
  | rxByte b => rfl
  | rxPoll => simp only [exec, execRxPoll, rxPoll_withDelivery, finish_withDelivery]
  | rxRelease =>
    simp only [exec, execRxRelease, ← done_withDelivery, apply_ite (fun t : State => t.withDelivery d)]
    rfl
  | _ => cases hi

end withDelivery

/-! ## The writers of the deframer's registers -/

section writers
variable {i : Instr} {s t : State}

/-- R26, R273: an operation other than RX_POLL, RX_RELEASE and RESET leaves the deframer's registers, but for the countdown
of rx_tmr. -/
theorem exec_keeps_deframer (h : exec i s = .next t) (hpoll : i ≠ .rxPoll) (hrelease : i ≠ .rxRelease)
    (hreset : i ≠ .reset) :
    t.rxState = s.rxState ∧ t.preIdx = s.preIdx ∧ t.rxHdr = s.rxHdr ∧ t.rxPl = s.rxPl ∧
      (i ≠ .tick → t.rxTmr = s.rxTmr) := by
  rcases exec_cases h with ⟨hi, -⟩ | ⟨-, u, hu, rfl⟩ | ⟨-, u, rfl | ⟨-, -, hu⟩, rfl⟩ | ⟨hi, -⟩ | ⟨b, -, rfl⟩ |
    ⟨hi, -⟩ | ⟨o, a, hd, pl, -, -, rfl⟩ | ⟨-, rfl⟩ | ⟨-, ⟨-, rfl⟩ | ⟨-, rfl⟩⟩ | ⟨hi, rfl⟩ | ⟨r, rfl⟩
  · exact absurd hi hpoll
  · rw [txPoll_frame hu]; exact ⟨rfl, rfl, rfl, rfl, fun _ => rfl⟩
  · exact ⟨rfl, rfl, rfl, rfl, fun _ => rfl⟩
  · rw [nackStep_frame hu]; exact ⟨rfl, rfl, rfl, rfl, fun _ => rfl⟩
  · exact absurd hi hreset
  · exact ⟨rfl, rfl, rfl, rfl, fun _ => rfl⟩
  · exact absurd hi hrelease
  · exact ⟨rfl, rfl, rfl, rfl, fun _ => rfl⟩
  · split <;> exact ⟨rfl, rfl, rfl, rfl, fun _ => rfl⟩
  · exact ⟨rfl, rfl, rfl, rfl, fun _ => rfl⟩
  · exact ⟨rfl, rfl, rfl, rfl, fun _ => rfl⟩
  · exact ⟨rfl, rfl, rfl, rfl, fun hne => absurd hi hne⟩
  · exact ⟨rfl, rfl, rfl, rfl, fun _ => rfl⟩

/-- R23: a poll that writes rx_hdr is one of WAIT_HEADER, and the header it writes is valid. -/
theorem rxPoll_writes_rxHdr (h : rxPoll s = .ok t) (hne : t.rxHdr ≠ s.rxHdr) :
    s.rxState = .waitHeader ∧ hdrValid s.cfg t.rxHdr = true := by
  rcases rxPoll_cases h with rfl | ⟨-, -, b, rfl⟩ | ⟨-, e, rfl, -⟩ | ⟨hs, -, hd, rfl⟩ | ⟨-, -, m, -, rfl⟩ |
    ⟨-, -, sum, received, post, rfl⟩
  · exact absurd rfl hne
  · rw [preambleStep_frame] at hne
    exact absurd rfl hne
  · exact absurd (rxFail_rxHdr e s) hne
  · rcases headerStep_cases hd (rxTaken 4 s) with ⟨hv, ⟨-, e⟩ | ⟨-, e⟩⟩ | ⟨-, e⟩
    · rw [e]; exact ⟨hs, hv⟩
    · rw [e]; exact ⟨hs, hv⟩
    · rw [e] at hne
      exact absurd (rxFail_rxHdr _ _) hne
  · exact absurd rfl hne
  · rw [trailerStep_frame] at hne
    exact absurd rfl hne

/-- R23: the only writer of rx_hdr, apart from RESET. -/
theorem exec_writes_rxHdr (h : exec i s = .next t) (hreset : i ≠ .reset) (hne : t.rxHdr ≠ s.rxHdr) :
    i = .rxPoll ∧ s.rxState = .waitHeader ∧ hdrValid s.cfg t.rxHdr = true := by
  by_cases hpoll : i = .rxPoll
  · subst hpoll
    obtain ⟨u, hu, rfl⟩ := exec_rxPoll h
    exact ⟨rfl, rxPoll_writes_rxHdr (t := u) hu hne⟩
  by_cases hrelease : i = .rxRelease
  · subst hrelease
    rw [done_next.mp h] at hne
    split at hne <;> exact absurd rfl hne
  · obtain ⟨-, -, hkept, -⟩ := exec_keeps_deframer h hpoll hrelease hreset
    exact absurd hkept hne

/-- R108 (d): a valid header announces at most 256 bytes. -/
theorem len_le_of_hdrValid {c : Config} {h : Header} (hv : hdrValid c h = true) : h.len.toNat ≤ maxPayload := by
  unfold hdrValid at hv
  split at hv
  · cases hv
  · split_ifs at hv
    exact of_decide_eq_true hv

/-! ## The writers of tx_req and tx_state -/

/-- R31: a resend uses the same copy of the request. -/
theorem resend_txReq {e : Err} (h : resend e s = .ok t) : t.txReq = s.txReq := by
  obtain ⟨-, ht⟩ := enterTransmit_frame h
  rw [ht]
  rfl

/-- R31: a poll that writes tx_req dequeues a request. -/
theorem txPoll_writes_txReq (h : txPoll s = .ok t) (hne : t.txReq ≠ s.txReq) :
    s.txState = .pollPending ∧ s.q.reqs ≠ [] := by
  rcases txPoll_cases h with ⟨rfl, -⟩ | ⟨hs, r, rest, m, hq, -, -⟩ | ⟨-, -, rfl⟩ | ⟨-, -, -, ⟨-, rfl⟩ | ⟨-, he⟩⟩
  · exact absurd rfl hne
  · exact ⟨hs, hq ▸ List.cons_ne_nil r rest⟩
  · exact absurd rfl hne
  · exact absurd rfl hne
  · exact absurd (resend_txReq he) hne

/-- R31, R30: apart from RESET, tx_req is written by no operation but TX_POLL, and tx_state only by TX_POLL, ACK_IN and
NACK_IN. -/
theorem exec_keeps_request (h : exec i s = .next t) (hpoll : i ≠ .txPoll) (hreset : i ≠ .reset) :
    t.txReq = s.txReq ∧ (i ≠ .ackIn → i ≠ .nackIn → t.txState = s.txState) := by
  rcases exec_cases h with ⟨-, u, hu, rfl⟩ | ⟨hi, -⟩ | ⟨hi, u, rfl | ⟨-, -, hu⟩, rfl⟩ | ⟨hi, -⟩ | ⟨b, -, rfl⟩ |
    ⟨-, rfl⟩ | ⟨o, a, hd, pl, -, -, rfl⟩ | ⟨hi, rfl⟩ | ⟨-, ⟨-, rfl⟩ | ⟨-, rfl⟩⟩ | ⟨-, rfl⟩ | ⟨r, rfl⟩
  · rw [rxPoll_frame hu]; exact ⟨rfl, fun _ _ => rfl⟩
  · exact absurd hi hpoll
  · exact ⟨rfl, fun _ _ => rfl⟩
  · rw [nackStep_frame hu]; exact ⟨rfl, fun _ hne => absurd hi hne⟩
  · exact absurd hi hreset
  · exact ⟨rfl, fun _ _ => rfl⟩
  · exact ⟨rfl, fun _ _ => rfl⟩
  · exact ⟨rfl, fun _ _ => rfl⟩
  · split <;> exact ⟨rfl, fun hne => absurd hi hne⟩
  · exact ⟨rfl, fun _ _ => rfl⟩
  · exact ⟨rfl, fun _ _ => rfl⟩
  · exact ⟨rfl, fun _ _ => rfl⟩
  · exact ⟨rfl, fun _ _ => rfl⟩

end writers

/-! ## The statements -/

/-- Settles O44: each machine's operations commute with replacing the other machine's registers, and the cases of an
operation show which ones write the deframer's. -/
theorem machinesOwnTheirRegisters : Obligations.MachinesOwnTheirRegisters :=
  ⟨fun _ s d hi => exec_withDeframer d s hi, fun _ s d hi => exec_withDelivery d s hi,
   fun _ _ _ h hpoll hrelease hreset => exec_keeps_deframer h hpoll hrelease hreset⟩

/-- Settles O45: of the branches of TX_POLL only the dequeue writes tx_req; every other operation keeps it. -/
theorem requestIsWrittenOnlyByTheDequeue : Obligations.RequestIsWrittenOnlyByTheDequeue := by
  intro i s t h hreset
  by_cases hpoll : i = .txPoll
  · subst hpoll
    obtain ⟨u, hu, rfl⟩ := exec_txPoll h
    exact ⟨fun hne => ⟨rfl, txPoll_writes_txReq hu hne⟩, fun _ => .inl rfl⟩
  · obtain ⟨hreq, hstate⟩ := exec_keeps_request h hpoll hreset
    refine ⟨fun hne => absurd hreq hne, fun hne => .inr ?_⟩
    by_contra hack
    rw [not_or] at hack
    exact hne (hstate hack.1 hack.2)

/-- Settles O46: the only writer of rx_hdr stores a header that passed HDR_VALID, and the invariant keeps it valid in
the states that hold one. -/
theorem headerRegisterHoldsOnlyValidHeaders : Obligations.HeaderRegisterHoldsOnlyValidHeaders := by
  refine ⟨fun i s t h hreset hne => exec_writes_rxHdr h hreset hne, fun s hinv hs => ?_⟩
  have hholds : holdsHeader s.rxState = true := by
    rcases hs with hs | hs | hs <;> rw [hs] <;> rfl
  exact ⟨hinv.header_valid hholds, len_le_of_hdrValid (hinv.header_valid hholds)⟩

end Sys2Proof.Machine
end

section
/-! SUPPORT. The queries of a ring and the preview of its oldest bytes (20_memory.md R62, R67): the length as the integer
difference of the indices, and a read and a fetch in the two cases of R66. -/

namespace Sys2Proof.Machine

namespace Indices

variable {ix : Indices} {cap : Nat}

/-- R62: under the ring's shape the natural number `dataLen` reduces, `head + cap - tail`, is the integer difference of
the indices plus one capacity, which the modulus drops. -/
theorem intCast_dataLen (h : ix.Wf cap) :
    (ix.dataLen : Int) = if ix.full then (cap : Int) else ((ix.head : Int) - (ix.tail : Int)) % (cap : Int) := by
  obtain ⟨rfl, -, -, htail, -⟩ := h
  unfold dataLen
  split
  · rfl
  · have hdiff : ((ix.head + ix.cap - ix.tail : Nat) : Int) = (ix.head : Int) - ix.tail + ix.cap := by omega
    rw [Int.natCast_emod, hdiff, Int.add_emod_right]

end Indices

namespace Ring

variable {r : Ring} {cap n : Nat}

/-- R66: a read of more bytes than are held fails. -/
theorem read_of_lt (hn : r.ix.dataLen < n) : r.read n = none := if_pos hn

/-- R66: a read of bytes that are held answers the oldest and leaves the rest, in order. -/
theorem exists_read_of_le (h : r.ix.Wf cap) (hn : n ≤ r.ix.dataLen) :
    ∃ r', r.read n = some (r.contents.take n, r') ∧ r'.contents = r.contents.drop n := by
  obtain ⟨hbytes, hrest⟩ := take_spec n h hn
  exact ⟨(Ring.take n r).2, by rw [read_of_le hn, ← hbytes], hrest⟩

/-- R67: a fetch fails when the read of as many bytes does. -/
theorem fetch_of_read_none (hr : r.read n = none) : r.fetch n = none := by rw [fetch, hr, Option.map_none]

/-- R67: a fetch answers the bytes the read of as many would remove. -/
theorem fetch_of_read_some {bs : List Byte} {r' : Ring} (hr : r.read n = some (bs, r')) : r.fetch n = some bs := by
  rw [fetch, hr, Option.map_some]

end Ring

/-! ## The statements -/

/-- Settles O18: DataLen by the integer difference of the indices; the other two queries are read off the capacity. -/
theorem ringQueriesFollowTheIndices : Obligations.RingQueriesFollowTheIndices := by
  intro ix cap h
  have hfree : ix.freeSpace = cap - ix.dataLen := by
    have := Indices.dataLen_add_freeSpace h
    omega
  exact ⟨Indices.intCast_dataLen h, hfree, h.cap_eq⟩

/-- Settles O19: a fetch follows the read of as many bytes, which fails on too few bytes held and otherwise removes the
oldest. -/
theorem ringFetchPreviewsTheOldest : Obligations.RingFetchPreviewsTheOldest := by
  intro r cap n h
  refine ⟨fun hlt => ?_, fun hle => ?_⟩
  · have hread := Ring.read_of_lt hlt
    exact ⟨Ring.fetch_of_read_none hread, hread⟩
  · obtain ⟨r', hread, hrest⟩ := Ring.exists_read_of_le h.ix hle
    exact ⟨Ring.fetch_of_read_some hread, r', hread, hrest⟩

end Sys2Proof.Machine
end

section
/-! SUPPORT. HDR_PACK (41_codec.md R144): its step in every state, and the LE word its four bytes stand for (R103). -/

namespace Sys2Proof.Machine

/-- R144: HDR_PACK succeeds in every state and writes the result alone. -/
theorem exec_hdrPack (h : Header) (s : State) :
    exec (.hdrPack h) s = .next { s with result := .bytes (hdrPack s.cfg.wireOrder h) } := rfl

/-- R103: under LE, two bytes followed by a u16 in wire order read as one word with the u16 on top. -/
theorem unwire32_le_append_wire16 (a b : Byte) (x : U16) : unwire32 .le ([a, b] ++ wire16 .le x) = x ++ b ++ a := by
  have hword : unwire32 .le ([a, b] ++ wire16 .le x) =
      word16 .le ((wire16 .le x).getD 0 0) ((wire16 .le x).getD 1 0) ++ b ++ a := rfl
  rw [hword, word16_wire16]

/-! ## The statement -/

/-- Settles O1: HDR_PACK's step is its answer by definition, and the LE word is the u16 that the header's last two bytes
stand for, above its direction and its type. -/
theorem hdrPackAnswersTypeDirLength : Obligations.HdrPackAnswersTypeDirLength :=
  fun h s => ⟨exec_hdrPack h s, unwire32_le_append_wire16 h.type h.dir h.len⟩

end Sys2Proof.Machine
end

section
/-! SUPPORT. The poll of the deframer in PACKET_READY (42_deframer.md R186), beside the polls of the other states. -/

namespace Sys2Proof.Machine

/-- R186: the poll in PACKET_READY answers the state it found. -/
theorem rxPoll_packetReady {s : State} (h : s.rxState = .packetReady) : rxPoll s = .ok s := by
  simp only [rxPoll, h]

/-! ## The statement -/

/-- Settles O28: the poll answers the state it found, and ending the operation writes the result alone. -/
theorem readyPollChangesNothing : Obligations.ReadyPollChangesNothing :=
  fun _ h => exec_rxPoll_of (rxPoll_packetReady h)

end Sys2Proof.Machine
end

section
/-! SUPPORT. QUEUE_DEPTH (43_delivery.md R231): every request takes at least one byte of the transmit queue (R72), so
the number of queued requests is at most TXQ_CAP and its 32-bit word is exact. -/

namespace Sys2Proof.Machine

/-- R72: a well-formed queue holds at most TXQ_CAP requests. -/
theorem Queue.Wf.length_reqs_le {q : Queue} {c : Config} (h : q.Wf c) : q.reqs.length ≤ c.txqCap.toNat := by
  have hone : ∀ n ∈ q.reqs.map (reqSize c), 1 ≤ n := by
    intro n hn
    obtain ⟨r, -, rfl⟩ := List.mem_map.mp hn
    exact Nat.le_trans (by decide) (reqSize_pos c r)
  calc q.reqs.length = (q.reqs.map (reqSize c)).length := (List.length_map _).symm
    _ ≤ (q.reqs.map (reqSize c)).sum := List.length_le_sum_of_one_le _ hone
    _ ≤ c.txqCap.toNat := h.fits

/-- R74: as a 32-bit word, the number of requests in a well-formed queue loses nothing. -/
theorem toNat_ofNat_qPending {s : State} (h : s.q.Wf s.cfg) :
    (BitVec.ofNat 32 (qPending s)).toNat = s.q.reqs.length := by
  have hlt : s.q.reqs.length < 2 ^ 32 := Nat.lt_of_le_of_lt h.length_reqs_le s.cfg.txqCap.isLt
  exact (BitVec.toNat_ofNat _ _).trans (Nat.mod_eq_of_lt hlt)

/-- R231: QUEUE_DEPTH succeeds in every state and writes the result alone. -/
theorem exec_queueDepth (s : State) :
    exec .queueDepth s = .next { s with result := .word (BitVec.ofNat 32 (qPending s)) } := rfl

/-! ## The statement -/

/-- Settles O23: QUEUE_DEPTH's step answers QPending as a word, which the queue's capacity keeps exact. -/
theorem queueDepthCountsTheQueue : Obligations.QueueDepthCountsTheQueue :=
  fun s hinv => ⟨BitVec.ofNat 32 (qPending s), exec_queueDepth s, toNat_ofNat_qPending hinv.q_wf⟩

end Sys2Proof.Machine
end

section
/-! SUPPORT. The invariant of reachable states (10_state.md R46), split along the machines: the deframer's registers,
Transmit Delivery's registers, the two rings and the queue each have a part of it, and an operation keeps each part by
itself. -/

namespace Sys2Proof.Machine

/-! ## The parts of the invariant -/

/-- R26: the registers the deframer owns, of a state. -/
def State.deframer (s : State) : DeframerRegs := ⟨s.rxState, s.preIdx, s.rxHdr, s.rxPl, s.rxTmr⟩

/-- R26: the registers Transmit Delivery owns, of a state. -/
def State.delivery (s : State) : DeliveryRegs := ⟨s.txState, s.txReq, s.txRetry, s.txNoack, s.ackTmr⟩

/-- R271: a time event that neither counts nor has fired. -/
def TimeEvent.Stopped (e : TimeEvent) : Prop := e.active = false ∧ e.raised = false

/-- R46 (I-b) to (I-e): the deframer's part of the invariant. -/
structure DeframerRegs.Inv (c : Config) (d : DeframerRegs) : Prop where
  preIdx_zero : d.rxState ≠ .waitPreamble → d.preIdx = 0
  header_valid : holdsHeader d.rxState = true → hdrValid c d.rxHdr = true
  payload_nonempty : d.rxState = .waitPayload → 1 ≤ d.rxHdr.len.toNat
  timer_stopped : timerStopped d.rxState = true → d.rxTmr.Stopped
  payload_wf : d.rxPl.PayloadWf

/-- R46 (I-f), (I-g): Transmit Delivery's part of the invariant. -/
structure DeliveryRegs.Inv (c : Config) (d : DeliveryRegs) : Prop where
  timer_stopped : d.txState = .pollPending → d.ackTmr.Stopped
  retry_le : d.txState = .transmitPacket → d.txRetry ≤ c.maxRetries
  request_len : d.txState = .transmitPacket → d.txReq.hdr.len.toNat ≤ maxPayload
  payload_wf : d.txReq.pl.PayloadWf

/-- R46: the invariant is its parts. -/
theorem State.inv_iff (s : State) :
    s.Inv ↔ configOk s.cfg = true ∧ s.deframer.Inv s.cfg ∧ s.delivery.Inv s.cfg ∧ s.rx.Wf s.cfg.rxCap.toNat ∧
      s.tx.Wf s.cfg.txCap.toNat ∧ s.q.Wf s.cfg := by
  constructor
  · intro h
    exact ⟨h.config,
      ⟨h.preIdx_zero, h.header_valid, h.payload_nonempty, h.rxTmr_stopped, h.rxPl_wf⟩,
      ⟨h.ackTmr_stopped, h.retry_le, h.request_len, h.txPl_wf⟩, h.rx_wf, h.tx_wf, h.q_wf⟩
  · rintro ⟨hcfg, hd, he, hrx, htx, hq⟩
    exact ⟨hcfg, hd.preIdx_zero, hd.header_valid, hd.payload_nonempty, hd.timer_stopped, he.timer_stopped,
      he.retry_le, he.request_len, hrx, htx, hq, hd.payload_wf, he.payload_wf⟩

section parts
variable {s : State}

theorem State.Inv.deframer (h : s.Inv) : s.deframer.Inv s.cfg := (s.inv_iff.mp h).2.1

theorem State.Inv.delivery (h : s.Inv) : s.delivery.Inv s.cfg := (s.inv_iff.mp h).2.2.1

/-- What the invariant does not speak of may change. -/
theorem State.Inv.of_parts {t : State} (h : s.Inv) (hcfg : t.cfg = s.cfg) (hd : t.deframer = s.deframer)
    (he : t.delivery = s.delivery) (hrx : t.rx = s.rx) (htx : t.tx = s.tx) (hq : t.q = s.q) : t.Inv := by
  rw [State.inv_iff] at h ⊢
  rwa [hcfg, hd, he, hrx, htx, hq]

theorem State.Inv.with_result (h : s.Inv) (r : Result) : State.Inv { s with result := r } :=
  h.of_parts rfl rfl rfl rfl rfl rfl

theorem State.Inv.with_rx (h : s.Inv) {r : Ring} (hr : r.Wf s.cfg.rxCap.toNat) : State.Inv { s with rx := r } := by
  obtain ⟨hcfg, hd, he, -, htx, hq⟩ := s.inv_iff.mp h
  exact (State.inv_iff _).mpr ⟨hcfg, hd, he, hr, htx, hq⟩

theorem State.Inv.with_tx (h : s.Inv) {r : Ring} (hr : r.Wf s.cfg.txCap.toNat) : State.Inv { s with tx := r } := by
  obtain ⟨hcfg, hd, he, hrx, -, hq⟩ := s.inv_iff.mp h
  exact (State.inv_iff _).mpr ⟨hcfg, hd, he, hrx, hr, hq⟩

theorem State.Inv.with_q (h : s.Inv) {q : Queue} (hq : q.Wf s.cfg) : State.Inv { s with q := q } := by
  obtain ⟨hcfg, hd, he, hrx, htx, -⟩ := s.inv_iff.mp h
  exact (State.inv_iff _).mpr ⟨hcfg, hd, he, hrx, htx, hq⟩

theorem State.Inv.withDeframer (h : s.Inv) {d : DeframerRegs} (hd : d.Inv s.cfg) : (s.withDeframer d).Inv := by
  obtain ⟨hcfg, -, he, hrx, htx, hq⟩ := s.inv_iff.mp h
  exact (State.inv_iff _).mpr ⟨hcfg, hd, he, hrx, htx, hq⟩

theorem State.Inv.withDelivery (h : s.Inv) {d : DeliveryRegs} (hd : d.Inv s.cfg) : (s.withDelivery d).Inv := by
  obtain ⟨hcfg, hf, -, hrx, htx, hq⟩ := s.inv_iff.mp h
  exact (State.inv_iff _).mpr ⟨hcfg, hf, hd, hrx, htx, hq⟩

end parts

/-! ## Time events -/

theorem TimeEvent.stopped_idle : TimeEvent.idle.Stopped := ⟨rfl, rfl⟩

theorem TimeEvent.stopped_timerStop (e : TimeEvent) : (timerStop e).Stopped := ⟨rfl, rfl⟩

/-- R272: a stopped time event ignores a tick. -/
theorem timerTick_of_inactive {e : TimeEvent} (h : e.active = false) : timerTick e = e := by
  simp only [timerTick, h, Bool.not_false, if_true]

theorem TimeEvent.Stopped.timerTick {e : TimeEvent} (h : e.Stopped) : (timerTick e).Stopped := by
  rwa [timerTick_of_inactive h.1]

/-! ## The deframer's states -/

section deframer
variable {c : Config} {d : DeframerRegs}

/-- In WAIT_PREAMBLE the invariant asks for a stopped timer and a payload space in shape. -/
theorem DeframerRegs.inv_waitPreamble {i : BitVec 2} {h : Header} {m : Memory} {e : TimeEvent} (hm : m.PayloadWf)
    (he : e.Stopped) : DeframerRegs.Inv c ⟨.waitPreamble, i, h, m, e⟩ :=
  ⟨fun hne => absurd rfl hne, Bool.noConfusion, RxState.noConfusion, fun _ => he, hm⟩

theorem DeframerRegs.inv_waitHeader {h : Header} {m : Memory} {e : TimeEvent} (hm : m.PayloadWf) :
    DeframerRegs.Inv c ⟨.waitHeader, 0, h, m, e⟩ :=
  ⟨fun _ => rfl, Bool.noConfusion, RxState.noConfusion, Bool.noConfusion, hm⟩

theorem DeframerRegs.inv_waitPayload {h : Header} {m : Memory} {e : TimeEvent} (hv : hdrValid c h = true)
    (hl : 1 ≤ h.len.toNat) (hm : m.PayloadWf) : DeframerRegs.Inv c ⟨.waitPayload, 0, h, m, e⟩ :=
  ⟨fun _ => rfl, fun _ => hv, fun _ => hl, Bool.noConfusion, hm⟩

theorem DeframerRegs.inv_waitCrcPost {h : Header} {m : Memory} {e : TimeEvent} (hv : hdrValid c h = true)
    (hm : m.PayloadWf) : DeframerRegs.Inv c ⟨.waitCrcPost, 0, h, m, e⟩ :=
  ⟨fun _ => rfl, fun _ => hv, RxState.noConfusion, Bool.noConfusion, hm⟩

theorem DeframerRegs.inv_packetReady {h : Header} {m : Memory} {e : TimeEvent} (hv : hdrValid c h = true)
    (hm : m.PayloadWf) (he : e.Stopped) : DeframerRegs.Inv c ⟨.packetReady, 0, h, m, e⟩ :=
  ⟨fun _ => rfl, fun _ => hv, RxState.noConfusion, fun _ => he, hm⟩

/-- R272: a tick never starts a timer, so it keeps the deframer's part. -/
theorem DeframerRegs.Inv.tick (h : d.Inv c) : DeframerRegs.Inv c { d with rxTmr := timerTick d.rxTmr } :=
  { h with timer_stopped := fun hs => (h.timer_stopped hs).timerTick }

end deframer

section deframerSteps
variable {s : State}

theorem inv_sendCtl (h : s.Inv) (ty : Byte) : (sendCtl ty s).Inv :=
  (h.with_q (sendCtl_wf h.q_wf ty)).of_parts rfl rfl rfl rfl rfl rfl

theorem inv_restartRx (h : s.Inv) : (restartRx s).Inv :=
  h.withDeframer (DeframerRegs.inv_waitPreamble h.rxPl_wf (TimeEvent.stopped_timerStop _))

/-- R302: the recovery keeps the invariant, whatever the deframer held. -/
theorem inv_rxFail (h : s.Inv) (e : Err) : (rxFail e s).Inv := by
  have hflush : (flushFor e (setErr e s)).Inv := by
    refine State.Inv.with_rx (s := setErr e s) (h.of_parts rfl rfl rfl rfl rfl rfl) ?_
    rw [setErr_cfg, setErr_rx]
    split
    · exact h.rx_wf.clear
    · exact h.rx_wf
  exact inv_restartRx (inv_sendCtl hflush _)

theorem inv_rxTaken (h : s.Inv) (n : Nat) : (rxTaken n s).Inv := h.with_rx (h.rx_wf.take n)

theorem inv_enterHeader (h : s.Inv) : (enterHeader s).Inv := h.withDeframer (DeframerRegs.inv_waitHeader h.rxPl_wf)

/-- R182: a byte of the preamble keeps the invariant in WAIT_PREAMBLE. -/
theorem inv_preambleStep (h : s.Inv) (hs : s.rxState = .waitPreamble) (b : Byte) : (preambleStep b s).Inv := by
  have hwait (i : BitVec 2) : State.Inv { s with preIdx := i } := by
    have hd : DeframerRegs.Inv s.cfg ⟨s.rxState, i, s.rxHdr, s.rxPl, s.rxTmr⟩ := by
      rw [hs]
      exact DeframerRegs.inv_waitPreamble h.rxPl_wf (h.rxTmr_stopped (hs ▸ rfl))
    exact h.withDeframer hd
  unfold preambleStep
  split
  · split
    · exact inv_enterHeader h
    · exact hwait _
  · exact hwait _

theorem inv_enterTrailer (h : s.Inv) (hi : s.preIdx = 0) (hv : hdrValid s.cfg s.rxHdr = true) :
    (enterTrailer s).Inv := by
  have hd : DeframerRegs.Inv s.cfg ⟨.waitCrcPost, s.preIdx, s.rxHdr, s.rxPl, timerStart s.cfg.tCrc⟩ := by
    rw [hi]; exact DeframerRegs.inv_waitCrcPost hv h.rxPl_wf
  exact h.withDeframer hd

theorem inv_enterPayload (h : s.Inv) (hi : s.preIdx = 0) (hv : hdrValid s.cfg s.rxHdr = true)
    (hl : 1 ≤ s.rxHdr.len.toNat) : (enterPayload s).Inv := by
  have hd : DeframerRegs.Inv s.cfg
      ⟨.waitPayload, s.preIdx, s.rxHdr, s.rxPl, timerStart (payTimeout s.cfg s.rxHdr.len)⟩ := by
    rw [hi]; exact DeframerRegs.inv_waitPayload hv hl h.rxPl_wf
  exact h.withDeframer hd

theorem inv_enterReady (h : s.Inv) (hi : s.preIdx = 0) (hv : hdrValid s.cfg s.rxHdr = true) :
    (enterReady s).Inv := by
  have hd : DeframerRegs.Inv s.cfg ⟨.packetReady, s.preIdx, s.rxHdr, s.rxPl, timerStop s.rxTmr⟩ := by
    rw [hi]; exact DeframerRegs.inv_packetReady hv h.rxPl_wf (TimeEvent.stopped_timerStop _)
  exact h.withDeframer hd

/-- R183: storing or rejecting a header keeps the invariant in WAIT_HEADER. -/
theorem inv_headerStep (h : s.Inv) (hs : s.rxState = .waitHeader) (hd : Header) : (headerStep hd s).Inv := by
  have hi : s.preIdx = 0 := h.preIdx_zero (by rw [hs]; decide)
  have hstored : State.Inv { s with rxHdr := hd } := by
    have hregs : DeframerRegs.Inv s.cfg ⟨s.rxState, s.preIdx, hd, s.rxPl, s.rxTmr⟩ := by
      rw [hs, hi]; exact DeframerRegs.inv_waitHeader h.rxPl_wf
    exact h.withDeframer hregs
  rcases headerStep_cases hd s with ⟨hv, ⟨-, e⟩ | ⟨hl, e⟩⟩ | ⟨-, e⟩
  · rw [e]; exact inv_enterTrailer hstored hi hv
  · rw [e]
    have hpos : hd.len.toNat ≠ 0 := fun h0 => hl (BitVec.eq_of_toNat_eq h0)
    exact inv_enterPayload hstored hi hv (Nat.one_le_iff_ne_zero.mpr hpos)
  · rw [e]; exact inv_rxFail h _

/-- R185: accepting or rejecting a trailer keeps the invariant in WAIT_CRC_POST. -/
theorem inv_trailerStep (h : s.Inv) (hs : s.rxState = .waitCrcPost) (sum received post : U32) :
    (trailerStep sum received post s).Inv := by
  have hi : s.preIdx = 0 := h.preIdx_zero (by rw [hs]; decide)
  have hv : hdrValid s.cfg s.rxHdr = true := h.header_valid (by rw [hs]; rfl)
  rcases trailerStep_cases sum received post s with ⟨-, e⟩ | ⟨-, -, e⟩ | ⟨-, -, -, e⟩ | ⟨-, -, -, e⟩
  · rw [e]; exact inv_rxFail h _
  · rw [e]; exact inv_rxFail h _
  · rw [e]; exact inv_enterReady h hi hv
  · rw [e]; exact inv_enterReady (inv_sendCtl h _) hi hv

/-- R181: a poll of the deframer keeps the invariant. -/
theorem inv_rxPoll {t : State} (h : s.Inv) (ht : rxPoll s = .ok t) : t.Inv := by
  rcases rxPoll_cases ht with rfl | ⟨hs, -, b, rfl⟩ | ⟨-, e, rfl, -⟩ | ⟨hs, -, hd, rfl⟩ | ⟨hs, -, m, hm, rfl⟩ |
    ⟨hs, -, sum, received, post, rfl⟩
  · exact h
  · exact inv_preambleStep (inv_rxTaken h 1) hs b
  · exact inv_rxFail h e
  · exact inv_headerStep (inv_rxTaken h 4) hs hd
  · have hi : s.preIdx = 0 := h.preIdx_zero (by rw [hs]; decide)
    have hv : hdrValid s.cfg s.rxHdr = true := h.header_valid (by rw [hs]; rfl)
    have htaken := inv_rxTaken h s.rxHdr.len.toNat
    have hstored := htaken.withDeframer (d := { (rxTaken s.rxHdr.len.toNat s).deframer with rxPl := m })
      { htaken.deframer with payload_wf := (memWrite_spec h.rxPl_wf hm).1 }
    exact inv_enterTrailer hstored hi hv
  · exact inv_trailerStep (inv_rxTaken h 8) hs _ _ _

end deframerSteps

/-! ## Transmit Delivery's states -/

section deliverySteps
variable {s : State}

/-- In POLL_PENDING the invariant asks for a stopped ack timer and a payload space in shape. -/
theorem DeliveryRegs.inv_pollPending {c : Config} {r : TxReq} {n : U32} {b : Bool} {e : TimeEvent}
    (hm : r.pl.PayloadWf) (he : e.Stopped) : DeliveryRegs.Inv c ⟨.pollPending, r, n, b, e⟩ :=
  ⟨fun _ => he, TxState.noConfusion, TxState.noConfusion, hm⟩

theorem DeliveryRegs.inv_transmitPacket {c : Config} {r : TxReq} {n : U32} {b : Bool} {e : TimeEvent}
    (hn : n ≤ c.maxRetries) (hl : r.hdr.len.toNat ≤ maxPayload) (hm : r.pl.PayloadWf) :
    DeliveryRegs.Inv c ⟨.transmitPacket, r, n, b, e⟩ :=
  ⟨TxState.noConfusion, fun _ => hn, fun _ => hl, hm⟩

/-- R272: a tick never starts a timer, so it keeps Transmit Delivery's part. -/
theorem DeliveryRegs.Inv.tick {c : Config} {d : DeliveryRegs} (h : d.Inv c) :
    DeliveryRegs.Inv c { d with ackTmr := timerTick d.ackTmr } :=
  { h with timer_stopped := fun hs => (h.timer_stopped hs).timerTick }

theorem inv_completeRequest (h : s.Inv) : (completeRequest s).Inv :=
  h.withDelivery (DeliveryRegs.inv_pollPending h.txPl_wf (TimeEvent.stopped_timerStop _))

theorem inv_abandonRequest (h : s.Inv) (n : U32) : (abandonRequest { s with txRetry := n }).Inv :=
  (h.withDelivery (d := ⟨.pollPending, s.txReq, n, s.txNoack, timerStop s.ackTmr⟩)
    (DeliveryRegs.inv_pollPending h.txPl_wf (TimeEvent.stopped_timerStop _))).of_parts rfl rfl rfl rfl rfl rfl

/-- R234: entering TRANSMIT_PACKET keeps the invariant when the request and its retry counter are in bounds. -/
theorem inv_enterTransmit {u t : State} (h : s.Inv) (hcfg : u.cfg = s.cfg) (hd : u.deframer = s.deframer)
    (hrx : u.rx = s.rx) (htx : u.tx = s.tx) (hq : u.q.Wf s.cfg) (hn : u.txRetry ≤ s.cfg.maxRetries)
    (hm : u.txReq.pl.PayloadWf) (ht : enterTransmit u = .ok t) : t.Inv := by
  obtain ⟨hl, -⟩ := enterTransmit_frame ht
  obtain ⟨t', ht', hwf, -, he⟩ := enterTransmit_spec (hcfg ▸ htx ▸ h.tx_wf : u.tx.Wf u.cfg.txCap.toNat) hl
  obtain rfl : t' = t := Except.ok.inj (ht'.symm.trans ht)
  rw [he, State.inv_iff]
  exact ⟨hcfg ▸ h.config, hcfg ▸ hd ▸ h.deframer,
    DeliveryRegs.inv_transmitPacket (hcfg ▸ hn) hl hm, hcfg ▸ hrx ▸ h.rx_wf, hwf, hcfg ▸ hq⟩

/-- R235: a resend keeps the invariant when the retry counter it is made with is in bounds. -/
theorem inv_resend {t : State} {e : Err} (h : s.Inv) {n : U32} (hn : n ≤ s.cfg.maxRetries)
    (ht : resend e { s with txRetry := n } = .ok t) : t.Inv :=
  inv_enterTransmit (u := exitTransmit (setErr e { s with txRetry := n })) h rfl rfl rfl rfl h.q_wf hn h.txPl_wf ht

theorem le_maxRetries_of_not_lt {m n : U32} (h : ¬ m < n) : n ≤ m := by
  rw [BitVec.le_def]; rw [BitVec.lt_def] at h; omega

/-- R236: a poll of Transmit Delivery keeps the invariant. -/
theorem inv_txPoll {t : State} (h : s.Inv) (ht : txPoll s = .ok t) : t.Inv := by
  rcases txPoll_cases ht with ⟨rfl, -⟩ | ⟨-, r, rest, m, hq, hm, he⟩ | ⟨-, -, rfl⟩ | ⟨-, -, -, ⟨-, rfl⟩ | ⟨hn, he⟩⟩
  · exact h
  · have hfetch : qFetch s = some r := by rw [qFetch, hq]; rfl
    exact inv_enterTransmit (u := loadRequest r m (qDrop r s)) h rfl rfl rfl rfl (qDrop_wf h.q_wf hfetch)
      (BitVec.le_def.mpr (Nat.zero_le _)) (memWrite_spec h.txPl_wf hm).1 he
  · exact inv_completeRequest h
  · exact inv_abandonRequest h _
  · exact inv_resend h (le_maxRetries_of_not_lt hn) he

/-- R238: a NACK_IN that is not ignored keeps the invariant. -/
theorem inv_nackStep {t : State} (h : s.Inv) (hs : s.txState = .transmitPacket) (ht : nackStep s = .ok t) :
    t.Inv := by
  rcases nackStep_cases ht with ⟨-, -, rfl⟩ | ⟨-, hn, he⟩ | ⟨-, he⟩
  · exact inv_abandonRequest h _
  · exact inv_resend h (le_maxRetries_of_not_lt hn) he
  · exact inv_resend h (h.retry_le hs) he

end deliverySteps

/-! ## Reset and construction -/

theorem one_le_toNat {x : U32} (h : 1#32 ≤ x) : 1 ≤ x.toNat := by simpa [BitVec.le_def] using h

/-- R8: the capacities of a legal configuration are at least 1. -/
theorem caps_pos {c : Config} (h : configOk c = true) : 0 < c.rxCap.toNat ∧ 0 < c.txCap.toNat ∧ 0 < c.txqCap.toNat := by
  simp only [configOk, capsOk, Bool.and_eq_true, decide_eq_true_eq] at h
  obtain ⟨-, ⟨hrx, htx⟩, hq⟩ := h
  exact ⟨one_le_toNat hrx, one_le_toNat htx, one_le_toNat hq⟩

theorem Queue.wf_empty {c : Config} (h : 0 < c.txqCap.toNat) :
    Queue.Wf { ix := Indices.empty c.txqCap.toNat, reqs := [] } c :=
  ⟨Indices.Wf.empty h, fun _ hr => absurd hr List.not_mem_nil, Nat.zero_le _, Indices.dataLen_empty _⟩

theorem payloadWf_nil : Memory.PayloadWf [] := ⟨rfl, rfl⟩

theorem below_freeBytes (u : Unspecified) (n size : Nat) : (freeBytes u n size).below size = true := by
  have h := Memory.below_tabulate (Config.freeByte u n) size 0
  rwa [Nat.zero_add] at h

theorem payloadWf_freeBytes (u : Unspecified) (n : Nat) : (freeBytes u n maxPayload).PayloadWf :=
  ⟨Memory.wf_tabulate _ _ _, below_freeBytes _ _ _⟩

/-- R45: the state a legal configuration is constructed in satisfies the invariant. -/
theorem inv_constructed {c : Config} (h : configOk c = true) : (State.constructed c).Inv := by
  obtain ⟨hrx, htx, hq⟩ := caps_pos h
  rw [State.inv_iff]
  exact ⟨h, DeframerRegs.inv_waitPreamble payloadWf_nil TimeEvent.stopped_idle,
    DeliveryRegs.inv_pollPending payloadWf_nil TimeEvent.stopped_idle, Ring.Wf.init hrx rfl rfl, Ring.Wf.init htx rfl rfl,
    Queue.wf_empty hq⟩

/-- R340: RESET gives a state of the invariant from any state of a legal configuration. -/
theorem inv_resetState {s : State} (h : configOk s.cfg = true) : (resetState s).Inv := by
  obtain ⟨hrx, htx, hq⟩ := caps_pos h
  rw [State.inv_iff]
  exact ⟨h, DeframerRegs.inv_waitPreamble (payloadWf_freeBytes _ _) TimeEvent.stopped_idle,
    DeliveryRegs.inv_pollPending (payloadWf_freeBytes _ _) TimeEvent.stopped_idle,
    Ring.Wf.init hrx (Memory.wf_tabulate _ _ _) (below_freeBytes _ _ _),
    Ring.Wf.init htx (Memory.wf_tabulate _ _ _) (below_freeBytes _ _ _), Queue.wf_empty hq⟩

/-! ## Every operation and every step -/

theorem inv_rxRelease {s : State} (h : s.Inv) :
    State.Inv { s with rxState := if s.rxState = .packetReady then .waitPreamble else s.rxState } := by
  split
  · rename_i hs
    have hd : DeframerRegs.Inv s.cfg ⟨.waitPreamble, s.preIdx, s.rxHdr, s.rxPl, s.rxTmr⟩ :=
      DeframerRegs.inv_waitPreamble h.rxPl_wf (h.rxTmr_stopped (hs ▸ rfl))
    exact h.withDeframer hd
  · exact h

/-- R46: every operation keeps the invariant. -/
theorem inv_exec {i : Instr} {s t : State} (h : s.Inv) (ht : exec i s = .next t) : t.Inv := by
  rcases exec_cases ht with ⟨-, u, hu, rfl⟩ | ⟨-, u, hu, rfl⟩ | ⟨-, u, rfl | ⟨hs, -, hu⟩, rfl⟩ | ⟨-, rfl⟩ |
    ⟨b, -, rfl⟩ | ⟨-, rfl⟩ | ⟨o, a, hd, pl, -, hp, rfl⟩ | ⟨-, rfl⟩ | ⟨-, ⟨-, rfl⟩ | ⟨-, rfl⟩⟩ | ⟨-, rfl⟩ | ⟨r, rfl⟩
  · exact (inv_rxPoll h hu).with_result _
  · exact (inv_txPoll h hu).with_result _
  · exact h.with_result _
  · exact (inv_nackStep h hs hu).with_result _
  · exact (inv_resetState h.config).with_result _
  · exact (h.with_rx (h.rx_wf.put b)).of_parts rfl rfl rfl rfl rfl rfl
  · exact (inv_rxRelease h).with_result _
  · exact (h.with_q (qWrite_wf h.q_wf hp)).of_parts rfl rfl rfl rfl rfl rfl
  · split
    · exact (inv_completeRequest h).with_result _
    · exact h.with_result _
  · exact h.with_result _
  · have hdrop : Ring.Wf { s.tx with ix := s.tx.ix.drop1 } s.cfg.txCap.toNat :=
      ⟨h.tx_wf.ix.drop1, h.tx_wf.canonical, h.tx_wf.inside⟩
    exact (h.with_tx hdrop).of_parts rfl rfl rfl rfl rfl rfl
  · have hboth := (h.withDeframer h.deframer.tick).withDelivery h.delivery.tick
    exact hboth.of_parts rfl rfl rfl rfl rfl rfl
  · exact h.with_result r

/-- A step is idle, refuses, or runs one operation in the state without it in `inbox`. -/
theorem step_cases {s t : State} (h : step s = .next t) :
    t = s ∨ ∃ i rest, exec i { s with inbox := rest } = .next t := by
  unfold step at h
  split at h
  · exact .inl (Host.Outcome.next.inj h).symm
  · cases h
  · rename_i i u hfetch
    refine .inr ⟨i, u.inbox, ?_⟩
    unfold fetch at hfetch
    split at hfetch
    · cases hfetch
    · split_ifs at hfetch
      split at hfetch
      · cases hfetch; exact h
      · cases hfetch

/-! ## The statements -/

/-- Settles O40: each part of the invariant is kept by every branch of every operation, and a step runs one operation
in a state that differs in `inbox` alone. -/
theorem everyStepKeepsTheInvariant : Obligations.EveryStepKeepsTheInvariant := by
  refine ⟨fun i s t h ht => inv_exec h ht, fun s t h ht => ?_⟩
  rcases step_cases ht with rfl | ⟨i, rest, hexec⟩
  · exact h
  · exact inv_exec (s := { s with inbox := rest }) (h.of_parts rfl rfl rfl rfl rfl rfl) hexec

/-- Settles O41: construction starts in WAIT_PREAMBLE and POLL_PENDING with idle timers and empty stores, and TC is
legal. -/
theorem constructedStateSatisfiesTheInvariant : Obligations.ConstructedStateSatisfiesTheInvariant :=
  ⟨fun _ h => inv_constructed h, inv_constructed (by decide +kernel)⟩

end Sys2Proof.Machine
end

section
/-! SUPPORT. Which operations complete, fault or are refused (60_exceptions.md R308, 20_memory.md R66, R13, 41_codec.md
R149, 43_delivery.md R230): under the invariant the two polls and NACK_IN always answer, the other operations never fault
in any state, and only operands that are not a packet are refused. -/

namespace Sys2Proof.Machine

variable {s : State}

/-! ## The deframer's polls answer -/

theorem pollPreamble_completes (s : State) : ∃ t, pollPreamble s = .ok t := by
  by_cases h : rxLen s = 0
  · exact ⟨s, pollPreamble_of_empty h⟩
  · obtain ⟨b, -, hb⟩ := pollPreamble_of_le (Nat.one_le_iff_ne_zero.mpr h)
    exact ⟨_, hb⟩

theorem pollHeader_completes (s : State) : ∃ t, pollHeader s = .ok t := by
  cases hr : s.rxTmr.raised with
  | true => exact ⟨_, pollHeader_of_raised hr⟩
  | false =>
    by_cases h : rxLen s < 4
    · exact ⟨s, pollHeader_of_short hr h⟩
    · obtain ⟨b0, b1, b2, b3, -, hb⟩ := pollHeader_of_le hr (Nat.not_lt.mp h)
      exact ⟨_, hb⟩

theorem pollPayload_completes (hl : s.rxHdr.len.toNat ≤ maxPayload) : ∃ t, pollPayload s = .ok t := by
  cases hr : s.rxTmr.raised with
  | true => exact ⟨_, pollPayload_of_raised hr⟩
  | false =>
    by_cases h : rxLen s < s.rxHdr.len.toNat
    · exact ⟨s, pollPayload_of_short hr h⟩
    · exact ⟨_, pollPayload_of_le hr hl (Nat.not_lt.mp h)⟩

theorem pollTrailer_completes (hl : s.rxHdr.len.toNat ≤ maxPayload) : ∃ t, pollTrailer s = .ok t := by
  cases hr : s.rxTmr.raised with
  | true => exact ⟨_, pollTrailer_of_raised hr⟩
  | false =>
    by_cases h : rxLen s < 8
    · exact ⟨s, pollTrailer_of_short hr h⟩
    · exact ⟨_, pollTrailer_of_le hr hl (Nat.not_lt.mp h)⟩

/-- R108 (d): a header the deframer holds announces at most 256 bytes. -/
theorem State.Inv.rxHdr_len_le (h : s.Inv) (hs : holdsHeader s.rxState = true) : s.rxHdr.len.toNat ≤ maxPayload :=
  len_le_of_hdrValid (h.header_valid hs)

/-- R66, R13: a poll of the deframer answers in every state of the invariant. -/
theorem rxPoll_completes (h : s.Inv) : ∃ t, rxPoll s = .ok t := by
  cases hs : s.rxState with
  | waitPreamble => rw [rxPoll_waitPreamble hs]; exact pollPreamble_completes s
  | waitHeader => rw [rxPoll_waitHeader hs]; exact pollHeader_completes s
  | waitPayload => rw [rxPoll_waitPayload hs]; exact pollPayload_completes (h.rxHdr_len_le (hs ▸ rfl))
  | waitCrcPost => rw [rxPoll_waitCrcPost hs]; exact pollTrailer_completes (h.rxHdr_len_le (hs ▸ rfl))
  | packetReady => exact ⟨s, rxPoll_packetReady hs⟩

/-! ## The steps of Transmit Delivery answer -/

/-- R236, R238: abandoning or resending answers when the request in flight holds at most 256 bytes. -/
theorem retryOrAbandon_completes {cap : Nat} (e : Err) (h : s.tx.Wf cap) (hl : s.txReq.hdr.len.toNat ≤ maxPayload) :
    ∃ t, retryOrAbandon e s = .ok t := by
  unfold retryOrAbandon
  split
  · exact ⟨_, rfl⟩
  · obtain ⟨t, ht, -⟩ := resend_spec e h hl
    exact ⟨t, ht⟩

/-- R149: the two halves of being a packet. -/
theorem isPacket_iff {h : Header} {pl : List Byte} :
    isPacket h pl = true ↔ pl.length = h.len.toNat ∧ h.len.toNat ≤ maxPayload := by
  simp only [isPacket, Bool.and_eq_true, decide_eq_true_eq]

/-- R13: the payload of a packet is written to the front of a payload space. -/
theorem memWrite_of_isPacket {h : Header} {pl : List Byte} (m : Memory) (hp : isPacket h pl = true) :
    memWrite m 0 h.len.toNat pl = some (Memory.writeBytes m 0 pl) := by
  obtain ⟨hlen, hle⟩ := isPacket_iff.mp hp
  exact if_pos ⟨by omega, hlen⟩

/-- R236: the poll in POLL_PENDING of a queue that holds a request. -/
theorem txPoll_of_cons {r : Request} {rest : List Request} (hs : s.txState = .pollPending) (hq : s.q.reqs = r :: rest)
    (hp : isPacket r.hdr r.pl = true) :
    txPoll s = enterTransmit (loadRequest r (Memory.writeBytes s.txReq.pl 0 r.pl) (qDrop r s)) := by
  have hfetch : qFetch s = some r := by rw [qFetch, hq]; rfl
  simp only [txPoll, hs, pollPending, hfetch, memWrite_of_isPacket s.txReq.pl hp]

theorem txPoll_of_nil (hs : s.txState = .pollPending) (hq : s.q.reqs = []) : txPoll s = .ok s := by
  have hfetch : qFetch s = none := by rw [qFetch, hq]; rfl
  simp only [txPoll, hs, pollPending, hfetch]

theorem txPoll_transmitPacket (hs : s.txState = .transmitPacket) : txPoll s = pollTransmit s := by
  simp only [txPoll, hs]

theorem pollTransmit_of_noack (hn : s.txNoack = true) : pollTransmit s = .ok (completeRequest s) := if_pos hn

theorem pollTransmit_of_waiting (hn : s.txNoack = false) (hr : s.ackTmr.raised = false) : pollTransmit s = .ok s := by
  simp only [pollTransmit, hn, hr, Bool.false_eq_true, if_false]

theorem pollTransmit_of_raised (hn : s.txNoack = false) (hr : s.ackTmr.raised = true) :
    pollTransmit s = retryOrAbandon .ackTimeout (countRetry s) := by
  simp only [pollTransmit, hn, hr, Bool.false_eq_true, if_false, if_true]

/-- R13: a poll of Transmit Delivery answers in every state of the invariant. -/
theorem txPoll_completes (h : s.Inv) : ∃ t, txPoll s = .ok t := by
  cases hs : s.txState with
  | pollPending =>
    cases hq : s.q.reqs with
    | nil => exact ⟨s, txPoll_of_nil hs hq⟩
    | cons r rest =>
      have hp : isPacket r.hdr r.pl = true := h.q_wf.packets r (by rw [hq]; exact List.mem_cons_self)
      obtain ⟨t, ht, -⟩ := enterTransmit_spec
        (s := loadRequest r (Memory.writeBytes s.txReq.pl 0 r.pl) (qDrop r s)) h.tx_wf (isPacket_iff.mp hp).2
      exact ⟨t, (txPoll_of_cons hs hq hp).trans ht⟩
  | transmitPacket =>
    rw [txPoll_transmitPacket hs]
    cases hn : s.txNoack with
    | true => exact ⟨_, pollTransmit_of_noack hn⟩
    | false =>
      cases hr : s.ackTmr.raised with
      | true =>
        rw [pollTransmit_of_raised hn hr]
        exact retryOrAbandon_completes (s := countRetry s) _ h.tx_wf (h.request_len hs)
      | false => exact ⟨s, pollTransmit_of_waiting hn hr⟩

/-- R13: a NACK_IN that is not ignored answers in every state of the invariant. -/
theorem nackStep_completes (h : s.Inv) (hs : s.txState = .transmitPacket) : ∃ t, nackStep s = .ok t := by
  have hl := h.request_len hs
  unfold nackStep
  split
  · exact retryOrAbandon_completes (s := countRetry s) _ h.tx_wf hl
  · obtain ⟨t, ht, -⟩ := resend_spec .nackReceived h.tx_wf hl
    exact ⟨t, ht⟩

/-! ## Every operation -/

theorem exec_nackIn_of_ignored (h : s.txState ≠ .transmitPacket ∨ s.txNoack = true) :
    exec .nackIn s = .next { s with result := .none } := by
  rw [exec, execNackIn, if_pos h, finish_ok]

theorem exec_nackIn_of_step (hs : s.txState = .transmitPacket) (hn : s.txNoack = false) :
    exec .nackIn s = finish .none (nackStep s) := by
  rw [exec, execNackIn, if_neg]
  rw [hs, hn]
  exact not_or.mpr ⟨fun h => h rfl, Bool.false_ne_true⟩

theorem exec_nackIn_completes (h : s.Inv) : ∃ t, exec .nackIn s = .next t := by
  by_cases hi : s.txState ≠ .transmitPacket ∨ s.txNoack = true
  · exact ⟨_, exec_nackIn_of_ignored hi⟩
  · rw [not_or, not_not, Bool.not_eq_true] at hi
    obtain ⟨t, ht⟩ := nackStep_completes h hi.1
    exact ⟨{ t with result := .none }, by rw [exec_nackIn_of_step hi.1 hi.2, ht, finish_ok]⟩

theorem exec_txPoll_of {t : State} (h : txPoll s = .ok t) : exec .txPoll s = .next { t with result := .none } := by
  rw [exec, execTxPoll, h, finish_ok]

/-- R230: TX_ENQUEUE of a packet. -/
theorem exec_txEnqueue_of_isPacket {o : Byte} {a : Bool} {h : Header} {pl : List Byte} (hp : isPacket h pl = true) :
    exec (.txEnqueue o a h pl) s =
      .next { qWrite ⟨o, a, h, pl⟩ s with result := .enqOk (qFits ⟨o, a, h, pl⟩ s) } := if_pos hp

/-- R149: FRAME_ENCODE of a packet. -/
theorem exec_frameEncode_of_isPacket {h : Header} {pl : List Byte} (hp : isPacket h pl = true) :
    exec (.frameEncode h pl) s = .next { s with result := .bytes (frameEncode s.cfg h pl) } := if_pos hp

theorem exec_txDrain_of_empty (h : txLen s = 0) : exec .txDrain s = .next { s with result := .byte none } := if_pos h

theorem exec_txDrain_of_ne (h : txLen s ≠ 0) :
    exec .txDrain s =
      .next { txPop s with wireOut := s.wireOut ++ [txOldest s], result := .byte (some (txOldest s)) } := if_neg h

/-- R308: an operation other than the two polls and NACK_IN completes in every state, unless its operands are no
packet. -/
theorem exec_completes {i : Instr} (s : State) (h : wellFormed i = true) (hrx : i ≠ .rxPoll) (htx : i ≠ .txPoll)
    (hn : i ≠ .nackIn) : ∃ t, exec i s = .next t := by
  cases i with
  | rxPoll => exact absurd rfl hrx
  | txPoll => exact absurd rfl htx
  | nackIn => exact absurd rfl hn
  | txEnqueue o a hd pl => exact ⟨_, exec_txEnqueue_of_isPacket h⟩
  | frameEncode hd pl => exact ⟨_, exec_frameEncode_of_isPacket h⟩
  | txDrain =>
    by_cases h0 : txLen s = 0
    · exact ⟨_, exec_txDrain_of_empty h0⟩
    · exact ⟨_, exec_txDrain_of_ne h0⟩
  | _ => exact ⟨_, rfl⟩

/-- R149, R230: the two operations that take a packet refuse anything else. -/
theorem exec_of_not_wellFormed {i : Instr} (h : wellFormed i = false) : exec i s = .refused .notAPacket := by
  have hne (hd : Header) (pl : List Byte) (hp : packetFits hd pl = false) : ¬ isPacket hd pl = true := by
    rw [show isPacket hd pl = packetFits hd pl from rfl, hp]
    exact Bool.false_ne_true
  cases i with
  | txEnqueue o a hd pl => exact if_neg (hne hd pl h)
  | frameEncode hd pl => exact if_neg (hne hd pl h)
  | _ => cases h

/-! ## The statements -/

/-- Settles O42: under the invariant the polls have the bytes and the payload bounds they ask for; every other operation
answers or refuses whatever the state. -/
theorem everyOperationCompletes : Obligations.EveryOperationCompletes := by
  refine ⟨fun i s h hw => ?_, fun i s hrx htx hn f hf => ?_⟩
  · by_cases hrx : i = .rxPoll
    · subst hrx
      obtain ⟨t, ht⟩ := rxPoll_completes h
      exact ⟨_, exec_rxPoll_of ht⟩
    by_cases htx : i = .txPoll
    · subst htx
      obtain ⟨t, ht⟩ := txPoll_completes h
      exact ⟨_, exec_txPoll_of ht⟩
    by_cases hn : i = .nackIn
    · subst hn
      exact exec_nackIn_completes h
    exact exec_completes s hw hrx htx hn
  · cases hw : wellFormed i with
    | true =>
      obtain ⟨t, ht⟩ := exec_completes s hw hrx htx hn
      rw [ht] at hf
      cases hf
    | false =>
      rw [exec_of_not_wellFormed hw] at hf
      cases hf

/-- Settles O22: the two polls and NACK_IN end in a next state or a fault, the other operations complete on well-formed
operands. -/
theorem onlyNonPacketsAreRefused : Obligations.OnlyNonPacketsAreRefused := by
  refine fun i s => ⟨exec_of_not_wellFormed, fun hw r hr => ?_⟩
  by_cases hrx : i = .rxPoll
  · subst hrx; exact finish_ne_refused hr
  by_cases htx : i = .txPoll
  · subst htx; exact finish_ne_refused hr
  by_cases hn : i = .nackIn
  · subst hn; exact finish_ne_refused hr
  obtain ⟨t, ht⟩ := exec_completes s hw hrx htx hn
  rw [ht] at hr
  cases hr

end Sys2Proof.Machine
end

section
/-! SUPPORT. Operation words (30_encoding.md R115 to R117): a word is its op and its imm, decoding inverts encoding, and
the reserved words are exactly the ones decode rejects; a step takes the next issued operation (R5, R77). -/

namespace Sys2Proof

open Laws.OpWord (op_mkWord imm_mkWord)

/-- A word is its op above its imm. -/
theorem mkWord_op_imm (w : BitVec 16) : mkWord (wordOp w) (wordImm w) = w := by
  simp only [mkWord, wordOp, wordImm]
  rw [BitVec.extractLsb'_append_extractLsb'_eq_extractLsb' (by decide)]
  exact BitVec.extractLsb'_eq_self

/-! ## Decoding the encoding -/

/-- R115, R116: decoding the encoding of an instruction gives it back. -/
theorem decode_encode (i : Instr) : decode (encode i).word (encode i).beside = .ok i := by
  have hop : wordOp (encode i).word = opByte i := op_mkWord _ _
  have himm : wordImm (encode i).word = immByte i := imm_mkWord _ _
  unfold decode
  rw [hop, himm]
  cases i <;> rfl

/-! ## The words that decode -/

/-- R116: the operations with an immediate. -/
def takesImm : Instr → Bool
  | .rxByte _ => true
  | .classify _ => true
  | _ => false

theorem immByte_of_not_takesImm {i : Instr} (h : takesImm i = false) : immByte i = 0 := by
  cases i with
  | rxByte _ | classify _ => cases h
  | _ => rfl

theorem takesImm_iff (i : Instr) : takesImm i = true ↔ opByte i = 0x10#8 ∨ opByte i = 0x43#8 := by
  cases i <;> simp only [takesImm, opByte] <;> decide

/-- R115: the op bytes of the table. -/
def tableOps : List Byte :=
  [0x01, 0x10, 0x11, 0x12, 0x20, 0x21, 0x22, 0x23, 0x24, 0x25, 0x30, 0x40, 0x41, 0x42, 0x43, 0x44, 0x45]

theorem opByte_mem_tableOps (i : Instr) : opByte i ∈ tableOps := by
  cases i <;> simp only [opByte] <;> decide

/-- R117: a reserved word. -/
def IsReserved (w : BitVec 16) : Prop :=
  wordOp w ∉ tableOps ∨ (wordOp w ≠ 0x10#8 ∧ wordOp w ≠ 0x43#8 ∧ wordImm w ≠ 0#8)

/-- The two ways a word may decode: to an instruction that it encodes, or, reserved, to an error. -/
def DecodesTo (w : BitVec 16) (r : Except Reserved Instr) : Prop :=
  (∃ i, r = .ok i ∧ (encode i).word = w) ∨ ((∃ e, r = .error e) ∧ IsReserved w)

theorem word_encode_of {w : BitVec 16} {i : Instr} (hop : wordOp w = opByte i) (himm : wordImm w = immByte i) :
    (encode i).word = w := by
  show mkWord (opByte i) (immByte i) = w
  rw [← hop, ← himm, mkWord_op_imm]

/-- R116: the row of an operation with an immediate accepts every imm. -/
theorem decodesTo_imm {w : BitVec 16} {i : Instr} (hop : wordOp w = opByte i) (himm : wordImm w = immByte i) :
    DecodesTo w (.ok i) := .inl ⟨i, rfl, word_encode_of hop himm⟩

/-- R117: the row of an operation without immediate accepts imm 0 alone. -/
theorem decodesTo_noImm {w : BitVec 16} {i : Instr} (hop : wordOp w = opByte i) (hi : takesImm i = false) :
    DecodesTo w (noImm (wordOp w) (wordImm w) i) := by
  by_cases h0 : wordImm w = 0
  · rw [noImm, if_pos h0]
    exact .inl ⟨i, rfl, word_encode_of hop (h0.trans (immByte_of_not_takesImm hi).symm)⟩
  · rw [noImm, if_neg h0]
    have hne := (takesImm_iff i).not.mp (by rw [hi]; exact Bool.false_ne_true)
    rw [← hop, not_or] at hne
    exact .inr ⟨⟨_, rfl⟩, .inr ⟨hne.1, hne.2, h0⟩⟩

theorem decodesTo_ite {w : BitVec 16} {p : Prop} [Decidable p] {a b : Except Reserved Instr} (ha : p → DecodesTo w a)
    (hb : ¬ p → DecodesTo w b) : DecodesTo w (if p then a else b) := by
  split
  · exact ha ‹p›
  · exact hb ‹¬p›

/-- R115 to R117, row by row. -/
theorem decode_decodesTo (w : BitVec 16) (x : Beside) : DecodesTo w (decode w x) := by
  unfold decode
  simp only
  refine decodesTo_ite (fun h => decodesTo_noImm h rfl) fun h01 => ?_
  refine decodesTo_ite (fun h => decodesTo_imm h rfl) fun h10 => ?_
  refine decodesTo_ite (fun h => decodesTo_noImm h rfl) fun h11 => ?_
  refine decodesTo_ite (fun h => decodesTo_noImm h rfl) fun h12 => ?_
  refine decodesTo_ite (fun h => decodesTo_noImm h rfl) fun h20 => ?_
  refine decodesTo_ite (fun h => decodesTo_noImm h rfl) fun h21 => ?_
  refine decodesTo_ite (fun h => decodesTo_noImm h rfl) fun h22 => ?_
  refine decodesTo_ite (fun h => decodesTo_noImm h rfl) fun h23 => ?_
  refine decodesTo_ite (fun h => decodesTo_noImm h rfl) fun h24 => ?_
  refine decodesTo_ite (fun h => decodesTo_noImm h rfl) fun h25 => ?_
  refine decodesTo_ite (fun h => decodesTo_noImm h rfl) fun h30 => ?_
  refine decodesTo_ite (fun h => decodesTo_noImm h rfl) fun h40 => ?_
  refine decodesTo_ite (fun h => decodesTo_noImm h rfl) fun h41 => ?_
  refine decodesTo_ite (fun h => decodesTo_noImm h rfl) fun h42 => ?_
  refine decodesTo_ite (fun h => decodesTo_imm h rfl) fun h43 => ?_
  refine decodesTo_ite (fun h => decodesTo_noImm h rfl) fun h44 => ?_
  refine decodesTo_ite (fun h => decodesTo_noImm h rfl) fun h45 => ?_
  refine .inr ⟨⟨_, rfl⟩, .inl ?_⟩
  simp only [tableOps, List.mem_cons, List.not_mem_nil, or_false, not_or]
  exact ⟨h01, h10, h11, h12, h20, h21, h22, h23, h24, h25, h30, h40, h41, h42, h43, h44, h45⟩

/-- R117: the word of an instruction is not reserved. -/
theorem not_isReserved_encode (i : Instr) : ¬ IsReserved (encode i).word := by
  have hop : wordOp (encode i).word = opByte i := op_mkWord _ _
  have himm : wordImm (encode i).word = immByte i := imm_mkWord _ _
  rw [IsReserved, hop, himm]
  rintro (hmem | ⟨h10, h43, h0⟩)
  · exact hmem (opByte_mem_tableOps i)
  · have hi : takesImm i = false := Bool.eq_false_iff.mpr fun h => ((takesImm_iff i).mp h).elim h10 h43
    exact h0 (immByte_of_not_takesImm hi)

theorem word_encode_of_decode {w : BitVec 16} {x : Beside} {i : Instr} (h : decode w x = .ok i) :
    (encode i).word = w := by
  rcases decode_decodesTo w x with ⟨j, hj, hw⟩ | ⟨⟨e, he⟩, -⟩
  · rw [hj] at h; cases h; exact hw
  · rw [he] at h; cases h

/-- R117: decode rejects a word exactly when it is reserved. -/
theorem decode_error_iff (w : BitVec 16) (x : Beside) : (∃ e, decode w x = .error e) ↔ IsReserved w := by
  rcases decode_decodesTo w x with ⟨i, hi, rfl⟩ | ⟨herr, hres⟩
  · exact iff_of_false (fun ⟨e, he⟩ => by rw [hi] at he; cases he) (not_isReserved_encode i)
  · exact iff_of_true herr hres

namespace Machine

/-! ## Taking the next issued operation -/

section fetch
variable {s : State} {x : Issue} {rest : List Issue}

theorem fetch_idle (h : s.inbox = []) : fetch s = .idle := by
  unfold fetch; rw [h]

theorem fetch_notConstructed (h : s.inbox = x :: rest) (hb : s.built = false) :
    fetch s = .refuse .notConstructed := by
  unfold fetch; rw [h]; simp only [hb, Bool.not_false, if_true]

theorem fetch_badConfig (h : s.inbox = x :: rest) (hb : s.built = true) (hc : configOk s.cfg = false) :
    fetch s = .refuse .badConfig := by
  unfold fetch; rw [h]; simp only [hb, hc, Bool.not_true, Bool.not_false, if_true, Bool.false_eq_true, if_false]

theorem ready_iff : s.ready = true ↔ s.built = true ∧ configOk s.cfg = true := by
  rw [State.ready, Bool.and_eq_true]

theorem fetch_reserved (hr : s.ready = true) (h : s.inbox = x :: rest) {e : Reserved}
    (hd : decode x.word x.beside = .error e) : fetch s = .refuse (.reservedWord x.word) := by
  obtain ⟨hb, hc⟩ := ready_iff.mp hr
  unfold fetch; rw [h]; simp only [hb, hc, hd, Bool.not_true, Bool.false_eq_true, if_false]

theorem fetch_run (hr : s.ready = true) (h : s.inbox = x :: rest) {i : Instr}
    (hd : decode x.word x.beside = .ok i) : fetch s = .run i { s with inbox := rest } := by
  obtain ⟨hb, hc⟩ := ready_iff.mp hr
  unfold fetch; rw [h]; simp only [hb, hc, hd, Bool.not_true, Bool.false_eq_true, if_false]

theorem step_of_refuse {r : Refusal} (h : fetch s = .refuse r) : step s = .refused r := by
  rw [step, h]

theorem step_of_run {i : Instr} {t : State} (h : fetch s = .run i t) : step s = exec i t := by
  rw [step, h]

end fetch

/-! ## The statements -/

/-- Settles O13: the encoder is the table read the other way, and every row of decode answers an instruction whose word
is the one decoded. -/
theorem decodeAndEncodeAgree : Obligations.DecodeAndEncodeAgree :=
  ⟨decode_encode, fun _ _ _ h => word_encode_of_decode h⟩

/-- Settles O14: every row of decode rejects exactly the reserved words, and a ready machine refuses what decode
rejects. -/
theorem reservedWordsAreRefused : Obligations.ReservedWordsAreRefused :=
  ⟨fun w x => decode_error_iff w x, fun _ _ _ _ hr h hd => step_of_refuse (fetch_reserved hr h hd)⟩

/-- Settles O12: each word is evaluated. -/
theorem tableWordsDecodeToTheirOperations : Obligations.TableWordsDecodeToTheirOperations := by
  refine ⟨?_, ?_, ?_, ?_, ?_, ?_, ?_, ?_⟩ <;> decide

/-- Settles O15: each branch of fetch decides the step. -/
theorem stepRunsTheIssuedOperation : Obligations.StepRunsTheIssuedOperation :=
  fun _ _ _ => ⟨fun hr h _ hd => step_of_run (fetch_run hr h hd),
    fun hb h => step_of_refuse (fetch_notConstructed h hb),
    fun hb hc h => step_of_refuse (fetch_badConfig h hb hc),
    fun h => by rw [step, fetch_idle h]⟩

end Machine
end Sys2Proof
end

section
/-! SUPPORT. The codec (41_codec.md): HDR_UNPACK is the inverse of HDR_PACK, CLASSIFY answers the one range that holds a
code, HDR_VALID fails in the four cases of R108. -/

namespace Sys2Proof.Machine

/-! ## Headers -/

section headers
variable {o : WireOrder} {h : Header} {q : Quad}

/-- R145, R144: HDR_PACK after HDR_UNPACK. -/
theorem hdrPack_hdrUnpack (o : WireOrder) (q : Quad) : hdrPack o (hdrUnpack o q) = [q.b0, q.b1, q.b2, q.b3] := by
  simp only [hdrPack, hdrUnpack, wire16_word16, List.cons_append, List.nil_append]

/-- R11: the u16 of a two-byte sequence that is `x` in wire order. -/
theorem word16_of_wire16 {a b : Byte} {x : U16} (hx : wire16 o x = [a, b]) : word16 o a b = x := by
  have h1 := word16_wire16 o x
  rwa [hx] at h1

/-- R145, R144: HDR_UNPACK after HDR_PACK. -/
theorem hdrUnpack_of_hdrPack (hp : hdrPack o h = [q.b0, q.b1, q.b2, q.b3]) : hdrUnpack o q = h := by
  simp only [hdrPack, List.cons_append, List.nil_append, List.cons.injEq] at hp
  obtain ⟨htype, hdir, hlen⟩ := hp
  rw [hdrUnpack, word16_of_wire16 hlen, ← htype, ← hdir]

end headers

/-! ## Classes -/

theorem inRange_iff {r : Range} {t : Byte} : inRange r t = true ↔ r.lo ≤ t ∧ t ≤ r.hi := by
  rw [inRange, Bool.and_eq_true, decide_eq_true_eq, decide_eq_true_eq]

/-- R8: the test of two ranges is that no code lies in both. -/
theorem rangesDisjoint_iff {a b : Range} :
    rangesDisjoint a b = true ↔ ∀ t, ¬ (inRange a t = true ∧ inRange b t = true) := by
  simp only [rangesDisjoint, Bool.or_eq_true, decide_eq_true_eq, inRange_iff, BitVec.lt_def, BitVec.le_def]
  constructor
  · intro h t
    omega
  · intro h
    by_contra hne
    have hmax : (if a.lo.toNat ≤ b.lo.toNat then b.lo else a.lo).toNat = max a.lo.toNat b.lo.toNat := by
      split <;> omega
    have := h (if a.lo.toNat ≤ b.lo.toNat then b.lo else a.lo)
    rw [hmax] at this
    omega

section classes
variable {c : Config} {t : Byte}

theorem classify_eq_cmd : classify c t = .cmd ↔ inRange c.cmdRange t = true := by
  unfold classify
  split_ifs <;> simp_all

theorem classify_eq_evt : classify c t = .evt ↔ inRange c.cmdRange t = false ∧ inRange c.evtRange t = true := by
  unfold classify
  split_ifs <;> simp_all

theorem classify_eq_rsp : classify c t = .rsp ↔
    inRange c.cmdRange t = false ∧ inRange c.evtRange t = false ∧ inRange c.rspRange t = true := by
  unfold classify
  split_ifs <;> simp_all

theorem classify_eq_none : classify c t = .none ↔
    inRange c.cmdRange t = false ∧ inRange c.evtRange t = false ∧ inRange c.rspRange t = false := by
  unfold classify
  split_ifs <;> simp_all

/-- R8: under a legal configuration a code lies in at most one range. -/
theorem ranges_of_configOk (h : configOk c = true) (t : Byte) :
    ¬ (inRange c.cmdRange t = true ∧ inRange c.evtRange t = true) ∧
    ¬ (inRange c.cmdRange t = true ∧ inRange c.rspRange t = true) ∧
    ¬ (inRange c.evtRange t = true ∧ inRange c.rspRange t = true) := by
  simp only [configOk, codesOk, Bool.and_eq_true] at h
  obtain ⟨⟨⟨⟨⟨⟨⟨⟨hce, hcr⟩, her⟩, -⟩, -⟩, -⟩, -⟩, -⟩, -⟩ := h
  exact ⟨rangesDisjoint_iff.mp hce t, rangesDisjoint_iff.mp hcr t, rangesDisjoint_iff.mp her t⟩

end classes

/-! ## HDR_VALID -/

/-- R8, R146: a byte names no direction exactly when it is neither marker. -/
theorem legalFor_eq_none {c : Config} {d : Byte} : legalFor c d = none ↔ d ≠ c.dirH2T ∧ d ≠ c.dirT2H := by
  unfold legalFor
  split_ifs <;> simp_all

/-- R146: the test of a header whose direction is a marker. -/
theorem hdrValid_of_legal {c : Config} {h : Header} {legal : ClassSet} (hl : legalFor c h.dir = some legal) :
    hdrValid c h = true ↔
      classify c h.type ≠ .none ∧ classIn legal (classify c h.type) = true ∧ h.len.toNat ≤ 256 := by
  unfold hdrValid
  rw [hl]
  simp only
  split_ifs with hnone hclass
  · exact iff_of_false id fun h => h.1 hnone
  · exact iff_of_false id fun h => by rw [h.2.1] at hclass; cases hclass
  · rw [decide_eq_true_eq]
    rw [Bool.not_eq_true, Bool.not_eq_false'] at hclass
    exact ⟨fun hlen => ⟨hnone, hclass, hlen⟩, fun h => h.2.2⟩

theorem hdrValid_of_no_direction {c : Config} {h : Header} (hl : legalFor c h.dir = none) : hdrValid c h = false := by
  rw [hdrValid, hl]

/-- R108: a header is invalid exactly in the four listed cases. -/
theorem hdrValid_eq_false_iff {c : Config} {h : Header} :
    hdrValid c h = false ↔
      (h.dir ≠ c.dirH2T ∧ h.dir ≠ c.dirT2H) ∨ classify c h.type = .none ∨
      (∃ legal, legalFor c h.dir = some legal ∧ classIn legal (classify c h.type) = false) ∨ 256 < h.len.toNat := by
  rw [← legalFor_eq_none]
  cases hl : legalFor c h.dir with
  | none => exact iff_of_true (hdrValid_of_no_direction hl) (.inl rfl)
  | some legal =>
    rw [← Bool.not_eq_true, hdrValid_of_legal hl]
    simp only [ne_eq, not_and_or, not_not, Bool.not_eq_true, Nat.not_le, Option.some.injEq, reduceCtorEq, false_or,
      exists_eq_left']

/-! ## The statements -/

/-- Settles O2: HDR_UNPACK's step is its answer by definition, and wire16 and word16 are inverses. -/
theorem hdrUnpackInvertsHdrPack : Obligations.HdrUnpackInvertsHdrPack :=
  fun q _ _ => ⟨rfl, wire16_word16 _ _ _, hdrPack_hdrUnpack _ q, hdrUnpack_of_hdrPack⟩

/-- Settles O4: CLASSIFY tests the ranges in order, and in a legal configuration a later range holds no code of an
earlier one. -/
theorem classifyAnswersTheRangeOfTheCode : Obligations.ClassifyAnswersTheRangeOfTheCode := by
  intro t s h
  obtain ⟨hce, hcr, her⟩ := ranges_of_configOk h t
  refine ⟨classify s.cfg t, rfl, ?_, ?_, ?_, classify_eq_none⟩
  · rw [classify_eq_cmd, inRange_iff]
  · rw [classify_eq_evt, ← inRange_iff, ← Bool.not_eq_true]
    exact and_iff_right_of_imp fun he hc => hce ⟨hc, he⟩
  · rw [classify_eq_rsp, ← inRange_iff, ← Bool.not_eq_true, ← Bool.not_eq_true]
    exact ⟨fun hr => hr.2.2, fun hr => ⟨fun hc => hcr ⟨hc, hr⟩, fun he => her ⟨he, hr⟩, hr⟩⟩

end Sys2Proof.Machine
end

section
/-! SUPPORT. XorFold (41_codec.md R142, R143): the fold of the zero-padded words, additive on sequences of whole words
and linear in every byte. -/

namespace Sys2Proof.Machine

variable {o : WireOrder}

/-! ## Words -/

theorem word32_zero (o : WireOrder) : word32 o 0 0 0 0 = 0 := by cases o <;> rfl

/-- R11: a word is linear in its bytes. -/
theorem word32_xor (o : WireOrder) (a b c d a' b' c' d' : Byte) :
    word32 o (a ^^^ a') (b ^^^ b') (c ^^^ c') (d ^^^ d') = word32 o a b c d ^^^ word32 o a' b' c' d' := by
  cases o with
  | le =>
    show (d ^^^ d') ++ (c ^^^ c') ++ (b ^^^ b') ++ (a ^^^ a') = (d ++ c ++ b ++ a) ^^^ (d' ++ c' ++ b' ++ a')
    rw [BitVec.xor_append, BitVec.xor_append, BitVec.xor_append]
  | be =>
    show (a ^^^ a') ++ (b ^^^ b') ++ (c ^^^ c') ++ (d ^^^ d') = (a ++ b ++ c ++ d) ^^^ (a' ++ b' ++ c' ++ d')
    rw [BitVec.xor_append, BitVec.xor_append, BitVec.xor_append]

/-- R142: word `k` of a sequence, bytes past its end read as zero. -/
def wordAt (o : WireOrder) (m : List Byte) (k : Nat) : U32 :=
  word32 o (m.getD (4 * k) 0) (m.getD (4 * k + 1) 0) (m.getD (4 * k + 2) 0) (m.getD (4 * k + 3) 0)

theorem wordAt_zero (o : WireOrder) (m : List Byte) :
    wordAt o m 0 = word32 o (m.getD 0 0) (m.getD 1 0) (m.getD 2 0) (m.getD 3 0) := rfl

/-! ## The fold, one word at a time -/

/-- R142: an accumulator only adds to the fold. -/
theorem xorFoldFrom_xor (acc x : U32) (m : List Byte) : xorFoldFrom o (acc ^^^ x) m = acc ^^^ xorFoldFrom o x m := by
  induction x, m using xorFoldFrom.induct o with
  | case1 => rfl
  | case2 | case3 | case4 => exact BitVec.xor_assoc _ _ _
  | case5 x a b c d m ih => rw [xorFoldFrom, xorFoldFrom, BitVec.xor_assoc, ih]

theorem xorFoldFrom_eq (acc : U32) (m : List Byte) : xorFoldFrom o acc m = acc ^^^ xorFold o m := by
  rw [xorFold, ← xorFoldFrom_xor]
  exact congrArg (xorFoldFrom o · m) BitVec.xor_zero.symm

/-- R142: a sequence of at most four bytes, not empty, is one word, padded with zero bytes. -/
theorem xorFold_of_short : ∀ {m : List Byte}, m ≠ [] → m.length ≤ 4 → xorFold o m = wordAt o m 0
  | [], h0, _ => absurd rfl h0
  | [_], _, _ | [_, _], _, _ | [_, _, _], _, _ | [_, _, _, _], _, _ => BitVec.zero_xor
  | _ :: _ :: _ :: _ :: _ :: _, _, h4 => absurd h4 (by simp)

theorem xorFold_cons4 (o : WireOrder) (a b c d : Byte) (m : List Byte) :
    xorFold o (a :: b :: c :: d :: m) = word32 o a b c d ^^^ xorFold o m := by
  rw [← xorFoldFrom_eq]
  exact congrArg (xorFoldFrom o · m) BitVec.zero_xor

/-- R142: the fold is the XOR of the words at offsets 0, 4, 8, ... -/
theorem xorFoldFrom_eq_foldl (acc : U32) (m : List Byte) :
    xorFoldFrom o acc m = ((List.range ((m.length + 3) / 4)).map (wordAt o m)).foldl (· ^^^ ·) acc := by
  induction acc, m using xorFoldFrom.induct o with
  | case1 => rfl
  | case2 | case3 | case4 =>
    simp only [xorFoldFrom, List.length_cons, List.length_nil]
    rfl
  | case5 acc a b c d m ih =>
    have hlen : ((a :: b :: c :: d :: m).length + 3) / 4 = (m.length + 3) / 4 + 1 := by
      simp only [List.length_cons]; omega
    rw [xorFoldFrom, ih, hlen, List.range_succ_eq_map, List.map_cons, List.map_map, List.foldl_cons]
    rfl

/-! ## Whole words -/

/-- R143: on sequences of whole words the fold is additive. -/
theorem xorFold_append : ∀ {p : List Byte} (m : List Byte), p.length % 4 = 0 →
    xorFold o (p ++ m) = xorFold o p ^^^ xorFold o m
  | [], m, _ => BitVec.zero_xor.symm
  | [_], _, h | [_, _], _, h | [_, _, _], _, h => absurd h (by simp)
  | a :: b :: c :: d :: p, m, h => by
    have ih := xorFold_append (p := p) m (by simp only [List.length_cons] at h; omega)
    simp only [List.cons_append, xorFold_cons4, ih, BitVec.xor_assoc]

/-- R143 (c): two words may be swapped. -/
theorem xorFold_swap {p u q v : List Byte} (r : List Byte) (hp : p.length % 4 = 0) (hu : u.length = 4)
    (hq : q.length % 4 = 0) (hv : v.length = 4) :
    xorFold o (p ++ u ++ q ++ v ++ r) = xorFold o (p ++ v ++ q ++ u ++ r) := by
  have hu' : u.length % 4 = 0 := by omega
  have hv' : v.length % 4 = 0 := by omega
  simp only [List.append_assoc]
  rw [xorFold_append _ hp, xorFold_append _ hu', xorFold_append _ hq, xorFold_append _ hv', xorFold_append _ hp,
    xorFold_append _ hv', xorFold_append _ hq, xorFold_append _ hu']
  ac_rfl

/-- R143 (d): one zero byte appended. -/
theorem xorFold_append_zero : ∀ m : List Byte, xorFold o (m ++ [0]) = xorFold o m
  | [] => by rw [List.nil_append, xorFold_of_short (List.cons_ne_nil _ _) (by simp)]; exact word32_zero o
  | [a] | [a, b] | [a, b, c] => rfl
  | a :: b :: c :: d :: m => by
    simp only [List.cons_append, xorFold_cons4, xorFold_append_zero m]

/-- R143 (d): zeros appended. -/
theorem xorFold_append_zeros (m : List Byte) (n : Nat) : xorFold o (m ++ List.replicate n 0) = xorFold o m := by
  induction n generalizing m with
  | zero => rw [List.replicate_zero, List.append_nil]
  | succ n ih => rw [List.replicate_succ, List.append_cons, ih, xorFold_append_zero]

/-- R143 (g): an even number of equal words cancels. -/
theorem xorFold_replicate (x : Byte) (n : Nat) : xorFold o (List.replicate (8 * n) x) = 0 := by
  induction n with
  | zero => rfl
  | succ n ih =>
    have hsplit : List.replicate (8 * (n + 1)) x =
        x :: x :: x :: x :: x :: x :: x :: x :: List.replicate (8 * n) x := rfl
    rw [hsplit, xorFold_cons4, xorFold_cons4, ← BitVec.xor_assoc, BitVec.xor_self, ih]
    rfl

/-! ## One byte -/

/-- R142: the word whose byte at offset `k` is `x` and whose other bytes are zero. -/
def slotWord (o : WireOrder) (k : Nat) (x : Byte) : U32 :=
  word32 o (if k = 0 then x else 0) (if k = 1 then x else 0) (if k = 2 then x else 0) (if k = 3 then x else 0)

/-- R142: the fold is the first word and the fold of what follows it. -/
theorem xorFold_eq_head (o : WireOrder) (m : List Byte) : xorFold o m = wordAt o m 0 ^^^ xorFold o (m.drop 4) := by
  match m with
  | [] =>
    show (0 : U32) = word32 o 0 0 0 0 ^^^ 0
    rw [word32_zero]
    rfl
  | [_] | [_, _] | [_, _, _] =>
    rw [xorFold_of_short (List.cons_ne_nil _ _) (by simp)]
    exact BitVec.xor_zero.symm
  | a :: b :: c :: d :: m => exact xorFold_cons4 o a b c d m

theorem getD_set_xor {m : List Byte} {i : Nat} (x : Byte) (hi : i < m.length) (k : Nat) :
    (m.set i (m.getD i 0 ^^^ x)).getD k 0 = m.getD k 0 ^^^ (if i = k then x else 0) := by
  by_cases hk : i = k
  · subst hk
    simp [List.getD_eq_getElem?_getD, hi]
  · simp [List.getD_eq_getElem?_getD, List.getElem?_set_ne hk, hk]

/-- R142: changing one byte of the first word by `x` changes the word by `x` at that byte's place. -/
theorem wordAt_set_xor {m : List Byte} {i : Nat} (x : Byte) (hi : i < m.length) :
    wordAt o (m.set i (m.getD i 0 ^^^ x)) 0 = wordAt o m 0 ^^^ slotWord o i x := by
  rw [wordAt_zero, wordAt_zero, slotWord, ← word32_xor, getD_set_xor x hi, getD_set_xor x hi, getD_set_xor x hi,
    getD_set_xor x hi]

theorem slotWord_of_le {k : Nat} (hk : 4 ≤ k) (x : Byte) : slotWord o k x = 0 := by
  rw [slotWord, if_neg (by omega), if_neg (by omega), if_neg (by omega), if_neg (by omega), word32_zero]

/-- R143 (e): the fold is linear in each byte of the message. -/
theorem xorFold_set (x : Byte) (i : Nat) (m : List Byte) (hi : i < m.length) :
    xorFold o (m.set i (m.getD i 0 ^^^ x)) = xorFold o m ^^^ slotWord o (i % 4) x := by
  rw [xorFold_eq_head, xorFold_eq_head o m, wordAt_set_xor x hi]
  by_cases h4 : i < 4
  · rw [List.drop_set_of_lt h4, Nat.mod_eq_of_lt h4]
    ac_rfl
  · have hget : m.getD i 0 = (m.drop 4).getD (i - 4) 0 := by
      rw [List.getD_eq_getElem?_getD, List.getD_eq_getElem?_getD, List.getElem?_drop, Nat.add_sub_cancel' (by omega)]
    have hmod : i % 4 = (i - 4) % 4 := by omega
    have hword : wordAt o m 0 ^^^ slotWord o i x = wordAt o m 0 := by
      rw [slotWord_of_le (Nat.not_lt.mp h4)]
      exact BitVec.xor_zero
    rw [hword, List.drop_set, if_neg h4, hget, xorFold_set x (i - 4) (m.drop 4) (by rw [List.length_drop]; omega),
      hmod, BitVec.xor_assoc]
termination_by i

/-- R11, R143 (e): the place of one bit of one byte of a word. -/
theorem slotWord_bit {k j : Nat} (hk : k < 4) (hj : j < 8) :
    slotWord .le k (1#8 <<< j) = 1#32 <<< (8 * k + j) ∧ slotWord .be k (1#8 <<< j) = 1#32 <<< (8 * (3 - k) + j) := by
  have hall : ∀ k < 4, ∀ j < 8, slotWord .le k (1#8 <<< j) = 1#32 <<< (8 * k + j) ∧
      slotWord .be k (1#8 <<< j) = 1#32 <<< (8 * (3 - k) + j) := by decide
  exact hall k hk j hj

/-! ## The statements -/

/-- Settles O5: CHK's step is its answer by definition, and the fold goes word by word. -/
theorem chkAnswersTheFoldOfTheWords : Obligations.ChkAnswersTheFoldOfTheWords := by
  refine fun m s => ⟨rfl, fun hfn => ?_⟩
  have hsum : checksum s.cfg m = xorFold s.cfg.wireOrder m := by rw [checksum, hfn]
  exact hsum.trans (xorFoldFrom_eq_foldl 0 m)

/-- Settles O6: the fold is additive on whole words, so words commute and cancel, and a zero byte adds nothing. -/
theorem xorFoldForgetsWordOrderAndZeros : Obligations.XorFoldForgetsWordOrderAndZeros := by
  refine fun o => ⟨rfl, fun a b c d => ?_, fun p u q v r hp hu hq hv => xorFold_swap r hp hu hq hv,
    xorFold_append_zeros, fun m hm => ?_⟩
  · exact xorFold_of_short (List.cons_ne_nil _ _) (Nat.le_refl 4)
  · rw [xorFold_append _ (by rw [hm]), xorFold_replicate _ 32]
    exact BitVec.xor_zero

/-- Settles O7: the fold is linear in the flipped byte, whose bit has one place in the word. -/
theorem xorFoldFlipsExactlyOneBit : Obligations.XorFoldFlipsExactlyOneBit := by
  intro o m i j hi hj
  obtain ⟨hle, hbe⟩ := slotWord_bit (Nat.mod_lt i (by decide : 0 < 4)) hj
  rw [xorFold_set _ i m hi]
  cases o with
  | le => rw [hle]
  | be => rw [hbe]

end Sys2Proof.Machine
end

section
/-! SUPPORT. Frames (30_encoding.md R100, 41_codec.md R149, R151): the layout of a frame as its fields end to end, with
any four bytes in the checksum field, and what DecodeFrame answers on it. -/

namespace Sys2Proof.Machine

/-! ## The layout -/

/-- R100: the fields of a frame end to end, with the bytes `sum` in the checksum field. -/
def frameWith (c : Config) (h : Header) (pl sum : List Byte) : List Byte :=
  wire32 c.wireOrder preamble ++ (hdrPack c.wireOrder h ++ (pl ++ (sum ++ wire32 c.wireOrder postamble)))

/-- R149: FRAME_ENCODE puts the checksum of header and payload in the checksum field. -/
theorem frameEncode_eq (c : Config) (h : Header) (pl : List Byte) :
    frameEncode c h pl = frameWith c h pl (wire32 c.wireOrder (frameChecksum c h pl)) := by
  simp only [frameEncode, frameWith, List.append_assoc]

section layout
variable {c : Config} {h : Header} {pl sum : List Byte}

theorem length_frameWith (hs : sum.length = 4) : (frameWith c h pl sum).length = 16 + pl.length := by
  simp only [frameWith, List.length_append, length_wire32, length_hdrPack, hs]
  omega

theorem take_four_frameWith : (frameWith c h pl sum).take 4 = wire32 c.wireOrder preamble :=
  List.take_left' (length_wire32 _ _)

theorem drop_four_frameWith :
    (frameWith c h pl sum).drop 4 =
      hdrPack c.wireOrder h ++ (pl ++ (sum ++ wire32 c.wireOrder postamble)) := List.drop_left' (length_wire32 _ _)

theorem drop_eight_frameWith :
    (frameWith c h pl sum).drop 8 = pl ++ (sum ++ wire32 c.wireOrder postamble) := by
  rw [show 8 = 4 + 4 from rfl, ← List.drop_drop, drop_four_frameWith, List.drop_left' (length_hdrPack _ _)]

theorem drop_trailer_frameWith (n : Nat) (hn : pl.length = n) :
    (frameWith c h pl sum).drop (8 + n) = sum ++ wire32 c.wireOrder postamble := by
  rw [← List.drop_drop, drop_eight_frameWith, List.drop_left' hn]

/-- R100: a change inside the checksum field. -/
theorem set_frameWith {i : Nat} (b : Byte) (hi : i < sum.length) :
    (frameWith c h pl sum).set (8 + pl.length + i) b = frameWith c h pl (sum.set i b) := by
  have hh := length_hdrPack c.wireOrder h
  have hp := length_wire32 c.wireOrder preamble
  unfold frameWith
  rw [List.set_append_right _ _ (by omega), List.set_append_right _ _ (by omega), List.set_append_right _ _ (by omega),
    List.set_append_left _ _ (by omega)]
  congr 5
  omega

/-- R100: a byte of the checksum field. -/
theorem getD_frameWith {i : Nat} (hi : i < sum.length) :
    (frameWith c h pl sum).getD (8 + pl.length + i) 0 = sum.getD i 0 := by
  have hget : (frameWith c h pl sum).getD (8 + pl.length + i) 0 =
      ((frameWith c h pl sum).drop (8 + pl.length)).getD i 0 := by
    rw [List.getD_eq_getElem?_getD, List.getD_eq_getElem?_getD, List.getElem?_drop]
  rw [hget, drop_trailer_frameWith _ rfl, List.getD_append _ _ _ _ hi]

/-- R151, R145: the header read back from bytes 4 to 7. -/
theorem frameHeader_frameWith : frameHeader c.wireOrder (frameWith c h pl sum) = h := by
  obtain ⟨b0, b1, b2, b3, hb⟩ := length_four (length_hdrPack c.wireOrder h)
  obtain ⟨p0, p1, p2, p3, hp⟩ := length_four (length_wire32 c.wireOrder preamble)
  have hf : frameWith c h pl sum = p0 :: p1 :: p2 :: p3 :: b0 :: b1 :: b2 :: b3 ::
      (pl ++ (sum ++ wire32 c.wireOrder postamble)) := by rw [frameWith, hp, hb]; rfl
  rw [hf]
  exact hdrUnpack_of_hdrPack hb

end layout

/-! ## DecodeFrame -/

/-- R151: a frame with a valid header is judged by its checksum field alone. -/
theorem decodeFrame_frameWith {c : Config} {h : Header} {pl sum : List Byte} (hv : hdrValid c h = true)
    (hl : pl.length = h.len.toNat) (hs : sum.length = 4) :
    decodeFrame c (frameWith c h pl sum) =
      if unwire32 c.wireOrder sum ≠ frameChecksum c h pl then .badChecksum else .packet h pl := by
  have hlen := length_frameWith (c := c) (h := h) (pl := pl) hs
  have hframe : ¬ ((frameWith c h pl sum).length < 16 ∨
      (frameWith c h pl sum).take 4 ≠ wire32 c.wireOrder preamble) :=
    not_or.mpr ⟨by omega, fun hne => hne take_four_frameWith⟩
  have hpl : ((frameWith c h pl sum).drop 8).take h.len.toNat = pl := by
    rw [drop_eight_frameWith, List.take_left' hl]
  have hpost : ((sum ++ wire32 c.wireOrder postamble).drop 4).take 4 = wire32 c.wireOrder postamble := by
    rw [List.drop_left' hs, List.take_of_length_le (Nat.le_of_eq (length_wire32 _ _))]
  rw [decodeFrame, if_neg hframe]
  simp only [frameHeader_frameWith, hv, hlen, ← hl, Bool.not_true, Bool.false_eq_true, if_false, ne_eq,
    not_true_eq_false]
  rw [drop_trailer_frameWith _ rfl, List.take_left' hs, hpost, hl, hpl, unwire32_wire32]
  simp only [not_true_eq_false, if_false]

/-- R11: wire32 after unwire32, on a sequence of four bytes. -/
theorem wire32_unwire32 (o : WireOrder) {s : List Byte} (hs : s.length = 4) : wire32 o (unwire32 o s) = s := by
  obtain ⟨a, b, c, d, rfl⟩ := length_four hs
  exact wire32_word32 o a b c d

/-- One flipped bit is a different byte. -/
theorem flip_ne (b : Byte) {j : Nat} (hj : j < 8) : b ^^^ (1#8 <<< j) ≠ b := by
  have hbit : ∀ j < 8, 1#8 <<< j ≠ 0#8 := by decide
  exact fun h => hbit j hj ((BitVec.xor_right_inj b).mp (h.trans BitVec.xor_zero.symm))

/-- R151: one flipped bit of the four bytes of a word is another word. -/
theorem unwire32_flip_ne (o : WireOrder) (x : U32) {i j : Nat} (hi : i < 4) (hj : j < 8) :
    unwire32 o ((wire32 o x).set i ((wire32 o x).getD i 0 ^^^ (1#8 <<< j))) ≠ x := by
  intro h
  have hlen := length_wire32 o x
  have hsame : wire32 o x = (wire32 o x).set i ((wire32 o x).getD i 0 ^^^ (1#8 <<< j)) := by
    rw [← wire32_unwire32 o ((List.length_set).trans hlen), h]
  have hbyte := congrArg (fun s => s.getD i 0) hsame
  simp only [List.getD_eq_getElem?_getD, List.getElem?_set_self (by omega : i < (wire32 o x).length),
    Option.getD_some] at hbyte
  exact flip_ne _ hj hbyte.symm

/-- R151: flipping one bit of a frame's checksum field changes those four bytes alone. -/
theorem flip_frameEncode {c : Config} {h : Header} {pl : List Byte} (hl : pl.length = h.len.toNat) {i : Nat} (x : Byte)
    (hi : i < 4) :
    (frameEncode c h pl).set (8 + h.len.toNat + i) ((frameEncode c h pl).getD (8 + h.len.toNat + i) 0 ^^^ x) =
      frameWith c h pl ((wire32 c.wireOrder (frameChecksum c h pl)).set i
        ((wire32 c.wireOrder (frameChecksum c h pl)).getD i 0 ^^^ x)) := by
  have hi' : i < (wire32 c.wireOrder (frameChecksum c h pl)).length := by rw [length_wire32]; exact hi
  rw [frameEncode_eq, ← hl, getD_frameWith hi', set_frameWith _ hi']

/-! ## The statements -/

/-- Settles O8: the layout read off at each offset, and the refusal of what is not a packet. -/
theorem frameEncodeLaysOutTheFields : Obligations.FrameEncodeLaysOutTheFields := by
  refine fun h pl s => ⟨fun hl hle => ?_, fun hnot => exec_of_not_wellFormed ?_⟩
  · have hsum := length_wire32 s.cfg.wireOrder (frameChecksum s.cfg h pl)
    have hfour := drop_four_frameWith (c := s.cfg) (h := h) (pl := pl)
      (sum := wire32 s.cfg.wireOrder (frameChecksum s.cfg h pl))
    refine ⟨frameEncode s.cfg h pl, exec_frameEncode_of_isPacket (isPacket_iff.mpr ⟨hl, hle⟩), ?_⟩
    rw [frameEncode_eq]
    refine ⟨by rw [length_frameWith hsum, hl], take_four_frameWith, ?_, ?_, ?_, ?_, ?_, ?_⟩
    · rw [hfour]; rfl
    · rw [show 5 = 4 + 1 from rfl, ← List.drop_drop, hfour]; rfl
    · rw [show 6 = 4 + 2 from rfl, ← List.drop_drop, hfour]
      exact List.take_left' (length_wire16 _ _)
    · rw [drop_eight_frameWith, List.take_left' hl]
    · rw [drop_trailer_frameWith _ hl, List.take_left' hsum]
      rfl
    · rw [show 12 + h.len.toNat = 8 + h.len.toNat + 4 by omega, ← List.drop_drop, drop_trailer_frameWith _ hl,
        List.drop_left' hsum]
  · exact Bool.eq_false_iff.mpr fun hp => hnot (isPacket_iff.mp hp)

/-- Settles O9: the delimiters and the example frame, evaluated. -/
theorem delimitersAndExampleFrameOnTheWire : Obligations.DelimitersAndExampleFrameOnTheWire := by
  refine ⟨?_, ?_, ?_, ?_, ?_⟩ <;> decide

/-- Settles O10: the checksum field of a frame is the checksum DecodeFrame computes. -/
theorem decodeFrameInvertsFrameEncode : Obligations.DecodeFrameInvertsFrameEncode := by
  intro c h pl hv hl
  rw [frameEncode_eq, decodeFrame_frameWith hv hl (length_wire32 _ _), unwire32_wire32,
    if_neg (fun hne => hne rfl)]

/-- Settles O11: four bytes with one bit flipped are another word, which is not the checksum. -/
theorem checksumFieldFlipIsBadChecksum : Obligations.ChecksumFieldFlipIsBadChecksum := by
  intro c h pl i j hv hl hi hj
  rw [flip_frameEncode hl _ hi, decodeFrame_frameWith hv hl (List.length_set.trans (length_wire32 _ _)),
    if_pos (unwire32_flip_ne _ _ hi hj)]

end Sys2Proof.Machine
end

section
/-! SUPPORT. One poll of the deframer in terms of what the RX ring holds (42_deframer.md R180 to R188): each phase's poll
said from the contents of the ring, and the recovery of R302 after bytes have been consumed. -/

namespace Sys2Proof.Machine

/-! ## The RX ring -/

namespace Ring

variable {r : Ring} {cap : Nat}

/-- R66: taking exactly the front of the contents. -/
theorem take_of_append (h : r.ix.Wf cap) {xs rest : List Byte} (hc : r.contents = xs ++ rest) {n : Nat}
    (hn : xs.length = n) : (take n r).1 = xs ∧ (take n r).2.contents = rest := by
  have hle : n ≤ r.ix.dataLen := by
    rw [← length_contents, hc, List.length_append]; omega
  obtain ⟨h1, h2⟩ := take_spec n h hle
  exact ⟨by rw [h1, hc, List.take_left' hn], by rw [h2, hc, List.drop_left' hn]⟩

/-- R66: taking at least one byte. -/
theorem take_snd_of_pos {n : Nat} (hn : 1 ≤ n) (r : Ring) : (take n r).2 = consumed n r := by
  obtain ⟨k, rfl⟩ := Nat.exists_eq_add_of_le hn
  rw [Nat.add_comm 1 k]
  exact take_snd k r

/-- R64: RX_BYTE on the contents, full or not. -/
theorem contents_put (h : r.Wf cap) (b : Byte) :
    (r.put b).contents = (if r.ix.full then r.contents.tail else r.contents) ++ [b] := by
  cases hf : r.ix.full with
  | true => exact contents_put_of_full h hf b
  | false => exact contents_put_of_not_full h hf b

end Ring

theorem le_rxLen_of_append {s : State} {xs rest : List Byte} (hc : s.rx.contents = xs ++ rest) {n : Nat}
    (hn : xs.length = n) : n ≤ rxLen s := by
  rw [rxLen_eq, hc, List.length_append]; omega

/-! ## The polls, from the contents of the ring -/

/-- R66: consuming the front of what a ring holds. -/
theorem consumed_of_append {r : Ring} {cap n : Nat} (h : r.ix.Wf cap) (hn : 1 ≤ n) {xs rest : List Byte}
    (hc : r.contents = xs ++ rest) (hl : xs.length = n) :
    (Ring.take n r).1 = xs ∧ (consumed n r).contents = rest := by
  rw [← Ring.take_snd_of_pos hn]
  exact Ring.take_of_append h hc hl

theorem rxTaken_of_pos {n : Nat} (hn : 1 ≤ n) (s : State) : rxTaken n s = { s with rx := consumed n s.rx } := by
  rw [rxTaken, Ring.take_snd_of_pos hn]

section polls
variable {s : State} {cap : Nat}

/-- R182: a poll of WAIT_PREAMBLE takes the oldest byte. -/
theorem rxPoll_preamble_of_cons (hw : s.rx.Wf cap) (hs : s.rxState = .waitPreamble) {b : Byte} {rest : List Byte}
    (hc : s.rx.contents = b :: rest) :
    ∃ r, r = consumed 1 s.rx ∧ r.contents = rest ∧ rxPoll s = .ok (preambleStep b { s with rx := r }) := by
  obtain ⟨h1, h2⟩ := consumed_of_append (n := 1) (xs := [b]) hw.ix (by decide) hc rfl
  obtain ⟨b', hb', hpoll⟩ := pollPreamble_of_le (le_rxLen_of_append (xs := [b]) hc rfl)
  obtain rfl : b = b' := List.singleton_inj.mp (h1.symm.trans hb')
  rw [rxTaken_of_pos (by decide)] at hpoll
  exact ⟨_, rfl, h2, (rxPoll_waitPreamble hs).trans hpoll⟩

/-- R183: a poll of WAIT_HEADER takes the oldest four bytes as a header. -/
theorem rxPoll_header_of_cons (hw : s.rx.Wf cap) (hs : s.rxState = .waitHeader) (hr : s.rxTmr.raised = false)
    {q : Quad} {rest : List Byte} (hc : s.rx.contents = q.b0 :: q.b1 :: q.b2 :: q.b3 :: rest) :
    ∃ r, r = consumed 4 s.rx ∧ r.contents = rest ∧
      rxPoll s = .ok (headerStep (hdrUnpack s.cfg.wireOrder q) { s with rx := r }) := by
  obtain ⟨h1, h2⟩ := consumed_of_append (n := 4) (xs := [q.b0, q.b1, q.b2, q.b3]) hw.ix (by decide) hc rfl
  obtain ⟨b0, b1, b2, b3, hb, hpoll⟩ :=
    pollHeader_of_le hr (le_rxLen_of_append (xs := [q.b0, q.b1, q.b2, q.b3]) hc rfl)
  obtain ⟨rfl, rfl, rfl, rfl⟩ : b0 = q.b0 ∧ b1 = q.b1 ∧ b2 = q.b2 ∧ b3 = q.b3 := by
    have hq := hb.symm.trans h1
    simpa only [List.cons.injEq, and_true] using hq
  rw [rxTaken_of_pos (by decide)] at hpoll
  exact ⟨_, rfl, h2, (rxPoll_waitHeader hs).trans hpoll⟩

/-- R184: a poll of WAIT_PAYLOAD takes the oldest `len` bytes as the payload. -/
theorem rxPoll_payload_of_append (hw : s.rx.Wf cap) (hs : s.rxState = .waitPayload) (hr : s.rxTmr.raised = false)
    (h1 : 1 ≤ s.rxHdr.len.toNat) (hl : s.rxHdr.len.toNat ≤ maxPayload) {pl rest : List Byte}
    (hpl : pl.length = s.rxHdr.len.toNat) (hc : s.rx.contents = pl ++ rest) :
    ∃ r, r = consumed s.rxHdr.len.toNat s.rx ∧ r.contents = rest ∧
      rxPoll s = .ok (enterTrailer { s with rx := r, rxPl := Memory.writeBytes s.rxPl 0 pl }) := by
  obtain ⟨htaken, hrest⟩ := consumed_of_append hw.ix h1 hc hpl
  have hpoll := pollPayload_of_le hr hl (le_rxLen_of_append hc hpl)
  rw [htaken, rxTaken_of_pos h1] at hpoll
  exact ⟨_, rfl, hrest, (rxPoll_waitPayload hs).trans hpoll⟩

/-- R185: a poll of WAIT_CRC_POST takes the oldest eight bytes as checksum and postamble. -/
theorem rxPoll_trailer_of_append (hw : s.rx.Wf cap) (hs : s.rxState = .waitCrcPost) (hr : s.rxTmr.raised = false)
    (hl : s.rxHdr.len.toNat ≤ maxPayload) {sum post rest : List Byte} (hsum : sum.length = 4) (hpost : post.length = 4)
    (hc : s.rx.contents = sum ++ (post ++ rest)) :
    ∃ r, r = consumed 8 s.rx ∧ r.contents = rest ∧
      rxPoll s = .ok (trailerStep (frameChecksum s.cfg s.rxHdr (Memory.readBytes s.rxPl 0 s.rxHdr.len.toNat))
        (unwire32 s.cfg.wireOrder sum) (unwire32 s.cfg.wireOrder post) { s with rx := r }) := by
  have hlen : (sum ++ post).length = 8 := by rw [List.length_append, hsum, hpost]
  rw [← List.append_assoc] at hc
  obtain ⟨htaken, hrest⟩ := consumed_of_append hw.ix (by decide) hc hlen
  have hpoll := pollTrailer_of_le hr hl (le_rxLen_of_append hc hlen)
  rw [htaken, List.take_left' hsum, List.drop_left' hsum, rxTaken_of_pos (by decide)] at hpoll
  exact ⟨_, rfl, hrest, (rxPoll_waitCrcPost hs).trans hpoll⟩

end polls

/-! ## What a phase does with the bytes -/

theorem preambleStep_rx (b : Byte) (s : State) : (preambleStep b s).rx = s.rx := by
  rw [preambleStep_frame]

section trailer
variable {sum received post : U32} {s : State}

theorem trailerStep_of_badChecksum (h : received ≠ sum) :
    trailerStep sum received post s = rxFail .badChecksum s := if_pos h

theorem trailerStep_of_badPostamble (h : received = sum) (hp : post ≠ postamble) :
    trailerStep sum received post s = rxFail .badPostamble s := (if_neg (not_not.mpr h)).trans (if_pos hp)

theorem trailerStep_of_good (h : received = sum) (hp : post = postamble) :
    trailerStep sum received post s = enterReady (if isAckPkt s.cfg s.rxHdr then s else sendCtl s.cfg.ackType s) :=
  (if_neg (not_not.mpr h)).trans (if_neg (not_not.mpr hp))

/-- R185, R189: the acknowledgement of a good trailer: none for an ACK or NACK, else one ACK queued or counted. -/
theorem acknowledge_spec (s : State) :
    ∃ u, u = (if isAckPkt s.cfg s.rxHdr then s else sendCtl s.cfg.ackType s) ∧
      (isAckPkt s.cfg s.rxHdr = true → u.q = s.q ∧ u.dropCnt = s.dropCnt) ∧
      (isAckPkt s.cfg s.rxHdr = false → CtlSent s.cfg.ackType s u) ∧
      u = { s with q := u.q, dropCnt := u.dropCnt } := by
  cases isAckPkt s.cfg s.rxHdr with
  | true => exact ⟨s, rfl, fun _ => ⟨rfl, rfl⟩, Bool.noConfusion, rfl⟩
  | false =>
    exact ⟨sendCtl s.cfg.ackType s, rfl, Bool.noConfusion,
      fun _ => sendCtl_ctlSent s.cfg.ackType (u := s) rfl rfl rfl rfl rfl, rfl⟩

/-- R185, R187: holding a packet changes the queue, the drop counter, the state and the timer alone. -/
theorem enterReady_spec (s : State) :
    ∃ t, t = { enterReady (if isAckPkt s.cfg s.rxHdr then s else sendCtl s.cfg.ackType s) with result := .none } ∧
      (isAckPkt s.cfg s.rxHdr = true → t.q = s.q ∧ t.dropCnt = s.dropCnt) ∧
      (isAckPkt s.cfg s.rxHdr = false → CtlSent s.cfg.ackType s t) ∧
      t = { s with q := t.q, dropCnt := t.dropCnt, rxState := .packetReady, rxTmr := timerStop s.rxTmr,
                   result := .none } := by
  obtain ⟨u, hu, hack, hother, hframe⟩ := acknowledge_spec s
  rw [← hu]
  exact ⟨_, rfl, hack, fun ha => ⟨(hother ha).queued, (hother ha).dropped⟩,
    congrArg (fun v => { enterReady v with result := .none }) hframe⟩

end trailer

/-- R189: queueing a request reads the configuration, the queue and the drop counter alone. -/
theorem CtlSent.congr {ty : Byte} {s u t : State} (h : CtlSent ty u t) (hcfg : u.cfg = s.cfg) (hq : u.q = s.q)
    (hd : u.dropCnt = s.dropCnt) : CtlSent ty s t := by
  have hused : qUsed u = qUsed s := by rw [qUsed, qUsed, hcfg, hq]
  obtain ⟨hqueued, hdropped⟩ := h
  rw [hused, hcfg, hq, hd] at hqueued hdropped
  exact ⟨hqueued, hdropped⟩

/-- R302: a recovery that flushes leaves nothing of the bytes consumed before it. -/
theorem Recovered.of_consumed {e : Err} {n : Nat} {s t : State}
    (h : Recovered e true { s with rx := consumed n s.rx } t) : Recovered e true s t :=
  { h with kept := Bool.noConfusion, nack := h.nack.congr rfl rfl rfl }

/-- R302: after a recovery that flushes the RX ring holds nothing. -/
theorem Recovered.contents_nil {e : Err} {s t : State} (h : Recovered e true s t) : t.rx.contents = [] := by
  rw [h.flushed rfl]
  exact Ring.contents_clear s.rx

/-- R8: T_PAY of a length that is at most 256, under a legal configuration. -/
theorem tPay_getElem? {c : Config} (h : configOk c = true) {len : U16} (hl : len.toNat ≤ maxPayload) :
    c.tPay[len.toNat]? = some (payTimeout c len) := by
  simp only [configOk, timesOk, Bool.and_eq_true, decide_eq_true_eq] at h
  obtain ⟨⟨-, ⟨⟨⟨-, hlen⟩, -⟩, -⟩, -⟩, -⟩ := h
  have hlt : len.toNat < c.tPay.length := by omega
  rw [payTimeout, List.getD_eq_getElem?_getD, List.getElem?_eq_getElem hlt, Option.getD_some]

/-! ## The statements -/

/-- Settles O20: the indices and the storage of one put. -/
theorem rxByteAppendsOrOverwritesOldest : Obligations.RxByteAppendsOrOverwritesOldest :=
  fun b _ h => ⟨_, rfl, Ring.contents_put h.rx_wf b, rfl, Memory.read_write_same h.rx_wf.canonical _ b,
    fun _ ha => Memory.read_write_ne h.rx_wf.canonical b ha, rfl⟩

/-- Settles O24: the poll takes the oldest byte, and each branch of the preamble step is one of the three cases. -/
theorem preamblePollMatchesOneByte : Obligations.PreamblePollMatchesOneByte := by
  refine fun s h hs => ⟨fun hc => ?_, fun b rest hc => ?_⟩
  · have hlen : rxLen s = 0 := by rw [rxLen_eq, hc]; rfl
    exact exec_rxPoll_of ((rxPoll_waitPreamble hs).trans (pollPreamble_of_empty hlen))
  · obtain ⟨r, hr, hrest, hpoll⟩ := rxPoll_preamble_of_cons h.rx_wf hs hc
    have hrx := preambleStep_rx b { s with rx := r }
    refine ⟨_, exec_rxPoll_of hpoll, (congrArg Ring.contents hrx).trans hrest, hrx.trans hr, ?_, ?_, ?_⟩
    · intro hne
      rw [preambleStep_mismatch (s := { s with rx := r }) hne]
    · intro heq hlt
      have h3 : s.preIdx ≠ 3#2 := fun h3 => by rw [h3] at hlt; exact absurd hlt (by decide)
      rw [preambleStep_advance (s := { s with rx := r }) heq h3]
      refine ⟨?_, rfl⟩
      show (s.preIdx + 1).toNat = s.preIdx.toNat + 1
      rw [BitVec.toNat_add]
      exact Nat.mod_eq_of_lt (Nat.succ_lt_succ hlt)
    · intro heq h3
      rw [preambleStep_last (s := { s with rx := r }) heq (BitVec.eq_of_toNat_eq h3)]
      rfl

/-- Settles O25: the poll takes four bytes, and storing or rejecting the header is HDR_VALID's answer. -/
theorem headerPollStoresOrRejects : Obligations.HeaderPollStoresOrRejects := by
  refine fun s h hs hr => ⟨fun hc => ?_, fun b0 b1 b2 b3 rest hc hd hhd => ?_⟩
  · rw [← rxLen_eq] at hc
    exact exec_rxPoll_of ((rxPoll_waitHeader hs).trans (pollHeader_of_short hr hc))
  · obtain ⟨r, hrx, hrest, hpoll⟩ := rxPoll_header_of_cons (q := ⟨b0, b1, b2, b3⟩) h.rx_wf hs hr hc
    rw [← hhd] at hpoll
    refine ⟨_, exec_rxPoll_of hpoll, ?_, ?_, ?_⟩
    · intro hv h0
      have hlen : hd.len = 0 := BitVec.eq_of_toNat_eq h0
      rw [headerStep_valid (s := { s with rx := r }) hv, if_pos hlen]
      exact ⟨hrest, hrx, rfl⟩
    · intro hv h1
      have hlen : hd.len ≠ 0 := fun h0 => by rw [h0] at h1; exact absurd h1 (by decide)
      rw [headerStep_valid (s := { s with rx := r }) hv, if_neg hlen]
      exact ⟨hrest, hrx, _, tPay_getElem? h.config (len_le_of_hdrValid hv), rfl⟩
    · intro hv
      rw [headerStep_invalid (s := { s with rx := r }) hv, hrx]
      exact (rxFail_recovered_flush (by decide) (by decide) { s with rx := consumed 4 s.rx }).of_consumed

/-- Settles O3: HDR_VALID fails in the four cases of its tests, and the poll of an invalid header is the recovery. -/
theorem invalidHeadersAreExactlyTheListedOnes : Obligations.InvalidHeadersAreExactlyTheListedOnes := by
  refine ⟨fun h s => ⟨rfl, hdrValid_eq_false_iff⟩, fun b0 b1 b2 b3 rest s h hs hr hc hv => ?_⟩
  obtain ⟨t, ht, -, -, hbad⟩ := (headerPollStoresOrRejects s h hs hr).2 b0 b1 b2 b3 rest hc _ rfl
  have hrec := hbad hv
  exact ⟨t, ht, hrec.contents_nil, hrec.nack, hrec.state, hrec.index⟩

/-- Settles O26: the timeout is tested first, then the length; the payload written is read back. -/
theorem payloadPollMovesTheWholePayload : Obligations.PayloadPollMovesTheWholePayload := by
  refine fun s h hs => ⟨fun hr => ?_, fun hr hc => ?_, fun hr hc => ?_⟩
  · exact ⟨_, exec_rxPoll_of ((rxPoll_waitPayload hs).trans (pollPayload_of_raised hr)),
      rxFail_recovered_flush (by decide) (by decide) s⟩
  · rw [← rxLen_eq] at hc
    exact exec_rxPoll_of ((rxPoll_waitPayload hs).trans (pollPayload_of_short hr hc))
  · have hlen : (s.rx.contents.take s.rxHdr.len.toNat).length = s.rxHdr.len.toNat := List.length_take_of_le hc
    obtain ⟨r, hrx, hrest, hpoll⟩ := rxPoll_payload_of_append h.rx_wf hs hr (h.payload_nonempty hs)
      (h.rxHdr_len_le (hs ▸ rfl)) hlen (List.take_append_drop _ _).symm
    have hread := Memory.readBytes_writeBytes h.rxPl_wf.canonical 0 (s.rx.contents.take s.rxHdr.len.toNat)
    rw [hlen] at hread
    refine ⟨_, exec_rxPoll_of hpoll, hrest, hrx, hread, fun a ha => ?_, rfl⟩
    exact (Memory.read_writeBytes _ h.rxPl_wf.canonical 0 a).trans (if_neg (by omega))

/-- Settles O27: the poll takes eight bytes, and each branch of the trailer step is one of the three outcomes. -/
theorem trailerPollAcceptsOrRejects : Obligations.TrailerPollAcceptsOrRejects := by
  refine fun s h hs hr => ⟨fun hc => ?_, fun hc sum hsum => ?_⟩
  · rw [← rxLen_eq] at hc
    exact exec_rxPoll_of ((rxPoll_waitCrcPost hs).trans (pollTrailer_of_short hr hc))
  · have hsplit : s.rx.contents =
        s.rx.contents.take 4 ++ ((s.rx.contents.drop 4).take 4 ++ s.rx.contents.drop 8) := by
      rw [show 8 = 4 + 4 from rfl, ← List.drop_drop, List.take_append_drop, List.take_append_drop]
    have h1 : (s.rx.contents.take 4).length = 4 := List.length_take_of_le (by omega)
    have h2 : ((s.rx.contents.drop 4).take 4).length = 4 :=
      List.length_take_of_le (by rw [List.length_drop]; omega)
    obtain ⟨r, hrx, hrest, hpoll⟩ := rxPoll_trailer_of_append h.rx_wf hs hr (h.rxHdr_len_le (hs ▸ rfl)) h1 h2 hsplit
    rw [show frameChecksum s.cfg s.rxHdr (Memory.readBytes s.rxPl 0 s.rxHdr.len.toNat) = sum from hsum.symm] at hpoll
    refine ⟨_, r, exec_rxPoll_of hpoll, hrest, hrx, ?_, ?_, ?_⟩
    · intro hne
      rw [trailerStep_of_badChecksum hne]
      exact rxFail_recovered_trailer (.inl rfl) { s with rx := r }
    · intro heq hne
      rw [trailerStep_of_badPostamble heq hne]
      exact rxFail_recovered_trailer (.inr rfl) { s with rx := r }
    · intro heq hpost
      rw [trailerStep_of_good heq hpost]
      obtain ⟨t, ht, hack, hother, hframe⟩ := enterReady_spec { s with rx := r }
      rw [← ht]
      exact ⟨hack, fun ha => (hother ha).congr rfl rfl rfl, hframe⟩

/-- Settles O29: each timed phase tests its timer first, and the recovery's effect is the shared one. -/
theorem timedOutPhasesRecover : Obligations.TimedOutPhasesRecover := by
  refine fun s hr => ⟨fun hs => ?_, fun hs => ?_, fun hs => ?_⟩
  · exact ⟨_, exec_rxPoll_of ((rxPoll_waitHeader hs).trans (pollHeader_of_raised hr)), rfl,
      rxFail_recovered_flush (by decide) (by decide) s⟩
  · exact ⟨_, exec_rxPoll_of ((rxPoll_waitPayload hs).trans (pollPayload_of_raised hr)), rfl,
      rxFail_recovered_flush (by decide) (by decide) s⟩
  · exact ⟨_, exec_rxPoll_of ((rxPoll_waitCrcPost hs).trans (pollTrailer_of_raised hr)), rfl,
      rxFail_recovered_flush (by decide) (by decide) s⟩

theorem exec_rxRelease_of_ready {s : State} (hs : s.rxState = .packetReady) :
    exec .rxRelease s = .next { s with rxState := .waitPreamble, result := .none } := by
  rw [exec, execRxRelease, if_pos hs]
  rfl

theorem exec_rxRelease_of_not_ready {s : State} (hs : s.rxState ≠ .packetReady) :
    exec .rxRelease s = .next { s with result := .none } := by
  rw [exec, execRxRelease, if_neg hs]
  rfl

/-- R29: pkt_out is not valid outside PACKET_READY. -/
theorem pktOut_of_not_ready {s : State} (hs : s.rxState ≠ .packetReady) : pktOut s = none := if_neg hs

theorem pktOut_of_ready {s : State} (hs : s.rxState = .packetReady) :
    pktOut s = some (s.rxHdr, Memory.readBytes s.rxPl 0 s.rxHdr.len.toNat) := if_pos hs

/-- Settles O30: RX_RELEASE's two branches. -/
theorem rxReleaseFreesTheHeldPacket : Obligations.RxReleaseFreesTheHeldPacket :=
  fun _ => ⟨fun hs => ⟨exec_rxRelease_of_ready hs, pktOut_of_not_ready RxState.noConfusion⟩,
    exec_rxRelease_of_not_ready⟩

end Sys2Proof.Machine
end

section
/-! SUPPORT. Transmit Delivery (43_delivery.md R230 to R239): what an attempt leaves when its frame fits and when it does
not, and the two polls and the answers of the peer in terms of it. -/

namespace Sys2Proof.Machine

/-! ## The send attempt -/

/-- R232: an attempt reads the configuration, the TX ring and abort_cnt, and writes the TX ring and the status alone. -/
theorem Attempted.congr {h : Header} {pl : List Byte} {e : Byte} {s u t v : State} (ha : Attempted h pl e u v)
    (hcfg : u.cfg = s.cfg) (htx : u.tx = s.tx) (hn : u.abortCnt = s.abortCnt) (ht : v.tx = t.tx)
    (he : v.errCode = t.errCode) (hc : v.abortCnt = t.abortCnt) : Attempted h pl e s t := by
  obtain ⟨hsent, haborted, hstorage, hends⟩ := ha
  rw [hcfg, htx, hn, ht, he, hc] at hsent haborted
  rw [htx, ht] at hstorage hends
  exact ⟨hsent, haborted, hstorage, hends⟩

section attempt
variable {s : State} {cap : Nat}

/-- R232: an attempt whose frame fits. -/
theorem send_of_fits (h : s.tx.Wf cap) (hl : s.txReq.hdr.len.toNat ≤ maxPayload) {pl : List Byte}
    (hpl : pl = Memory.readBytes s.txReq.pl 0 s.txReq.hdr.len.toNat)
    (hfit : s.tx.ix.dataLen + (16 + pl.length) ≤ s.tx.ix.cap) :
    ∃ t, send s = .ok t ∧ t.tx.contents = s.tx.contents ++ frameEncode s.cfg s.txReq.hdr pl ∧
      t = { s with tx := t.tx } := by
  obtain ⟨t, ht, -, ha, hframe⟩ := send_spec h hl
  rw [← hpl] at ha
  obtain ⟨hc, he, hn⟩ := ha.sent hfit
  rw [he, hn] at hframe
  exact ⟨t, ht, hc, hframe⟩

/-- R233: an attempt whose frame does not fit. -/
theorem send_of_not_fits (h : s.tx.Wf cap) (hl : s.txReq.hdr.len.toNat ≤ maxPayload) {pl : List Byte}
    (hpl : pl = Memory.readBytes s.txReq.pl 0 s.txReq.hdr.len.toNat)
    (hfit : ¬ s.tx.ix.dataLen + (16 + pl.length) ≤ s.tx.ix.cap) :
    ∃ t, send s = .ok t ∧ Attempted s.txReq.hdr pl s.errCode s t ∧ t.errCode = 10 ∧
      t = { s with tx := t.tx, errCode := t.errCode, abortCnt := s.abortCnt + 1 } := by
  obtain ⟨t, ht, -, ha, hframe⟩ := send_spec h hl
  rw [← hpl] at ha
  obtain ⟨-, -, -, -, -, -, -, he, hn⟩ := ha.aborted hfit
  rw [hn] at hframe
  exact ⟨t, ht, ha, he, hframe⟩

end attempt

/-! ## The first attempt -/

/-- R236, R234: what the dequeue and the first attempt of the request `r` leave. -/
structure Dequeued (r : Request) (rest : List Request) (s t : State) : Prop where
  queue : t.q.reqs = rest
  origin : t.txReq.origin = r.origin
  ackReq : t.txReq.ackReq = r.ackReq
  hdr : t.txReq.hdr = r.hdr
  payload : Memory.readBytes t.txReq.pl 0 r.hdr.len.toNat = r.pl
  payload_rest : ∀ a, r.hdr.len.toNat ≤ a → Memory.read t.txReq.pl a = Memory.read s.txReq.pl a
  txState : t.txState = .transmitPacket
  txRetry : t.txRetry = 0
  txNoack : t.txNoack = !r.ackReq
  ackTmr : t.ackTmr = if r.ackReq then timerStart s.cfg.tAck else s.ackTmr
  attempt : Attempted r.hdr r.pl s.errCode s t
  frame : t = { s with q := t.q, txReq := t.txReq, txState := t.txState, txRetry := t.txRetry, txNoack := t.txNoack,
                       ackTmr := t.ackTmr, tx := t.tx, errCode := t.errCode, abortCnt := t.abortCnt, result := .none }

/-- R236: TX_POLL in POLL_PENDING with a request queued. -/
theorem exec_txPoll_dequeues {s : State} (h : s.Inv) (hs : s.txState = .pollPending) {r : Request}
    {rest : List Request} (hq : s.q.reqs = r :: rest) : ∃ t, exec .txPoll s = .next t ∧ Dequeued r rest s t := by
  have hp : isPacket r.hdr r.pl = true := h.q_wf.packets r (by rw [hq]; exact List.mem_cons_self)
  obtain ⟨hlen, hle⟩ := isPacket_iff.mp hp
  have hread := Memory.readBytes_writeBytes h.txPl_wf.canonical 0 r.pl
  rw [hlen] at hread
  obtain ⟨t, ht, -, ha, hframe⟩ := enterTransmit_spec
    (s := loadRequest r (Memory.writeBytes s.txReq.pl 0 r.pl) (qDrop r s)) h.tx_wf hle
  rw [loadRequest_txReq, hread] at ha
  refine ⟨_, exec_txPoll_of ((txPoll_of_cons hs hq hp).trans ht), ?_⟩
  have ha' : Attempted r.hdr r.pl s.errCode s t := ha.congr rfl rfl rfl rfl rfl rfl
  clear ha ht
  generalize t.tx = tx', t.errCode = e', t.abortCnt = n' at hframe
  subst hframe
  exact {
    queue := congrArg List.tail hq
    origin := rfl
    ackReq := rfl
    hdr := rfl
    payload := hread
    payload_rest := fun a hge => (Memory.read_writeBytes r.pl h.txPl_wf.canonical 0 a).trans (if_neg (by omega))
    txState := rfl
    txRetry := rfl
    txNoack := rfl
    ackTmr := rfl
    attempt := ha'.congr rfl rfl rfl rfl rfl rfl
    frame := rfl }

/-! ## Another attempt -/

/-- R235: what a resend for the condition `e` leaves, with the retry counter at `n`. -/
structure Resent (e : Err) (n : U32) (s t : State) : Prop where
  txRetry : t.txRetry = n
  attempt : Attempted s.txReq.hdr (Memory.readBytes s.txReq.pl 0 s.txReq.hdr.len.toNat) e.code s t
  txNoack : t.txNoack = !s.txReq.ackReq
  ackTmr : s.txReq.ackReq = true → t.ackTmr = timerStart s.cfg.tAck
  frame : t = { s with txRetry := t.txRetry, txNoack := t.txNoack, ackTmr := t.ackTmr, tx := t.tx,
                       errCode := t.errCode, abortCnt := t.abortCnt, result := .none }

/-- R235: a resend while a request is in flight. -/
theorem resend_resent {s : State} (h : s.Inv) (hs : s.txState = .transmitPacket) (e : Err) (n : U32) :
    ∃ t, resend e { s with txRetry := n } = .ok t ∧ Resent e n s { t with result := .none } := by
  obtain ⟨t, ht, -, ha, hframe⟩ := resend_spec (s := { s with txRetry := n }) e h.tx_wf (h.request_len hs)
  refine ⟨t, ht, ?_⟩
  have ha' : Attempted s.txReq.hdr (Memory.readBytes s.txReq.pl 0 s.txReq.hdr.len.toNat) e.code s t :=
    ha.congr rfl rfl rfl rfl rfl rfl
  clear ha ht
  generalize t.tx = tx', t.errCode = e', t.abortCnt = n' at hframe
  subst hframe
  exact {
    txRetry := rfl
    attempt := ha'.congr rfl rfl rfl rfl rfl rfl
    txNoack := rfl
    ackTmr := fun hack => if_pos hack
    frame := by rw [← hs] }

/-! ## The retry counter -/

theorem maxRetries_lt_succ {c : Config} (h : configOk c = true) : c.maxRetries < c.maxRetries + 1 := by
  simp only [configOk, timesOk, Bool.and_eq_true, decide_eq_true_eq] at h
  obtain ⟨⟨-, -, hmax⟩, -⟩ := h
  rw [BitVec.lt_def, BitVec.toNat_add]
  show c.maxRetries.toNat < (c.maxRetries.toNat + 1) % 2 ^ 32
  omega

theorem toNat_succ_of_lt {n m : U32} (h : n < m) : (n + 1).toNat = n.toNat + 1 := by
  rw [BitVec.lt_def] at h
  have := m.isLt
  rw [BitVec.toNat_add]
  show (n.toNat + 1) % 2 ^ 32 = n.toNat + 1
  omega

theorem not_lt_succ_of_lt {n m : U32} (h : n < m) : ¬ m < n + 1 := by
  have hs := toNat_succ_of_lt h
  rw [BitVec.lt_def] at h ⊢
  omega

section retry
variable {s : State}

/-- R236, R238: one more retry after MAX_RETRIES are used up abandons the request. -/
theorem retryOrAbandon_of_used_up (h : s.Inv) (hn : s.txRetry = s.cfg.maxRetries) (e : Err) :
    retryOrAbandon e (countRetry s) = .ok (abandonRequest (countRetry s)) := by
  refine if_pos ?_
  rw [countRetry_cfg, countRetry_txRetry, hn]
  exact maxRetries_lt_succ h.config

theorem retryOrAbandon_of_lt (hn : s.txRetry < s.cfg.maxRetries) (e : Err) :
    retryOrAbandon e (countRetry s) = resend e { s with txRetry := s.txRetry + 1 } := if_neg (not_lt_succ_of_lt hn)

theorem nackStep_of_counts (hc : s.cfg.nackCountsRetry = true) :
    nackStep s = retryOrAbandon .nackReceived (countRetry s) := if_pos hc

theorem nackStep_of_not_counts (hc : s.cfg.nackCountsRetry = false) : nackStep s = resend .nackReceived s :=
  if_neg (by rw [hc]; exact Bool.false_ne_true)

/-- R236: TX_POLL after the ack timer has fired, with retries left. -/
theorem exec_txPoll_resends (h : s.Inv) (hs : s.txState = .transmitPacket) (hn : s.txNoack = false)
    (hr : s.ackTmr.raised = true) (hlt : s.txRetry < s.cfg.maxRetries) :
    ∃ t, exec .txPoll s = .next t ∧ Resent .ackTimeout (s.txRetry + 1) s t := by
  obtain ⟨t, ht, hres⟩ := resend_resent h hs .ackTimeout (s.txRetry + 1)
  exact ⟨_, exec_txPoll_of ((txPoll_transmitPacket hs).trans ((pollTransmit_of_raised hn hr).trans
    ((retryOrAbandon_of_lt hlt _).trans ht))), hres⟩

/-- R236, R238: what a counted retry that abandons the request writes. -/
theorem abandonRequest_countRetry (s : State) :
    abandonRequest (countRetry s) =
      { s with txState := .pollPending, txRetry := s.txRetry + 1, errCode := 9, abandonCnt := s.abandonCnt + 1,
               ackTmr := timerStop s.ackTmr } := by
  simp only [abandonRequest, completeRequest, exitTransmit, countRetry, Err.code]

/-- R236: TX_POLL after the ack timer has fired, with MAX_RETRIES used up. -/
theorem exec_txPoll_abandons (h : s.Inv) (hs : s.txState = .transmitPacket) (hn : s.txNoack = false)
    (hr : s.ackTmr.raised = true) (hmax : s.txRetry = s.cfg.maxRetries) :
    exec .txPoll s = .next { s with txState := .pollPending, txRetry := s.txRetry + 1, errCode := 9,
                                    abandonCnt := s.abandonCnt + 1, result := .none,
                                    ackTmr := { rem := s.ackTmr.rem, active := false, raised := false } } := by
  have hpoll : txPoll s = .ok (abandonRequest (countRetry s)) :=
    (txPoll_transmitPacket hs).trans ((pollTransmit_of_raised hn hr).trans (retryOrAbandon_of_used_up h hmax _))
  rw [exec_txPoll_of hpoll, abandonRequest_countRetry]
  rfl

/-- R238: NACK_IN that abandons. -/
theorem exec_nackIn_abandons (h : s.Inv) (hs : s.txState = .transmitPacket) (hn : s.txNoack = false)
    (hc : s.cfg.nackCountsRetry = true) (hmax : s.txRetry = s.cfg.maxRetries) :
    exec .nackIn s = .next { s with txState := .pollPending, txRetry := s.txRetry + 1, errCode := 9,
                                    abandonCnt := s.abandonCnt + 1, result := .none,
                                    ackTmr := { rem := s.ackTmr.rem, active := false, raised := false } } := by
  rw [exec_nackIn_of_step hs hn, nackStep_of_counts hc, retryOrAbandon_of_used_up h hmax, abandonRequest_countRetry]
  rfl

/-- R238: NACK_IN that resends. -/
theorem exec_nackIn_resends (h : s.Inv) (hs : s.txState = .transmitPacket) (hn : s.txNoack = false)
    (hlt : s.cfg.nackCountsRetry = false ∨ s.txRetry < s.cfg.maxRetries) :
    ∃ t, exec .nackIn s = .next t ∧
      Resent .nackReceived (if s.cfg.nackCountsRetry then s.txRetry + 1 else s.txRetry) s t := by
  rw [exec_nackIn_of_step hs hn]
  cases hc : s.cfg.nackCountsRetry with
  | true =>
    obtain ⟨t, ht, hres⟩ := resend_resent h hs .nackReceived (s.txRetry + 1)
    have hlt' := hlt.resolve_left (by rw [hc]; exact Bool.noConfusion)
    rw [nackStep_of_counts hc, retryOrAbandon_of_lt hlt', ht]
    exact ⟨_, rfl, hres⟩
  | false =>
    obtain ⟨t, ht, hres⟩ := resend_resent h hs .nackReceived s.txRetry
    rw [nackStep_of_not_counts hc, show resend .nackReceived s = .ok t from ht]
    exact ⟨_, rfl, hres⟩

end retry

/-! ## The TX ring's drain -/

/-- R71: the oldest byte of the TX ring. -/
theorem txOldest_of_cons {s : State} {cap : Nat} (h : s.tx.Wf cap) {b : Byte} {rest : List Byte}
    (hc : s.tx.contents = b :: rest) :
    txLen s ≠ 0 ∧ txOldest s = b ∧ (txPop s).tx.contents = rest := by
  have hlen : txLen s = rest.length + 1 := by rw [txLen_eq, hc, List.length_cons]
  have hcons := Ring.contents_cons h.ix (show 1 ≤ txLen s by omega)
  rw [hc, List.cons.injEq] at hcons
  exact ⟨by omega, hcons.1.symm, hcons.2.symm⟩

theorem exec_ackIn_of_transmitPacket {s : State} (hs : s.txState = .transmitPacket) :
    exec .ackIn s = .next { completeRequest s with result := .none } := by
  rw [exec, execAckIn, if_pos hs]
  rfl

theorem exec_ackIn_of_pollPending {s : State} (hs : s.txState = .pollPending) :
    exec .ackIn s = .next { s with result := .none } := by
  rw [exec, execAckIn, if_neg (by rw [hs]; exact TxState.noConfusion)]
  rfl

/-! ## The statements -/

/-- Settles O31: the attempt's fields, joined, are the frame. -/
theorem sendAppendsExactlyTheFrame : Obligations.SendAppendsExactlyTheFrame :=
  fun _ h hl _ hpl hfit => send_of_fits h hl hpl hfit

/-- Settles O32: the attempt stops at the first field that does not fit. -/
theorem abortedAttemptLeavesWholeFields : Obligations.AbortedAttemptLeavesWholeFields :=
  fun _ h hl _ hpl hfit => send_of_not_fits h hl hpl hfit

/-- Settles O33: the dequeue loads the request and enters TRANSMIT_PACKET, which makes one attempt. -/
theorem txPollSendsTheOldestRequest : Obligations.TxPollSendsTheOldestRequest := by
  refine fun s h hs => ⟨fun hq => exec_txPoll_of (txPoll_of_nil hs hq), fun r rest hq => ?_⟩
  obtain ⟨t, ht, hd⟩ := exec_txPoll_dequeues h hs hq
  exact ⟨t, ht, hd.queue, hd.origin, hd.ackReq, hd.hdr, hd.payload, hd.payload_rest, hd.txState, hd.txRetry,
    hd.txNoack, hd.ackTmr, hd.attempt, hd.frame⟩

/-- Settles O34: the branches of the poll of a request in flight. -/
theorem txPollCompletesRetriesOrAbandons : Obligations.TxPollCompletesRetriesOrAbandons := by
  refine fun s h hs => ⟨fun hn => ?_, fun hn hr => ?_, exec_txPoll_abandons h hs, fun hn hr hlt => ?_⟩
  · exact exec_txPoll_of ((txPoll_transmitPacket hs).trans (pollTransmit_of_noack hn))
  · exact exec_txPoll_of ((txPoll_transmitPacket hs).trans (pollTransmit_of_waiting hn hr))
  · obtain ⟨t, ht, hres⟩ := exec_txPoll_resends h hs hn hr hlt
    exact ⟨t, ht, by rw [hres.txRetry, toNat_succ_of_lt hlt], hres.attempt, hres.txNoack, hres.ackTmr, hres.frame⟩

/-- Settles O35: ACK_IN's two branches. -/
theorem ackInCompletesTheRequest : Obligations.AckInCompletesTheRequest :=
  fun _ => ⟨exec_ackIn_of_transmitPacket, exec_ackIn_of_pollPending⟩

/-- Settles O36: NACK_IN is ignored, or counts a retry when NACKs count and then abandons or resends. -/
theorem nackInResendsOrAbandons : Obligations.NackInResendsOrAbandons := by
  refine fun s h => ⟨fun hi => exec_nackIn_of_ignored (hi.imp_left fun hp => by rw [hp]; exact TxState.noConfusion),
    fun hs hn hc hmax => exec_nackIn_abandons h hs hn hc hmax, fun hs hn hlt => ?_⟩
  obtain ⟨t, ht, hres⟩ := exec_nackIn_resends h hs hn hlt
  refine ⟨t, ht, ?_, hres.attempt, hres.txNoack, hres.ackTmr, hres.frame⟩
  rw [hres.txRetry]
  cases hc : s.cfg.nackCountsRetry with
  | true => exact toNat_succ_of_lt (hlt.resolve_left (by rw [hc]; exact Bool.noConfusion))
  | false => rfl

/-- Settles O37: the head of the ring's contents is the byte at the tail. -/
theorem txDrainMovesOneByteToTheLine : Obligations.TxDrainMovesOneByteToTheLine := by
  refine fun s h => ⟨fun hc => exec_txDrain_of_empty (by rw [txLen_eq, hc]; rfl), fun b rest hc => ?_⟩
  obtain ⟨hne, rfl, hrest⟩ := txOldest_of_cons h.tx_wf hc
  exact ⟨_, exec_txDrain_of_ne hne, hrest, rfl, rfl, rfl⟩

/-- Settles O21: TX_ENQUEUE of a packet is QWrite, whose answer is the fit test. -/
theorem txEnqueueAppendsWhenItFits : Obligations.TxEnqueueAppendsWhenItFits := by
  intro o a h pl s hl hle
  refine ⟨_, qFits ⟨o, a, h, pl⟩ s, exec_txEnqueue_of_isPacket (isPacket_iff.mpr ⟨hl, hle⟩), qFits_iff, fun hf => ?_,
    fun hf => ?_, rfl⟩
  · show (qWrite _ s).q.reqs = _
    rw [qWrite_q, if_pos hf]
  · show (qWrite _ s).q = _
    rw [qWrite_q, hf]
    rfl

end Sys2Proof.Machine
end

section
/-! SUPPORT. Construction and RESET (00_scope.md R8, 10_state.md R45, 70_reset_and_hazards.md R340 to R342): each part of
the test of a configuration is the constraint it stands for, and the values R45 states. -/

namespace Sys2Proof.Machine

theorem one_le_iff {x : U32} : 1#32 ≤ x ↔ 1 ≤ x.toNat := by
  rw [BitVec.le_def]; rfl

/-- R8: each value at least 1. -/
theorem allPositive_iff : ∀ {l : List U32}, allPositive l = true ↔ ∀ n ∈ l, 1 ≤ n.toNat
  | [] => by simp [allPositive]
  | x :: l => by
    rw [allPositive, Bool.and_eq_true, decide_eq_true_eq, one_le_iff, allPositive_iff, List.forall_mem_cons]

/-- R8: non-decreasing, from each value to the next. -/
theorem nonDecreasing_iff_isChain : ∀ {l : List U32}, nonDecreasing l = true ↔ l.IsChain (·.toNat ≤ ·.toNat)
  | [] => by simp [nonDecreasing]
  | [x] => by simp [nonDecreasing]
  | x :: y :: l => by
    rw [nonDecreasing, Bool.and_eq_true, decide_eq_true_eq, nonDecreasing_iff_isChain, List.isChain_cons_cons,
      BitVec.le_def]

/-- R8: non-decreasing, from each value to every later one. -/
theorem nonDecreasing_iff {l : List U32} {n : Nat} (hl : l.length = n + 1) :
    nonDecreasing l = true ↔ ∀ i j, i ≤ j → j ≤ n → (l.getD i 0).toNat ≤ (l.getD j 0).toNat := by
  have htrans : IsTrans U32 (·.toNat ≤ ·.toNat) := ⟨fun _ _ _ => Nat.le_trans⟩
  rw [nonDecreasing_iff_isChain, List.isChain_iff_pairwise, List.pairwise_iff_getElem]
  constructor
  · intro h i j hij hj
    rcases Nat.eq_or_lt_of_le hij with rfl | hlt
    · exact Nat.le_refl _
    · rw [List.getD_eq_getElem l 0 (by omega), List.getD_eq_getElem l 0 (by omega)]
      exact h i j (by omega) (by omega) hlt
  · intro h i j hi hj hlt
    rw [← List.getD_eq_getElem l 0 hi, ← List.getD_eq_getElem l 0 hj]
    exact h i j (Nat.le_of_lt hlt) (by omega)

section config
variable {c : Config}

/-- R8: the type-code part of the constraints. -/
theorem codesOk_iff :
    codesOk c = true ↔
      (∀ t, ¬ (inRange c.cmdRange t = true ∧ inRange c.evtRange t = true)) ∧
      (∀ t, ¬ (inRange c.cmdRange t = true ∧ inRange c.rspRange t = true)) ∧
      (∀ t, ¬ (inRange c.evtRange t = true ∧ inRange c.rspRange t = true)) ∧
      inRange c.rspRange c.ackType = true ∧ inRange c.rspRange c.nackType = true ∧ c.ackType ≠ c.nackType := by
  simp only [codesOk, Bool.and_eq_true, rangesDisjoint_iff, decide_eq_true_eq, and_assoc]

/-- R8: RSP is legal for the direction TX_DIR names. -/
theorem dirsOk_iff :
    dirsOk c = true ↔ c.dirH2T ≠ c.dirT2H ∧
      (c.txDir = c.dirH2T ∧ c.legalH2T.rsp = true ∨ c.txDir = c.dirT2H ∧ c.legalT2H.rsp = true) := by
  rw [dirsOk, Bool.and_eq_true, decide_eq_true_eq]
  refine and_congr_right fun hne => ?_
  unfold legalFor
  split_ifs with h1 h2
  · simp only [h1, true_and, hne, false_and, or_false]
  · simp only [h2, true_and, hne.symm, false_and, false_or]
  · simp only [h1, h2, false_and, or_false]

/-- R8: the timeout and retry part. -/
theorem timesOk_iff :
    timesOk c = true ↔
      1 ≤ c.tHdr.toNat ∧ 1 ≤ c.tCrc.toNat ∧ 1 ≤ c.tAck.toNat ∧ c.tPay.length = 257 ∧
      (∀ n ∈ c.tPay, 1 ≤ n.toNat) ∧
      (∀ i j, i ≤ j → j ≤ 256 → (c.tPay.getD i 0).toNat ≤ (c.tPay.getD j 0).toNat) ∧
      c.maxRetries.toNat ≤ 2 ^ 32 - 2 := by
  simp only [timesOk, Bool.and_eq_true, decide_eq_true_eq, one_le_iff, allPositive_iff, and_assoc]
  refine and_congr_right fun _ => and_congr_right fun _ => and_congr_right fun _ => and_congr_right fun hl =>
    and_congr_right fun _ => ?_
  rw [nonDecreasing_iff hl]
  rfl

/-- R8: the capacity part. -/
theorem capsOk_iff : capsOk c = true ↔ 1 ≤ c.rxCap.toNat ∧ 1 ≤ c.txCap.toNat ∧ 1 ≤ c.txqCap.toNat := by
  simp only [capsOk, Bool.and_eq_true, decide_eq_true_eq, one_le_iff, and_assoc]

theorem configOk_iff : configOk c = true ↔ codesOk c = true ∧ dirsOk c = true ∧ timesOk c = true ∧ capsOk c = true := by
  simp only [configOk, Bool.and_eq_true, and_assoc]

theorem ready_constructed (h : configOk c = true) : (State.constructed c).ready = true := ready_iff.mpr ⟨rfl, h⟩

end config

/-! ## The statements -/

/-- Settles O17: the test is the conjunction of R8's constraints, and construction is by that test. -/
theorem constructionGivesTheResetState : Obligations.ConstructionGivesTheResetState := by
  refine fun c => ⟨?_, fun h => if_neg (by rw [h]; exact Bool.false_ne_true), fun h => ?_⟩
  · rw [configOk_iff, codesOk_iff, dirsOk_iff, timesOk_iff, capsOk_iff]
    simp only [and_assoc]
  · exact ⟨State.constructed c, if_pos h, rfl, ready_constructed h, rfl, rfl, rfl, rfl, rfl, rfl, rfl, rfl, rfl, rfl,
      rfl, rfl, rfl, rfl, rfl⟩

/-- Settles O16: RESET writes the values of R45 one by one, and a ring just initialised holds nothing. -/
theorem resetGivesEveryStatedValue : Obligations.ResetGivesEveryStatedValue :=
  fun _ => ⟨_, rfl, rfl, rfl, rfl, rfl, rfl, rfl, rfl, rfl, Ring.contents_init _ _, rfl, Ring.contents_init _ _, rfl, rfl,
    rfl, rfl, rfl, rfl, rfl, rfl, rfl, rfl, rfl⟩

end Sys2Proof.Machine
end

section
/-! SUPPORT. Time events (44_timers.md R270 to R273): what one tick does, and what `k` ticks do. -/

namespace Sys2Proof.Machine

section tick
variable {e : TimeEvent}

/-- R272: a running event with at most one tick left fires. -/
theorem timerTick_fires (ha : e.active = true) (hr : e.rem.toNat ≤ 1) :
    timerTick e = { rem := 0, active := false, raised := true } := by
  have hle : e.rem ≤ 1#32 := BitVec.le_def.mpr hr
  rw [timerTick, ha, if_neg (by decide), if_pos hle]

/-- R272: a running event with more ticks left counts down. -/
theorem timerTick_counts (ha : e.active = true) (hr : 2 ≤ e.rem.toNat) :
    (timerTick e).rem.toNat = e.rem.toNat - 1 ∧ (timerTick e).active = true ∧
      (timerTick e).raised = e.raised := by
  have hle : ¬ e.rem ≤ 1#32 := fun h => absurd (BitVec.le_def.mp h) (Nat.not_le.mpr hr)
  rw [timerTick, ha, if_neg (by decide), if_neg hle]
  refine ⟨?_, rfl, rfl⟩
  have hlt := e.rem.isLt
  show (e.rem - 1#32).toNat = _
  rw [BitVec.toNat_sub]
  show (2 ^ 32 - 1 + e.rem.toNat) % 2 ^ 32 = e.rem.toNat - 1
  omega

end tick

/-- R272: before the n-th tick the event counts. -/
theorem iterate_timerTick_of_lt {n : U32} : ∀ {k : Nat}, k < n.toNat →
    ((timerTick^[k]) (timerStart n)).rem.toNat = n.toNat - k ∧
    ((timerTick^[k]) (timerStart n)).active = true ∧ ((timerTick^[k]) (timerStart n)).raised = false
  | 0, _ => ⟨rfl, rfl, rfl⟩
  | k + 1, hk => by
    obtain ⟨hrem, hactive, hraised⟩ := iterate_timerTick_of_lt (n := n) (k := k) (by omega)
    obtain ⟨h1, h2, h3⟩ := timerTick_counts hactive (by omega)
    rw [Function.iterate_succ_apply']
    exact ⟨by rw [h1, hrem]; omega, h2, h3.trans hraised⟩

/-- R272, D17: the event fires at the n-th tick, one started with 0 at the first. -/
theorem iterate_timerTick_max (n : U32) :
    (timerTick^[max 1 n.toNat]) (timerStart n) = { rem := 0, active := false, raised := true } := by
  by_cases h0 : n.toNat = 0
  · rw [h0]
    exact timerTick_fires (e := timerStart n) rfl (by rw [timerStart, h0]; omega)
  · obtain ⟨hrem, hactive, -⟩ := iterate_timerTick_of_lt (n := n) (k := n.toNat - 1) (by omega)
    rw [show max 1 n.toNat = (n.toNat - 1) + 1 by omega, Function.iterate_succ_apply']
    exact timerTick_fires hactive (by omega)

/-- R272: an event that has fired stays as it is. -/
theorem iterate_timerTick_of_le {n : U32} {k : Nat} (h1 : 1 ≤ k) (hk : n.toNat ≤ k) :
    (timerTick^[k]) (timerStart n) = { rem := 0, active := false, raised := true } := by
  obtain ⟨m, hm⟩ := Nat.exists_eq_add_of_le (Nat.max_le.mpr ⟨h1, hk⟩)
  rw [hm, Nat.add_comm, Function.iterate_add_apply, iterate_timerTick_max]
  exact Function.iterate_fixed rfl m

/-! ## The statements -/

/-- Settles O38: TICK ticks each event by itself, with the three cases of one tick. -/
theorem tickCountsBothTimeEvents : Obligations.TickCountsBothTimeEvents := by
  refine fun s => ⟨_, rfl, rfl, fun old new h => ?_⟩
  obtain rfl : new = timerTick old := by rcases h with ⟨rfl, rfl⟩ | ⟨rfl, rfl⟩ <;> rfl
  exact ⟨timerTick_of_inactive, timerTick_fires, timerTick_counts⟩

/-- Settles O39: induction over the ticks before the n-th, and the fired event is a fixed point. -/
theorem timerFiresAtExactlyTheNthTick : Obligations.TimerFiresAtExactlyTheNthTick :=
  fun _ _ => ⟨iterate_timerTick_of_lt, iterate_timerTick_of_le⟩

end Sys2Proof.Machine
end

section
/-! SUPPORT. A whole frame through the deframer (42_deframer.md R190): the polls that take its preamble, header and
payload hold no packet and touch nothing outside the deframer, and the poll of its trailer decides. -/

namespace Sys2Proof.Machine

/-! ## Sequences of polls -/

/-- `n` polls lead from `s` to `t`, and no state from `s` to `t` holds a packet. -/
inductive QuietPolls : Nat → State → State → Prop where
  | refl {s : State} (h : s.rxState ≠ .packetReady) : QuietPolls 0 s s
  | step {n : Nat} {s u t : State} (h : s.rxState ≠ .packetReady) (he : exec .rxPoll s = .next u)
      (hq : QuietPolls n u t) : QuietPolls (n + 1) s t

/-- R118: a poll and then `n` more. -/
theorem execAll_rxPolls_succ {s u : State} (n : Nat) (he : exec .rxPoll s = .next u) :
    execAll (rxPolls (n + 1)) s = execAll (rxPolls n) u := by
  show (match exec .rxPoll s with
    | .next t => execAll (rxPolls n) t
    | .fault f => .fault f
    | .refused r => .refused r) = _
  rw [he]

theorem QuietPolls.single {s u : State} (h : s.rxState ≠ .packetReady) (he : exec .rxPoll s = .next u)
    (hu : u.rxState ≠ .packetReady) : QuietPolls 1 s u := .step h he (.refl hu)

theorem QuietPolls.trans {m n : Nat} {s u t : State} (h1 : QuietPolls m s u) (h2 : QuietPolls n u t) :
    QuietPolls (m + n) s t := by
  induction h1 with
  | refl _ => rwa [Nat.zero_add]
  | step h he _ ih => rw [Nat.add_right_comm]; exact .step h he (ih h2)

theorem QuietPolls.execAll {m n : Nat} {s u : State} (h : QuietPolls m s u) :
    execAll (rxPolls (m + n)) s = execAll (rxPolls n) u := by
  induction h with
  | refl _ => rw [Nat.zero_add]
  | step _ he _ ih => rw [Nat.add_right_comm, execAll_rxPolls_succ _ he, ih]

/-- R29: no state on the way shows a packet. -/
theorem QuietPolls.pktOut_eq_none {n k : Nat} {s t u : State} (h : QuietPolls n s t) (hk : k ≤ n)
    (hu : Machine.execAll (rxPolls k) s = .next u) : pktOut u = none := by
  induction h generalizing k with
  | refl h =>
    obtain rfl : k = 0 := Nat.le_zero.mp hk
    cases hu
    exact pktOut_of_not_ready h
  | step h he _ ih =>
    cases k with
    | zero => cases hu; exact pktOut_of_not_ready h
    | succ k =>
      rw [execAll_rxPolls_succ k he] at hu
      exact ih (Nat.le_of_succ_le_succ hk) hu

/-- R187: `t` is `s` but for the deframer's registers, the RX ring and the answer. -/
def OnlyDeframed (s t : State) : Prop :=
  t = { s with rx := t.rx, rxState := t.rxState, preIdx := t.preIdx, rxHdr := t.rxHdr, rxPl := t.rxPl,
               rxTmr := t.rxTmr, result := t.result }

theorem OnlyDeframed.trans {s t u : State} (h1 : OnlyDeframed s t) (h2 : OnlyDeframed t u) : OnlyDeframed s u := by
  unfold OnlyDeframed at *
  rw [h1] at h2
  exact h2

section fields
variable {s t : State}

theorem OnlyDeframed.cfg (h : OnlyDeframed s t) : t.cfg = s.cfg := by rw [h]
theorem OnlyDeframed.q (h : OnlyDeframed s t) : t.q = s.q := by rw [h]
theorem OnlyDeframed.dropCnt (h : OnlyDeframed s t) : t.dropCnt = s.dropCnt := by rw [h]
theorem OnlyDeframed.errCode (h : OnlyDeframed s t) : t.errCode = s.errCode := by rw [h]
theorem OnlyDeframed.rxOverrun (h : OnlyDeframed s t) : t.rxOverrun = s.rxOverrun := by rw [h]

end fields

/-! ## The phases of a frame -/

/-- R182: from WAIT_PREAMBLE the remaining bytes of the preamble lead to WAIT_HEADER. -/
theorem polls_preamble (n : Nat) : ∀ {s : State} {rest : List Byte}, s.Inv → s.rxState = .waitPreamble →
    s.preIdx.toNat + n = 3 → s.rx.contents = (wire32 s.cfg.wireOrder preamble).drop s.preIdx.toNat ++ rest →
    ∃ u, QuietPolls (n + 1) s u ∧ u.Inv ∧ OnlyDeframed s u ∧ u.rxState = .waitHeader ∧ u.rxTmr.raised = false ∧
      u.rx.contents = rest := by
  induction n with
  | zero =>
    intro s rest h hs hi hc
    have hlt : s.preIdx.toNat < (wire32 s.cfg.wireOrder preamble).length := by rw [length_wire32]; omega
    rw [List.drop_eq_getElem_cons hlt, ← List.getD_eq_getElem _ 0 hlt, List.cons_append,
      List.drop_eq_nil_of_le (by rw [length_wire32]; omega), List.nil_append] at hc
    obtain ⟨u, hu, hrest, -, -, -, hlast⟩ := (preamblePollMatchesOneByte s h hs).2 _ _ hc
    have hframe := hlast rfl hi
    have hst : u.rxState = .waitHeader := by rw [hframe]
    refine ⟨u, .single (by rw [hs]; exact RxState.noConfusion) hu (by rw [hst]; exact RxState.noConfusion), inv_exec h hu,
      ?_, hst, by rw [hframe], hrest⟩
    rw [OnlyDeframed, hframe]
  | succ n ih =>
    intro s rest h hs hi hc
    have hlt : s.preIdx.toNat < (wire32 s.cfg.wireOrder preamble).length := by rw [length_wire32]; omega
    rw [List.drop_eq_getElem_cons hlt, ← List.getD_eq_getElem _ 0 hlt, List.cons_append] at hc
    obtain ⟨v, hv, hrest, -, -, hadv, -⟩ := (preamblePollMatchesOneByte s h hs).2 _ _ hc
    obtain ⟨hidx, hframe⟩ := hadv rfl (by omega)
    have honly : OnlyDeframed s v := by rw [OnlyDeframed, hframe]
    have hst : v.rxState = .waitPreamble := by rw [hframe]; exact hs
    rw [← hidx, ← honly.cfg] at hrest
    obtain ⟨u, hquiet, hinv, honly', hu⟩ := ih (inv_exec h hv) hst (by omega) hrest
    exact ⟨u, .step (by rw [hs]; exact RxState.noConfusion) hv hquiet, hinv, honly.trans honly', hu⟩

/-- R185, R190: the deframer waits for the trailer of the frame of `h` and `pl`; the RX ring holds `bytes`. -/
structure AtTrailer (h : Header) (pl bytes : List Byte) (s u : State) : Prop where
  inv : u.Inv
  only : OnlyDeframed s u
  state : u.rxState = .waitCrcPost
  waiting : u.rxTmr.raised = false
  hdr : u.rxHdr = h
  payload : Memory.readBytes u.rxPl 0 h.len.toNat = pl
  contents : u.rx.contents = bytes

/-- R183: a header without payload leads to WAIT_CRC_POST. -/
theorem polls_header_empty {s : State} {h : Header} {bytes : List Byte} (hinv : s.Inv) (hs : s.rxState = .waitHeader)
    (hr : s.rxTmr.raised = false) (hv : hdrValid s.cfg h = true) (h0 : h.len.toNat = 0)
    (hc : s.rx.contents = hdrPack s.cfg.wireOrder h ++ bytes) :
    ∃ u, QuietPolls 1 s u ∧ AtTrailer h [] bytes s u := by
  obtain ⟨b0, b1, b2, b3, hb⟩ := length_four (length_hdrPack s.cfg.wireOrder h)
  rw [hb] at hc
  obtain ⟨u, hu, hempty, -, -⟩ := (headerPollStoresOrRejects s hinv hs hr).2 b0 b1 b2 b3 bytes hc h
    (hdrUnpack_of_hdrPack (q := ⟨b0, b1, b2, b3⟩) hb).symm
  obtain ⟨hrest, -, hframe⟩ := hempty hv h0
  have hst : u.rxState = .waitCrcPost := by rw [hframe]
  refine ⟨u, .single (by rw [hs]; exact RxState.noConfusion) hu (by rw [hst]; exact RxState.noConfusion), ?_⟩
  exact {
    inv := inv_exec hinv hu
    only := by rw [OnlyDeframed, hframe]
    state := hst
    waiting := by rw [hframe]
    hdr := by rw [hframe]
    payload := by rw [h0]; rfl
    contents := hrest }

/-- R183, R184: a header with a payload, and then the payload, lead to WAIT_CRC_POST. -/
theorem polls_header_payload {s : State} {h : Header} {pl bytes : List Byte} (hinv : s.Inv)
    (hs : s.rxState = .waitHeader) (hr : s.rxTmr.raised = false) (hv : hdrValid s.cfg h = true)
    (hl : pl.length = h.len.toNat) (h1 : 1 ≤ h.len.toNat)
    (hc : s.rx.contents = hdrPack s.cfg.wireOrder h ++ (pl ++ bytes)) :
    ∃ u, QuietPolls 2 s u ∧ AtTrailer h pl bytes s u := by
  obtain ⟨b0, b1, b2, b3, hb⟩ := length_four (length_hdrPack s.cfg.wireOrder h)
  rw [hb] at hc
  obtain ⟨v, hv', -, hstored, -⟩ := (headerPollStoresOrRejects s hinv hs hr).2 b0 b1 b2 b3 (pl ++ bytes) hc h
    (hdrUnpack_of_hdrPack (q := ⟨b0, b1, b2, b3⟩) hb).symm
  obtain ⟨hrest, -, n, -, hframe⟩ := hstored hv h1
  have hst : v.rxState = .waitPayload := by rw [hframe]
  have hhdr : v.rxHdr = h := by rw [hframe]
  have hraised : v.rxTmr.raised = false := by rw [hframe]
  have honly : OnlyDeframed s v := by rw [OnlyDeframed, hframe]
  have hpayload := (payloadPollMovesTheWholePayload v (inv_exec hinv hv') hst).2.2 hraised
  rw [hhdr, hrest, List.drop_left' hl, List.take_left' hl, List.length_append] at hpayload
  obtain ⟨u, hu, hbytes, -, hread, -, hframe'⟩ := hpayload (by omega)
  have hst' : u.rxState = .waitCrcPost := by rw [hframe']
  have hquiet : QuietPolls 1 v u :=
    .single (by rw [hst]; exact RxState.noConfusion) hu (by rw [hst']; exact RxState.noConfusion)
  refine ⟨u, .step (by rw [hs]; exact RxState.noConfusion) hv' hquiet, ?_⟩
  exact {
    inv := inv_exec (inv_exec hinv hv') hu
    only := honly.trans (by rw [OnlyDeframed, hframe'])
    state := hst'
    waiting := by rw [hframe']
    hdr := by rw [hframe']
    payload := hread
    contents := hbytes }

/-- R190: the polls before the trailer, 5 without a payload and 6 with one. -/
theorem polls_to_trailer {s : State} {h : Header} {pl sum rest : List Byte} (hinv : s.Inv)
    (hs : s.rxState = .waitPreamble) (hi : s.preIdx = 0) (hv : hdrValid s.cfg h = true) (hl : pl.length = h.len.toNat)
    (hc : s.rx.contents = frameWith s.cfg h pl sum ++ rest) :
    ∃ u, QuietPolls (if h.len.toNat = 0 then 5 else 6) s u ∧
      AtTrailer h pl (sum ++ (wire32 s.cfg.wireOrder postamble ++ rest)) s u := by
  simp only [frameWith, List.append_assoc] at hc
  obtain ⟨v, hquiet, hinv', honly, hst, hr, hrest⟩ := polls_preamble 3 hinv hs (by rw [hi]; rfl) (by rw [hi]; exact hc)
  rw [← honly.cfg] at hv hrest
  split
  · rename_i h0
    obtain rfl : pl = [] := List.eq_nil_of_length_eq_zero (hl.trans h0)
    obtain ⟨u, hquiet', ht⟩ := polls_header_empty hinv' hst hr hv h0 hrest
    rw [honly.cfg] at ht
    exact ⟨u, hquiet.trans hquiet', { ht with only := honly.trans ht.only }⟩
  · rename_i h0
    obtain ⟨u, hquiet', ht⟩ := polls_header_payload hinv' hst hr hv hl (Nat.one_le_iff_ne_zero.mpr h0) hrest
    rw [honly.cfg] at ht
    exact ⟨u, hquiet.trans hquiet', { ht with only := honly.trans ht.only }⟩

/-- R185, R190: the poll of the trailer, `sum` in its checksum field and the postamble after it. -/
theorem poll_trailer {s u : State} {h : Header} {pl sum rest : List Byte} (hsum : sum.length = 4)
    (ht : AtTrailer h pl (sum ++ (wire32 s.cfg.wireOrder postamble ++ rest)) s u) :
    ∃ t r, exec .rxPoll u = .next t ∧ r.contents = rest ∧
      (unwire32 s.cfg.wireOrder sum ≠ frameChecksum s.cfg h pl →
        Recovered .badChecksum u.cfg.flushOnTrailerError { u with rx := r } t) ∧
      (unwire32 s.cfg.wireOrder sum = frameChecksum s.cfg h pl →
        (isAckPkt u.cfg u.rxHdr = true → t.q = u.q ∧ t.dropCnt = u.dropCnt) ∧
        (isAckPkt u.cfg u.rxHdr = false → CtlSent u.cfg.ackType u t) ∧
        t = { u with rx := r, q := t.q, dropCnt := t.dropCnt, rxState := .packetReady,
                     rxTmr := { rem := u.rxTmr.rem, active := false, raised := false }, result := .none }) := by
  have hpost := length_wire32 s.cfg.wireOrder postamble
  have hlen : 8 ≤ u.rx.contents.length := by
    simp only [ht.contents, List.length_append, hsum, hpost]; omega
  have hcomputed : frameChecksum s.cfg h pl =
      checksum u.cfg (hdrPack u.cfg.wireOrder u.rxHdr ++ Memory.readBytes u.rxPl 0 u.rxHdr.len.toNat) := by
    rw [ht.hdr, ht.payload, ht.only.cfg]; rfl
  have htake : u.rx.contents.take 4 = sum := by rw [ht.contents, List.take_left' hsum]
  have hdrop : u.rx.contents.drop 4 = wire32 s.cfg.wireOrder postamble ++ rest := by
    rw [ht.contents, List.drop_left' hsum]
  obtain ⟨t, r, hu, hr, -, hbad, -, hgood⟩ :=
    (trailerPollAcceptsOrRejects u ht.inv ht.state ht.waiting).2 hlen _ hcomputed
  rw [show 8 = 4 + 4 from rfl, ← List.drop_drop, hdrop, List.drop_left' hpost] at hr
  refine ⟨t, r, hu, hr, fun hne => hbad ?_, fun heq => hgood ?_ ?_⟩
  · rw [htake, ht.only.cfg]; exact hne
  · rw [htake, ht.only.cfg]; exact heq
  · rw [hdrop, List.take_left' hpost, ht.only.cfg, unwire32_wire32]

/-- R190: the polls of a whole frame. -/
theorem execAll_of_polls {s u t : State} {n : Nat} (hquiet : QuietPolls n s u) (hu : exec .rxPoll u = .next t) :
    execAll (rxPolls (n + 1)) s = .next t := by
  rw [hquiet.execAll, execAll_rxPolls_succ 0 hu]
  rfl

theorem succ_ite_five_six (p : Prop) [Decidable p] : (if p then 6 else 7) = (if p then 5 else 6) + 1 := by
  split <;> rfl

/-! ## The statements -/

/-- Settles O53: the polls up to the trailer leave everything outside the deframer, and the trailer's checksum is the
one the deframer computes. -/
theorem wholeFrameIsDeframed : Obligations.WholeFrameIsDeframed := by
  intro s h pl rest hinv hs hi hover hv hl hc
  rw [frameEncode_eq] at hc
  obtain ⟨u, hquiet, ht⟩ := polls_to_trailer hinv hs hi hv hl hc
  obtain ⟨t, r, hu, hr, -, hgood⟩ := poll_trailer (length_wire32 _ _) ht
  obtain ⟨hack, hother, hframe⟩ := hgood (unwire32_wire32 _ _)
  have hready : t.rxState = .packetReady := by rw [hframe]
  have hhdr : t.rxHdr = h := by rw [hframe]; exact ht.hdr
  have hpl : t.rxPl = u.rxPl := by rw [hframe]
  refine ⟨t, ?_, ?_, ?_, ?_, ?_, fun ha => ?_, fun ha => ?_⟩
  · rw [succ_ite_five_six]
    exact execAll_of_polls hquiet hu
  · rw [pktOut_of_ready hready, hhdr, hpl, ht.payload]
  · rw [hframe]; exact hr
  · rw [hframe]; exact ht.only.rxOverrun.trans hover
  · rw [hframe]; exact ht.only.errCode
  · obtain ⟨hq, hd⟩ := hack (by rw [ht.only.cfg, ht.hdr]; exact ha)
    exact ⟨hq.trans ht.only.q, hd.trans ht.only.dropCnt⟩
  · have hsent := hother (by rw [ht.only.cfg, ht.hdr]; exact ha)
    rw [ht.only.cfg] at hsent
    exact hsent.congr ht.only.cfg ht.only.q ht.only.dropCnt

/-- Settles O54: the flipped checksum field is another word, so the poll of the trailer is the recovery; the polls before
it hold no packet. -/
theorem flippedChecksumIsNackedOnce : Obligations.FlippedChecksumIsNackedOnce := by
  intro s h pl rest f i j hinv hs hi hover hv hl hi4 hj8 hf hc
  rw [hf, flip_frameEncode hl _ hi4] at hc
  obtain ⟨u, hquiet, ht⟩ := polls_to_trailer hinv hs hi hv hl hc
  obtain ⟨t, r, hu, hr, hbad, -⟩ := poll_trailer (List.length_set.trans (length_wire32 _ _)) ht
  have hrec := hbad (unwire32_flip_ne _ _ hi4 hj8)
  rw [succ_ite_five_six]
  refine ⟨⟨t, execAll_of_polls hquiet hu, hrec.err, hrec.state, ?_, ?_⟩, fun k v hk hv => ?_⟩
  · rw [← ht.only.cfg]
    exact hrec.nack.congr ht.only.cfg ht.only.q ht.only.dropCnt
  · rw [← ht.only.cfg]
    cases hflush : u.cfg.flushOnTrailerError with
    | true =>
      rw [hflush] at hrec
      exact hrec.contents_nil
    | false => rw [hrec.kept hflush]; exact hr
  · have hlast : QuietPolls 1 u t := .single (by rw [ht.state]; exact RxState.noConfusion) hu
      (by rw [hrec.state]; exact RxState.noConfusion)
    exact (hquiet.trans hlast).pktOut_eq_none hk hv

end Sys2Proof.Machine
end

section
/-! SUPPORT. Nothing the spec leaves unspecified is observed (10_state.md R29, R45, 44_timers.md R271): every step of every
operation, made from two states that agree on what is seen, gives two states that agree on it. -/

namespace Sys2Proof.Machine

/-! ## What is observed -/

section observed
variable {s t : State}

theorem State.SameSeen.pktOut_eq (h : s.SameSeen t) : pktOut s = pktOut t := by
  by_cases hs : s.rxState = .packetReady
  · rw [pktOut_of_ready hs, pktOut_of_ready (h.rxState ▸ hs), h.rxHdr (hs ▸ rfl), ← h.rxHdr (hs ▸ rfl),
      h.rxPl (.inr hs), h.rxHdr (hs ▸ rfl)]
  · rw [pktOut_of_not_ready hs, pktOut_of_not_ready (h.rxState ▸ hs)]

theorem State.SameSeen.statusOut_eq (h : s.SameSeen t) : statusOut s = statusOut t := by
  rw [statusOut, statusOut, h.errCode, h.dropCnt, h.abortCnt, h.abandonCnt, h.rxOverrun]

/-- R6: states that agree on what is seen give the same observation. -/
theorem State.SameSeen.observe_eq (h : s.SameSeen t) : observe s = observe t := by
  rw [observe, observe, h.wireOut, enqOkOut, h.result, h.pktOut_eq, h.statusOut_eq]
  rfl

theorem State.SameSeen.outcome (h : s.SameSeen t) : SameOutcome (.next s) (.next t) := ⟨h, h.observe_eq⟩

end observed

/-! ## Rings that agree on their indices and contents -/

/-- R61: two rings in shape that hold the same bytes at the same places. -/
structure Ring.Alike (cap : Nat) (r r' : Ring) : Prop where
  wf : r.Wf cap
  wf' : r'.Wf cap
  ix : r.ix = r'.ix
  contents : r.contents = r'.contents

namespace Ring.Alike

variable {cap : Nat} {r r' : Ring}

theorem put (h : Alike cap r r') (b : Byte) : Alike cap (r.put b) (r'.put b) where
  wf := h.wf.put b
  wf' := h.wf'.put b
  ix := congrArg Indices.put h.ix
  contents := by rw [contents_put h.wf, contents_put h.wf', h.ix, h.contents]

theorem clear (h : Alike cap r r') : Alike cap r.clear r'.clear where
  wf := h.wf.clear
  wf' := h.wf'.clear
  ix := congrArg Indices.clear h.ix
  contents := by rw [contents_clear, contents_clear]

theorem writeResult_eq (h : Alike cap r r') (s : List Byte) : r.writeResult s = r'.writeResult s := by
  rw [Ring.writeResult, Ring.writeResult, h.ix]

/-- R69: what a write does to indices and contents depends on nothing else. -/
theorem write (h : Alike cap r r') (s : List Byte) : Alike cap (r.write s) (r'.write s) := by
  obtain ⟨hwf, hfits, hfull⟩ := write_spec h.wf s
  obtain ⟨hwf', hfits', hfull'⟩ := write_spec h.wf' s
  by_cases hfit : r.ix.dataLen + s.length ≤ cap
  · refine ⟨hwf, hwf', ?_, by rw [hfits hfit, hfits' (h.ix ▸ hfit), h.contents]⟩
    rw [Ring.write, Ring.write, ← h.writeResult_eq s]
    split
    · exact h.ix
    · rw [if_pos ((writeResult_ok_iff h.wf.ix s).mpr hfit), if_pos ((writeResult_ok_iff h.wf.ix s).mpr hfit),
        append_ix h.wf.ix, append_ix h.wf'.ix, h.ix]
  · rw [hfull hfit, hfull' (h.ix ▸ hfit)]
    exact h

end Ring.Alike

/-! ## Time events that agree on what is seen -/

/-- R271: two time events that agree but for `rem` of a stopped one. -/
structure TimeEvent.Alike (e f : TimeEvent) : Prop where
  active : e.active = f.active
  raised : e.raised = f.raised
  rem : e.active = true → e.rem = f.rem

theorem TimeEvent.Alike.tick {e f : TimeEvent} (h : e.Alike f) : (timerTick e).Alike (timerTick f) := by
  cases ha : e.active with
  | false => rwa [timerTick_of_inactive ha, timerTick_of_inactive (h.active ▸ ha)]
  | true =>
    obtain rfl : e = f := by
      cases e
      cases f
      exact TimeEvent.mk.injEq .. ▸ ⟨h.rem ha, h.active, h.raised⟩
    exact ⟨rfl, rfl, fun _ => rfl⟩

theorem TimeEvent.Alike.start {n m : U32} (h : n = m) : (timerStart n).Alike (timerStart m) :=
  ⟨rfl, rfl, fun _ => h⟩

/-! ## The deframer -/

section deframer
variable {s t : State}

theorem State.SameSeen.with_result (h : s.SameSeen t) (r : Result) :
    State.SameSeen { s with result := r } { t with result := r } := { h with result := rfl }

theorem State.SameSeen.with_rx (h : s.SameSeen t) {r r' : Ring} (hix : r.ix = r'.ix)
    (hc : r.contents = r'.contents) : State.SameSeen { s with rx := r } { t with rx := r' } :=
  { h with rx_ix := hix, rx_contents := hc }

theorem State.SameSeen.sendCtl (h : s.SameSeen t) (ty : Byte) : (sendCtl ty s).SameSeen (sendCtl ty t) :=
  { h with
    q := sendCtl_q_congr h.cfg h.q
    dropCnt := sendCtl_dropCnt_congr h.cfg h.q h.dropCnt }

/-- R45: back in WAIT_PREAMBLE neither header nor payload nor timer is seen. -/
theorem State.SameSeen.restartRx (h : s.SameSeen t) : (restartRx s).SameSeen (restartRx t) :=
  { h with
    rxState := rfl
    preIdx := rfl
    rxHdr := Bool.noConfusion
    rxPl := fun hs => hs.elim RxState.noConfusion RxState.noConfusion
    rxTmr_active := rfl
    rxTmr_raised := rfl
    rxTmr_rem := Bool.noConfusion }

theorem State.SameSeen.flushFor (h : s.SameSeen t) (e : Err) : (flushFor e s).SameSeen (flushFor e t) := by
  have hflush : flushes s.cfg e = flushes t.cfg e := by rw [h.cfg]
  refine h.with_rx ?_ ?_
  · rw [← hflush]
    split
    · exact congrArg Indices.clear h.rx_ix
    · exact h.rx_ix
  · rw [← hflush]
    split
    · rw [Ring.contents_clear, Ring.contents_clear]
    · exact h.rx_contents

/-- R302: the recovery reads nothing unspecified. -/
theorem State.SameSeen.rxFail (h : s.SameSeen t) (e : Err) : (rxFail e s).SameSeen (rxFail e t) := by
  have herr : (setErr e s).SameSeen (setErr e t) := { h with errCode := rfl }
  have hnack := (herr.flushFor e).sendCtl s.cfg.nackType
  rw [Machine.rxFail, Machine.rxFail, ← h.cfg]
  exact hnack.restartRx

theorem State.SameSeen.enterHeader (h : s.SameSeen t) : (enterHeader s).SameSeen (enterHeader t) :=
  { h with
    rxState := rfl
    preIdx := rfl
    rxHdr := Bool.noConfusion
    rxPl := fun hs => hs.elim RxState.noConfusion RxState.noConfusion
    rxTmr_active := rfl
    rxTmr_raised := rfl
    rxTmr_rem := fun _ => congrArg Config.tHdr h.cfg }

theorem State.SameSeen.with_preIdx (h : s.SameSeen t) (i : BitVec 2) :
    State.SameSeen { s with preIdx := i } { t with preIdx := i } := { h with preIdx := rfl }

theorem State.SameSeen.preambleStep (h : s.SameSeen t) (b : Byte) :
    (preambleStep b s).SameSeen (preambleStep b t) := by
  have hbyte : preByte s.cfg s.preIdx = preByte t.cfg t.preIdx := by rw [h.cfg, h.preIdx]
  by_cases hb : b = preByte s.cfg s.preIdx
  · have hb' := hb.trans hbyte
    by_cases h3 : s.preIdx = 3#2
    · rw [preambleStep_last hb h3, preambleStep_last hb' (h.preIdx ▸ h3)]
      exact h.enterHeader
    · rw [preambleStep_advance hb h3, preambleStep_advance hb' (h.preIdx ▸ h3), ← h.preIdx]
      exact h.with_preIdx _
  · rw [preambleStep_mismatch hb, preambleStep_mismatch (fun hb' => hb (hb'.trans hbyte.symm))]
    exact h.with_preIdx _

/-- R23: a header stored in WAIT_HEADER. -/
theorem State.SameSeen.with_rxHdr (h : s.SameSeen t) (hs : s.rxState = .waitHeader) (hd : Header) :
    State.SameSeen { s with rxHdr := hd } { t with rxHdr := hd } :=
  { h with
    rxHdr := fun _ => rfl
    rxPl := fun hx => hx.elim (fun h1 => by rw [hs] at h1; cases h1) (fun h1 => by rw [hs] at h1; cases h1) }

theorem State.SameSeen.enterPayload (h : s.SameSeen t) (hhdr : s.rxHdr = t.rxHdr) :
    (enterPayload s).SameSeen (enterPayload t) :=
  { h with
    rxState := rfl
    rxHdr := fun _ => hhdr
    rxPl := fun hs => hs.elim RxState.noConfusion RxState.noConfusion
    rxTmr_active := rfl
    rxTmr_raised := rfl
    rxTmr_rem := fun _ => by
      show payTimeout s.cfg s.rxHdr.len = payTimeout t.cfg t.rxHdr.len
      rw [h.cfg, hhdr] }

theorem State.SameSeen.enterTrailer (h : s.SameSeen t) (hhdr : s.rxHdr = t.rxHdr)
    (hpl : Memory.readBytes s.rxPl 0 s.rxHdr.len.toNat = Memory.readBytes t.rxPl 0 t.rxHdr.len.toNat) :
    (enterTrailer s).SameSeen (enterTrailer t) :=
  { h with
    rxState := rfl
    rxHdr := fun _ => hhdr
    rxPl := fun _ => hpl
    rxTmr_active := rfl
    rxTmr_raised := rfl
    rxTmr_rem := fun _ => congrArg Config.tCrc h.cfg }

theorem State.SameSeen.headerStep (h : s.SameSeen t) (hs : s.rxState = .waitHeader) (hd : Header) :
    (headerStep hd s).SameSeen (headerStep hd t) := by
  have hstored := h.with_rxHdr hs hd
  cases hv : hdrValid s.cfg hd with
  | true =>
    rw [headerStep_valid hv, headerStep_valid (h.cfg ▸ hv)]
    split
    · rename_i h0
      refine hstored.enterTrailer rfl ?_
      show Memory.readBytes s.rxPl 0 hd.len.toNat = Memory.readBytes t.rxPl 0 hd.len.toNat
      rw [h0]
      rfl
    · exact hstored.enterPayload rfl
  | false =>
    rw [headerStep_invalid hv, headerStep_invalid (h.cfg ▸ hv)]
    exact h.rxFail _

theorem State.SameSeen.enterReady (h : s.SameSeen t) (hs : s.rxState = .waitCrcPost) :
    (enterReady s).SameSeen (enterReady t) :=
  { h with
    rxState := rfl
    rxHdr := fun _ => h.rxHdr (hs ▸ rfl)
    rxPl := fun _ => h.rxPl (.inl hs)
    rxTmr_active := rfl
    rxTmr_raised := rfl
    rxTmr_rem := Bool.noConfusion }

/-- R185, R189: acknowledging reads the configuration and the header held. -/
theorem State.SameSeen.acknowledge (h : s.SameSeen t) (hhdr : s.rxHdr = t.rxHdr) :
    State.SameSeen (if isAckPkt s.cfg s.rxHdr then s else Machine.sendCtl s.cfg.ackType s)
      (if isAckPkt t.cfg t.rxHdr then t else Machine.sendCtl t.cfg.ackType t) := by
  have hack : isAckPkt s.cfg s.rxHdr = isAckPkt t.cfg t.rxHdr := by rw [h.cfg, hhdr]
  have hty : s.cfg.ackType = t.cfg.ackType := by rw [h.cfg]
  rw [← hack, ← hty]
  split
  · exact h
  · exact h.sendCtl _

theorem State.SameSeen.trailerStep (h : s.SameSeen t) (hs : s.rxState = .waitCrcPost) (sum received post : U32) :
    (trailerStep sum received post s).SameSeen (trailerStep sum received post t) := by
  by_cases hsum : received = sum
  · by_cases hpost : post = postamble
    · rw [trailerStep_of_good hsum hpost, trailerStep_of_good hsum hpost]
      refine (h.acknowledge (h.rxHdr (hs ▸ rfl))).enterReady ?_
      split
      · exact hs
      · exact hs
    · rw [trailerStep_of_badPostamble hsum hpost, trailerStep_of_badPostamble hsum hpost]
      exact h.rxFail _
  · rw [trailerStep_of_badChecksum hsum, trailerStep_of_badChecksum hsum]
    exact h.rxFail _

/-! ### The polls -/

/-- `p` answers in both states, and the states it answers agree on what is seen. -/
def SameAnswer (p : State → Except Fault State) (s t : State) : Prop :=
  ∃ u v, p s = .ok u ∧ p t = .ok v ∧ u.SameSeen v

/-- R66: the same bytes consumed from both rings. -/
theorem State.SameSeen.with_consumed (h : s.SameSeen t) {n : Nat} {r r' : Ring} (hr : r = consumed n s.rx)
    (hr' : r' = consumed n t.rx) (hc : r.contents = r'.contents) :
    State.SameSeen { s with rx := r } { t with rx := r' } := by
  refine h.with_rx ?_ hc
  rw [hr, hr', consumed, consumed, h.rx_ix]

/-- R185: eight bytes are a checksum field and a postamble. -/
theorem split_trailer {l : List Byte} (hl : 8 ≤ l.length) :
    ∃ sum post rest, sum.length = 4 ∧ post.length = 4 ∧ l = sum ++ (post ++ rest) := by
  refine ⟨l.take 4, (l.drop 4).take 4, (l.drop 4).drop 4, List.length_take_of_le (by omega),
    List.length_take_of_le (by rw [List.length_drop]; omega), ?_⟩
  rw [List.take_append_drop, List.take_append_drop]

section polls
variable (hs : s.Inv) (ht : t.Inv) (h : s.SameSeen t)
include hs ht h

theorem rxPoll_sameAnswer_waitPreamble (hst : s.rxState = .waitPreamble) : SameAnswer rxPoll s t := by
  have hst' : t.rxState = .waitPreamble := h.rxState ▸ hst
  cases hc : s.rx.contents with
  | nil =>
    have hlen : rxLen s = 0 := by rw [rxLen_eq, hc]; rfl
    have hlen' : rxLen t = 0 := by rw [rxLen_eq, ← h.rx_contents, hc]; rfl
    exact ⟨s, t, (rxPoll_waitPreamble hst).trans (pollPreamble_of_empty hlen),
      (rxPoll_waitPreamble hst').trans (pollPreamble_of_empty hlen'), h⟩
  | cons b rest =>
    obtain ⟨r, hr, hrest, hpoll⟩ := rxPoll_preamble_of_cons hs.rx_wf hst hc
    obtain ⟨r', hr', hrest', hpoll'⟩ := rxPoll_preamble_of_cons ht.rx_wf hst' (h.rx_contents.symm.trans hc)
    exact ⟨_, _, hpoll, hpoll', (h.with_consumed hr hr' (hrest.trans hrest'.symm)).preambleStep b⟩

theorem rxPoll_sameAnswer_waitHeader (hst : s.rxState = .waitHeader) : SameAnswer rxPoll s t := by
  have hst' : t.rxState = .waitHeader := h.rxState ▸ hst
  cases hraised : s.rxTmr.raised with
  | true =>
    exact ⟨_, _, (rxPoll_waitHeader hst).trans (pollHeader_of_raised hraised),
      (rxPoll_waitHeader hst').trans (pollHeader_of_raised (h.rxTmr_raised ▸ hraised)), h.rxFail _⟩
  | false =>
    have hraised' : t.rxTmr.raised = false := h.rxTmr_raised ▸ hraised
    by_cases hlen : rxLen s < 4
    · have hlen' : rxLen t < 4 := by rwa [rxLen, ← h.rx_ix]
      exact ⟨s, t, (rxPoll_waitHeader hst).trans (pollHeader_of_short hraised hlen),
        (rxPoll_waitHeader hst').trans (pollHeader_of_short hraised' hlen'), h⟩
    · obtain ⟨b0, b1, b2, b3, hb⟩ := length_four
        (List.length_take_of_le (l := s.rx.contents) (i := 4) (by rw [← rxLen_eq]; omega))
      have hc := (List.take_append_drop 4 s.rx.contents).symm
      rw [hb] at hc
      obtain ⟨r, hr, hrest, hpoll⟩ := rxPoll_header_of_cons (q := ⟨b0, b1, b2, b3⟩) hs.rx_wf hst hraised hc
      obtain ⟨r', hr', hrest', hpoll'⟩ :=
        rxPoll_header_of_cons (q := ⟨b0, b1, b2, b3⟩) ht.rx_wf hst' hraised' (h.rx_contents.symm.trans hc)
      rw [← congrArg Config.wireOrder h.cfg] at hpoll'
      exact ⟨_, _, hpoll, hpoll', (h.with_consumed hr hr' (hrest.trans hrest'.symm)).headerStep hst _⟩

/-- R184: what a payload poll stores is what it reads back. -/
theorem rxPoll_sameAnswer_waitPayload (hst : s.rxState = .waitPayload) : SameAnswer rxPoll s t := by
  have hst' : t.rxState = .waitPayload := h.rxState ▸ hst
  have hhdr : s.rxHdr = t.rxHdr := h.rxHdr (hst ▸ rfl)
  cases hraised : s.rxTmr.raised with
  | true =>
    exact ⟨_, _, (rxPoll_waitPayload hst).trans (pollPayload_of_raised hraised),
      (rxPoll_waitPayload hst').trans (pollPayload_of_raised (h.rxTmr_raised ▸ hraised)), h.rxFail _⟩
  | false =>
    have hraised' : t.rxTmr.raised = false := h.rxTmr_raised ▸ hraised
    by_cases hlen : rxLen s < s.rxHdr.len.toNat
    · have hlen' : rxLen t < t.rxHdr.len.toNat := by rwa [rxLen, ← h.rx_ix, ← hhdr]
      exact ⟨s, t, (rxPoll_waitPayload hst).trans (pollPayload_of_short hraised hlen),
        (rxPoll_waitPayload hst').trans (pollPayload_of_short hraised' hlen'), h⟩
    · have hpl : (s.rx.contents.take s.rxHdr.len.toNat).length = s.rxHdr.len.toNat :=
        List.length_take_of_le (by rw [← rxLen_eq]; omega)
      have hc := (List.take_append_drop s.rxHdr.len.toNat s.rx.contents).symm
      generalize s.rx.contents.take s.rxHdr.len.toNat = pl at hpl hc
      have hpl' : pl.length = t.rxHdr.len.toNat := by rw [← hhdr, hpl]
      obtain ⟨r, hr, hrest, hpoll⟩ := rxPoll_payload_of_append hs.rx_wf hst hraised (hs.payload_nonempty hst)
        (hs.rxHdr_len_le (hst ▸ rfl)) hpl hc
      obtain ⟨r', hr', hrest', hpoll'⟩ := rxPoll_payload_of_append ht.rx_wf hst' hraised' (ht.payload_nonempty hst')
        (ht.rxHdr_len_le (hst' ▸ rfl)) hpl' (h.rx_contents.symm.trans hc)
      rw [← hhdr] at hr'
      have hread : Memory.readBytes (Memory.writeBytes s.rxPl 0 pl) 0 s.rxHdr.len.toNat =
          Memory.readBytes (Memory.writeBytes t.rxPl 0 pl) 0 t.rxHdr.len.toNat := by
        rw [← hpl, ← hpl', Memory.readBytes_writeBytes hs.rxPl_wf.canonical,
          Memory.readBytes_writeBytes ht.rxPl_wf.canonical]
      have hmoved : State.SameSeen { s with rx := r, rxPl := Memory.writeBytes s.rxPl 0 pl }
          { t with rx := r', rxPl := Memory.writeBytes t.rxPl 0 pl } :=
        { h.with_consumed hr hr' (hrest.trans hrest'.symm) with rxPl := fun _ => hread }
      exact ⟨_, _, hpoll, hpoll', hmoved.enterTrailer hhdr hread⟩

theorem rxPoll_sameAnswer_waitCrcPost (hst : s.rxState = .waitCrcPost) : SameAnswer rxPoll s t := by
  have hst' : t.rxState = .waitCrcPost := h.rxState ▸ hst
  have hhdr : s.rxHdr = t.rxHdr := h.rxHdr (hst ▸ rfl)
  cases hraised : s.rxTmr.raised with
  | true =>
    exact ⟨_, _, (rxPoll_waitCrcPost hst).trans (pollTrailer_of_raised hraised),
      (rxPoll_waitCrcPost hst').trans (pollTrailer_of_raised (h.rxTmr_raised ▸ hraised)), h.rxFail _⟩
  | false =>
    have hraised' : t.rxTmr.raised = false := h.rxTmr_raised ▸ hraised
    by_cases hlen : rxLen s < 8
    · have hlen' : rxLen t < 8 := by rwa [rxLen, ← h.rx_ix]
      exact ⟨s, t, (rxPoll_waitCrcPost hst).trans (pollTrailer_of_short hraised hlen),
        (rxPoll_waitCrcPost hst').trans (pollTrailer_of_short hraised' hlen'), h⟩
    · rw [rxLen_eq] at hlen
      obtain ⟨sum, post, rest, hsum, hpost, hc⟩ := split_trailer (Nat.not_lt.mp hlen)
      obtain ⟨r, hr, hrest, hpoll⟩ := rxPoll_trailer_of_append hs.rx_wf hst hraised (hs.rxHdr_len_le (hst ▸ rfl))
        hsum hpost hc
      obtain ⟨r', hr', hrest', hpoll'⟩ := rxPoll_trailer_of_append ht.rx_wf hst' hraised'
        (ht.rxHdr_len_le (hst' ▸ rfl)) hsum hpost (h.rx_contents.symm.trans hc)
      have hcomputed : frameChecksum t.cfg t.rxHdr (Memory.readBytes t.rxPl 0 t.rxHdr.len.toNat) =
          frameChecksum s.cfg s.rxHdr (Memory.readBytes s.rxPl 0 s.rxHdr.len.toNat) := by
        rw [h.rxPl (.inl hst), h.cfg, hhdr]
      rw [hcomputed, ← congrArg Config.wireOrder h.cfg] at hpoll'
      exact ⟨_, _, hpoll, hpoll', (h.with_consumed hr hr' (hrest.trans hrest'.symm)).trailerStep hst _ _ _⟩

/-- R181: a poll of the deframer reads nothing unspecified. -/
theorem rxPoll_sameAnswer : SameAnswer rxPoll s t := by
  cases hst : s.rxState with
  | waitPreamble => exact rxPoll_sameAnswer_waitPreamble hs ht h hst
  | waitHeader => exact rxPoll_sameAnswer_waitHeader hs ht h hst
  | waitPayload => exact rxPoll_sameAnswer_waitPayload hs ht h hst
  | waitCrcPost => exact rxPoll_sameAnswer_waitCrcPost hs ht h hst
  | packetReady => exact ⟨s, t, rxPoll_packetReady hst, rxPoll_packetReady (h.rxState ▸ hst), h⟩

end polls

end deframer

end Sys2Proof.Machine
end

section
/-! SUPPORT. Transmit Delivery, the ports, RESET and TICK read nothing unspecified either, and so no operation does
(10_state.md R29, R45). -/

namespace Sys2Proof.Machine

variable {s t : State}

/-! ## The rings and the queue -/

theorem State.SameSeen.rxAlike (h : s.SameSeen t) (hs : s.Inv) (ht : t.Inv) :
    Ring.Alike s.cfg.rxCap.toNat s.rx t.rx := by
  have hwf := ht.rx_wf
  rw [← h.cfg] at hwf
  exact ⟨hs.rx_wf, hwf, h.rx_ix, h.rx_contents⟩

theorem State.SameSeen.txAlike (h : s.SameSeen t) (hs : s.Inv) (ht : t.Inv) :
    Ring.Alike s.cfg.txCap.toNat s.tx t.tx := by
  have hwf := ht.tx_wf
  rw [← h.cfg] at hwf
  exact ⟨hs.tx_wf, hwf, h.tx_ix, h.tx_contents⟩

theorem State.SameSeen.with_tx (h : s.SameSeen t) {cap : Nat} {r r' : Ring} (hr : Ring.Alike cap r r') :
    State.SameSeen { s with tx := r } { t with tx := r' } := { h with tx_ix := hr.ix, tx_contents := hr.contents }

theorem State.SameSeen.qFits_eq (h : s.SameSeen t) (r : Request) : qFits r s = qFits r t := qFits_congr h.cfg h.q

theorem State.SameSeen.qWrite (h : s.SameSeen t) (r : Request) : (qWrite r s).SameSeen (qWrite r t) :=
  { h with q := by rw [qWrite_q, qWrite_q, h.qFits_eq r, h.cfg, h.q] }

theorem State.SameSeen.qDrop (h : s.SameSeen t) (r : Request) : (qDrop r s).SameSeen (qDrop r t) :=
  { h with q := by rw [qDrop_q, qDrop_q, h.cfg, h.q] }

/-! ## The send attempt -/

theorem State.SameSeen.abortSend (h : s.SameSeen t) : (abortSend s).SameSeen (abortSend t) :=
  { h with
    errCode := rfl
    abortCnt := congrArg (· + 1) h.abortCnt }

/-- R232: an attempt depends on the indices and the contents of the TX ring alone. -/
theorem sendFields_sameSeen {cap : Nat} (fs : List (List Byte)) : ∀ {s t : State}, s.SameSeen t →
    Ring.Alike cap s.tx t.tx → (sendFields fs s).SameSeen (sendFields fs t) := by
  induction fs with
  | nil => exact fun h _ => h
  | cons f fs ih =>
    intro s t h htx
    have hresult : txWriteResult f s = txWriteResult f t := htx.writeResult_eq f
    simp only [sendFields, ← hresult]
    split
    · exact ih (h.with_tx (htx.write f)) (htx.write f)
    · exact h.abortSend

/-- R31: the request in flight, but for the bytes of TX_PL past its payload. -/
structure TxReq.Alike (r r' : TxReq) : Prop where
  ackReq : r.ackReq = r'.ackReq
  hdr : r.hdr = r'.hdr
  pl : Memory.readBytes r.pl 0 r.hdr.len.toNat = Memory.readBytes r'.pl 0 r'.hdr.len.toNat

theorem State.SameSeen.txReqAlike (h : s.SameSeen t) (hs : s.txState = .transmitPacket) : s.txReq.Alike t.txReq :=
  ⟨h.ackReq hs, h.txHdr hs, h.txPl hs⟩

theorem State.SameSeen.ackTmrAlike (h : s.SameSeen t) : s.ackTmr.Alike t.ackTmr :=
  ⟨h.ackTmr_active, h.ackTmr_raised, h.ackTmr_rem⟩

theorem State.SameSeen.enterTransmitRegs (h : s.SameSeen t) (hr : s.txReq.Alike t.txReq) :
    (enterTransmitRegs s).SameSeen (enterTransmitRegs t) := by
  have htmr : (Machine.enterTransmitRegs s).ackTmr.Alike (Machine.enterTransmitRegs t).ackTmr := by
    rw [enterTransmitRegs_ackTmr, enterTransmitRegs_ackTmr, ← hr.ackReq]
    split
    · exact .start (congrArg Config.tAck h.cfg)
    · exact h.ackTmrAlike
  exact { h with
    txState := rfl
    txNoack := congrArg not hr.ackReq
    ackReq := fun _ => hr.ackReq
    txHdr := fun _ => hr.hdr
    txPl := fun _ => hr.pl
    ackTmr_active := htmr.active
    ackTmr_raised := htmr.raised
    ackTmr_rem := htmr.rem }

/-- R234: entering TRANSMIT_PACKET with requests that agree. -/
theorem enterTransmit_sameSeen {cap : Nat} (h : s.SameSeen t) (htx : Ring.Alike cap s.tx t.tx)
    (hr : s.txReq.Alike t.txReq) (hl : s.txReq.hdr.len.toNat ≤ maxPayload) : SameAnswer enterTransmit s t := by
  have hmem (r : TxReq) (hle : r.hdr.len.toNat ≤ maxPayload) :
      memRead r.pl 0 r.hdr.len.toNat = some (Memory.readBytes r.pl 0 r.hdr.len.toNat) :=
    if_pos (by rwa [Nat.zero_add])
  have hregs := h.enterTransmitRegs hr
  have hsent (u : State) (hle : u.txReq.hdr.len.toNat ≤ maxPayload) :
      enterTransmit u = .ok (sendFields (frameFields u.cfg u.txReq.hdr
        (Memory.readBytes u.txReq.pl 0 u.txReq.hdr.len.toNat)) (Machine.enterTransmitRegs u)) := by
    simp only [enterTransmit, send, enterTransmitRegs_txReq, hmem u.txReq hle, enterTransmitRegs_cfg]
  refine ⟨_, _, hsent s hl, hsent t (hr.hdr ▸ hl), ?_⟩
  rw [← hr.pl, ← hr.hdr, ← h.cfg]
  exact sendFields_sameSeen _ hregs htx

theorem State.SameSeen.setErr (h : s.SameSeen t) (e : Err) : (setErr e s).SameSeen (setErr e t) :=
  { h with errCode := rfl }

theorem State.SameSeen.exitTransmit (h : s.SameSeen t) : (exitTransmit s).SameSeen (exitTransmit t) :=
  { h with
    ackTmr_active := rfl
    ackTmr_raised := rfl
    ackTmr_rem := Bool.noConfusion }

theorem State.SameSeen.completeRequest (h : s.SameSeen t) : (completeRequest s).SameSeen (completeRequest t) :=
  { h.exitTransmit with
    txState := rfl
    ackReq := TxState.noConfusion
    txHdr := TxState.noConfusion
    txPl := TxState.noConfusion }

theorem State.SameSeen.abandonRequest (h : s.SameSeen t) : (abandonRequest s).SameSeen (abandonRequest t) := by
  have hcounted : State.SameSeen
      { s with errCode := Err.code .retryExhausted, abandonCnt := s.abandonCnt + 1 }
      { t with errCode := Err.code .retryExhausted, abandonCnt := t.abandonCnt + 1 } :=
    { h with
      errCode := rfl
      abandonCnt := congrArg (· + 1) h.abandonCnt }
  exact hcounted.completeRequest

theorem State.SameSeen.countRetry (h : s.SameSeen t) : (countRetry s).SameSeen (countRetry t) :=
  { h with txRetry := congrArg (· + 1) h.txRetry }

section delivery
variable {cap : Nat} (h : s.SameSeen t) (htx : Ring.Alike cap s.tx t.tx) (hst : s.txState = .transmitPacket)
  (hl : s.txReq.hdr.len.toNat ≤ maxPayload)
include h htx hst hl

theorem resend_sameAnswer (e : Err) : SameAnswer (resend e) s t := by
  obtain ⟨u, v, hu, hv, huv⟩ := enterTransmit_sameSeen (s := exitTransmit (setErr e s))
    (t := exitTransmit (setErr e t)) (h.setErr e).exitTransmit htx (h.txReqAlike hst) hl
  exact ⟨u, v, hu, hv, huv⟩

theorem retryOrAbandon_sameAnswer (e : Err) : SameAnswer (retryOrAbandon e) s t := by
  have hused : (s.cfg.maxRetries < s.txRetry) = (t.cfg.maxRetries < t.txRetry) := by rw [h.cfg, h.txRetry]
  by_cases hmax : s.cfg.maxRetries < s.txRetry
  · exact ⟨_, _, if_pos hmax, if_pos (hused ▸ hmax), h.abandonRequest⟩
  · obtain ⟨u, v, hu, hv, huv⟩ := resend_sameAnswer h htx hst hl e
    exact ⟨u, v, (if_neg hmax).trans hu, (if_neg (hused ▸ hmax)).trans hv, huv⟩

theorem nackStep_sameAnswer : SameAnswer nackStep s t := by
  cases hc : s.cfg.nackCountsRetry with
  | true =>
    obtain ⟨u, v, hu, hv, huv⟩ := retryOrAbandon_sameAnswer h.countRetry htx hst hl .nackReceived
    exact ⟨u, v, (nackStep_of_counts hc).trans hu, (nackStep_of_counts (h.cfg ▸ hc)).trans hv, huv⟩
  | false =>
    obtain ⟨u, v, hu, hv, huv⟩ := resend_sameAnswer h htx hst hl .nackReceived
    exact ⟨u, v, (nackStep_of_not_counts hc).trans hu, (nackStep_of_not_counts (h.cfg ▸ hc)).trans hv, huv⟩

theorem pollTransmit_sameAnswer : SameAnswer pollTransmit s t := by
  cases hn : s.txNoack with
  | true => exact ⟨_, _, pollTransmit_of_noack hn, pollTransmit_of_noack (h.txNoack ▸ hn), h.completeRequest⟩
  | false =>
    have hn' : t.txNoack = false := h.txNoack ▸ hn
    cases hr : s.ackTmr.raised with
    | true =>
      obtain ⟨u, v, hu, hv, huv⟩ := retryOrAbandon_sameAnswer h.countRetry htx hst hl .ackTimeout
      exact ⟨u, v, (pollTransmit_of_raised hn hr).trans hu,
        (pollTransmit_of_raised hn' (h.ackTmr_raised ▸ hr)).trans hv, huv⟩
    | false =>
      exact ⟨s, t, pollTransmit_of_waiting hn hr, pollTransmit_of_waiting hn' (h.ackTmr_raised ▸ hr), h⟩

end delivery

/-- R236: a dequeued request is loaded into tx_req, and its payload read back. -/
theorem State.SameSeen.loadRequest (h : s.SameSeen t) (hst : s.txState = .pollPending) (r : Request) (m m' : Memory) :
    (loadRequest r m s).SameSeen (loadRequest r m' t) :=
  { h with
    txRetry := rfl
    ackReq := fun hx => by rw [loadRequest_txState, hst] at hx; cases hx
    txHdr := fun hx => by rw [loadRequest_txState, hst] at hx; cases hx
    txPl := fun hx => by rw [loadRequest_txState, hst] at hx; cases hx }

/-! ## One operation from two states -/

/-- An operation that completes in both states with next states that agree. -/
theorem sameOutcome_of_next {i : Instr} {u v : State} (hu : exec i s = .next u) (hv : exec i t = .next v)
    (huv : u.SameSeen v) : SameOutcome (exec i s) (exec i t) := by
  rw [hu, hv]
  exact huv.outcome

/-- An operation that only answers gives both states the same answer. -/
theorem State.SameSeen.answer (h : s.SameSeen t) {r r' : Result} (hr : r = r') :
    SameOutcome (done r s) (done r' t) := by
  rw [← hr]
  exact (h.with_result r).outcome

/-- R273: the countdown of a stopped event is not seen. -/
theorem exec_tick_same (h : s.SameSeen t) : SameOutcome (exec .tick s) (exec .tick t) := by
  have hrx := TimeEvent.Alike.tick ⟨h.rxTmr_active, h.rxTmr_raised, h.rxTmr_rem⟩
  have htx := h.ackTmrAlike.tick
  have hticked : State.SameSeen
      { s with rxTmr := timerTick s.rxTmr, ackTmr := timerTick s.ackTmr, result := .none }
      { t with rxTmr := timerTick t.rxTmr, ackTmr := timerTick t.ackTmr, result := .none } :=
    { h with
      rxTmr_active := hrx.active
      rxTmr_raised := hrx.raised
      rxTmr_rem := hrx.rem
      ackTmr_active := htx.active
      ackTmr_raised := htx.raised
      ackTmr_rem := htx.rem
      result := rfl }
  exact hticked.outcome

/-- R45: the free values of RESET are not seen. -/
theorem exec_reset_same (h : s.SameSeen t) : SameOutcome (exec .reset s) (exec .reset t) := by
  have hreset : (resetState s).SameSeen (resetState t) :=
    { cfg := h.cfg
      built := h.built
      inbox := h.inbox
      result := h.result
      rxState := rfl
      preIdx := rfl
      rxHdr := Bool.noConfusion
      rxPl := fun hx => hx.elim RxState.noConfusion RxState.noConfusion
      rxTmr_active := rfl
      rxTmr_raised := rfl
      rxTmr_rem := Bool.noConfusion
      txState := rfl
      txRetry := rfl
      txNoack := rfl
      ackReq := TxState.noConfusion
      txHdr := TxState.noConfusion
      txPl := TxState.noConfusion
      ackTmr_active := rfl
      ackTmr_raised := rfl
      ackTmr_rem := Bool.noConfusion
      rx_ix := by
        show Indices.empty s.cfg.rxCap.toNat = Indices.empty t.cfg.rxCap.toNat
        rw [h.cfg]
      rx_contents := by rw [resetState_rx, resetState_rx, Ring.contents_init, Ring.contents_init]
      tx_ix := by
        show Indices.empty s.cfg.txCap.toNat = Indices.empty t.cfg.txCap.toNat
        rw [h.cfg]
      tx_contents := by rw [resetState_tx, resetState_tx, Ring.contents_init, Ring.contents_init]
      q := by rw [resetState_q, resetState_q, h.cfg]
      errCode := rfl
      dropCnt := rfl
      abortCnt := rfl
      abandonCnt := rfl
      rxOverrun := rfl
      wireOut := h.wireOut }
  exact (hreset.with_result .none).outcome

/-- R188: a held packet that is freed is no longer seen. -/
theorem exec_rxRelease_same (h : s.SameSeen t) : SameOutcome (exec .rxRelease s) (exec .rxRelease t) := by
  by_cases hst : s.rxState = .packetReady
  · have hfreed : State.SameSeen { s with rxState := .waitPreamble } { t with rxState := .waitPreamble } :=
      { h with
        rxState := rfl
        rxHdr := Bool.noConfusion
        rxPl := fun hx => hx.elim RxState.noConfusion RxState.noConfusion }
    exact sameOutcome_of_next (exec_rxRelease_of_ready hst) (exec_rxRelease_of_ready (h.rxState ▸ hst))
      (hfreed.with_result _)
  · exact sameOutcome_of_next (exec_rxRelease_of_not_ready hst)
      (exec_rxRelease_of_not_ready (h.rxState ▸ hst)) (h.with_result _)

theorem exec_ackIn_same (h : s.SameSeen t) : SameOutcome (exec .ackIn s) (exec .ackIn t) := by
  cases hst : s.txState with
  | transmitPacket =>
    exact sameOutcome_of_next (exec_ackIn_of_transmitPacket hst)
      (exec_ackIn_of_transmitPacket (h.txState ▸ hst)) (h.completeRequest.with_result _)
  | pollPending =>
    exact sameOutcome_of_next (exec_ackIn_of_pollPending hst) (exec_ackIn_of_pollPending (h.txState ▸ hst))
      (h.with_result _)

theorem exec_txEnqueue_same (h : s.SameSeen t) (o : Byte) (a : Bool) (hd : Header) (pl : List Byte) :
    SameOutcome (exec (.txEnqueue o a hd pl) s) (exec (.txEnqueue o a hd pl) t) := by
  cases hp : isPacket hd pl with
  | true =>
    refine sameOutcome_of_next (exec_txEnqueue_of_isPacket hp) (exec_txEnqueue_of_isPacket hp) ?_
    rw [← h.qFits_eq ⟨o, a, hd, pl⟩]
    exact (h.qWrite ⟨o, a, hd, pl⟩).with_result _
  | false =>
    rw [exec_of_not_wellFormed (i := .txEnqueue o a hd pl) hp, exec_of_not_wellFormed (i := .txEnqueue o a hd pl) hp]
    exact rfl

theorem exec_frameEncode_same (h : s.SameSeen t) (hd : Header) (pl : List Byte) :
    SameOutcome (exec (.frameEncode hd pl) s) (exec (.frameEncode hd pl) t) := by
  cases hp : isPacket hd pl with
  | true =>
    have hv := exec_frameEncode_of_isPacket (s := t) hp
    rw [← congrArg (frameEncode · hd pl) h.cfg] at hv
    exact sameOutcome_of_next (exec_frameEncode_of_isPacket hp) hv (h.with_result _)
  | false =>
    rw [exec_of_not_wellFormed (i := .frameEncode hd pl) hp, exec_of_not_wellFormed (i := .frameEncode hd pl) hp]
    exact rfl

section ops
variable (hs : s.Inv) (ht : t.Inv) (h : s.SameSeen t)
include hs ht h

theorem txPoll_sameAnswer_pollPending (hst : s.txState = .pollPending) : SameAnswer txPoll s t := by
  have hst' : t.txState = .pollPending := h.txState ▸ hst
  cases hq : s.q.reqs with
  | nil => exact ⟨s, t, txPoll_of_nil hst hq, txPoll_of_nil hst' (h.q ▸ hq), h⟩
  | cons r rest =>
    have hp : isPacket r.hdr r.pl = true := hs.q_wf.packets r (by rw [hq]; exact List.mem_cons_self)
    have hread (m : Memory) (hm : m.PayloadWf) :
        Memory.readBytes (Memory.writeBytes m 0 r.pl) 0 r.hdr.len.toNat = r.pl := by
      rw [← (isPacket_iff.mp hp).1, Memory.readBytes_writeBytes hm.canonical]
    have hloaded := (h.qDrop r).loadRequest hst r (Memory.writeBytes s.txReq.pl 0 r.pl)
      (Memory.writeBytes t.txReq.pl 0 r.pl)
    obtain ⟨u, v, hu, hv, huv⟩ := enterTransmit_sameSeen hloaded (h.txAlike hs ht)
      ⟨rfl, rfl, (hread _ hs.txPl_wf).trans (hread _ ht.txPl_wf).symm⟩ (isPacket_iff.mp hp).2
    exact ⟨u, v, (txPoll_of_cons hst hq hp).trans hu, (txPoll_of_cons hst' (h.q ▸ hq) hp).trans hv, huv⟩

/-- R236: a poll of Transmit Delivery reads nothing unspecified. -/
theorem txPoll_sameAnswer : SameAnswer txPoll s t := by
  cases hst : s.txState with
  | pollPending => exact txPoll_sameAnswer_pollPending hs ht h hst
  | transmitPacket =>
    obtain ⟨u, v, hu, hv, huv⟩ := pollTransmit_sameAnswer h (h.txAlike hs ht) hst (hs.request_len hst)
    exact ⟨u, v, (txPoll_transmitPacket hst).trans hu, (txPoll_transmitPacket (h.txState ▸ hst)).trans hv, huv⟩

/-! ## Every operation -/

theorem exec_rxByte_same (b : Byte) : SameOutcome (exec (.rxByte b) s) (exec (.rxByte b) t) := by
  have hrx := (h.rxAlike hs ht).put b
  have hput : (rxPut b s).SameSeen (rxPut b t) :=
    { h with
      rx_ix := hrx.ix
      rx_contents := hrx.contents
      rxOverrun := by rw [rxPut_rxOverrun, rxPut_rxOverrun, h.rxOverrun, h.rx_ix] }
  exact (hput.with_result .none).outcome

theorem exec_rxPoll_same : SameOutcome (exec .rxPoll s) (exec .rxPoll t) := by
  obtain ⟨u, v, hu, hv, huv⟩ := rxPoll_sameAnswer hs ht h
  exact sameOutcome_of_next (exec_rxPoll_of hu) (exec_rxPoll_of hv) (huv.with_result _)

theorem exec_txPoll_same : SameOutcome (exec .txPoll s) (exec .txPoll t) := by
  obtain ⟨u, v, hu, hv, huv⟩ := txPoll_sameAnswer hs ht h
  exact sameOutcome_of_next (exec_txPoll_of hu) (exec_txPoll_of hv) (huv.with_result _)

theorem exec_nackIn_same : SameOutcome (exec .nackIn s) (exec .nackIn t) := by
  by_cases hi : s.txState ≠ .transmitPacket ∨ s.txNoack = true
  · have hi' : t.txState ≠ .transmitPacket ∨ t.txNoack = true := by rwa [← h.txState, ← h.txNoack]
    exact sameOutcome_of_next (exec_nackIn_of_ignored hi) (exec_nackIn_of_ignored hi') (h.with_result _)
  · rw [not_or, not_not, Bool.not_eq_true] at hi
    obtain ⟨hst, hn⟩ := hi
    obtain ⟨u, v, hu, hv, huv⟩ := nackStep_sameAnswer h (h.txAlike hs ht) hst (hs.request_len hst)
    rw [exec_nackIn_of_step hst hn, exec_nackIn_of_step (h.txState ▸ hst) (h.txNoack ▸ hn), hu, hv]
    exact (huv.with_result _).outcome

/-- R71: both rings give the same oldest byte. -/
theorem exec_txDrain_same : SameOutcome (exec .txDrain s) (exec .txDrain t) := by
  cases hc : s.tx.contents with
  | nil =>
    have hlen : txLen s = 0 := by rw [txLen_eq, hc]; rfl
    have hlen' : txLen t = 0 := by rw [txLen_eq, ← h.tx_contents, hc]; rfl
    exact sameOutcome_of_next (exec_txDrain_of_empty hlen) (exec_txDrain_of_empty hlen') (h.with_result _)
  | cons b rest =>
    obtain ⟨hne, hb, hrest⟩ := txOldest_of_cons hs.tx_wf hc
    obtain ⟨hne', hb', hrest'⟩ := txOldest_of_cons ht.tx_wf (h.tx_contents.symm.trans hc)
    have hd := exec_txDrain_of_ne hne
    have hd' := exec_txDrain_of_ne hne'
    rw [hb] at hd
    rw [hb'] at hd'
    refine sameOutcome_of_next hd hd' ?_
    exact { h with
      tx_ix := congrArg Indices.drop1 h.tx_ix
      tx_contents := hrest.trans hrest'.symm
      wireOut := congrArg (· ++ [b]) h.wireOut
      result := rfl }

/-- R29: every operation keeps two states alike in what is seen. -/
theorem exec_same (i : Instr) : SameOutcome (exec i s) (exec i t) := by
  cases i with
  | reset => exact exec_reset_same h
  | rxByte b => exact exec_rxByte_same hs ht h b
  | rxPoll => exact exec_rxPoll_same hs ht h
  | rxRelease => exact exec_rxRelease_same h
  | txEnqueue o a hd pl => exact exec_txEnqueue_same h o a hd pl
  | txPoll => exact exec_txPoll_same hs ht h
  | ackIn => exact exec_ackIn_same h
  | nackIn => exact exec_nackIn_same hs ht h
  | txDrain => exact exec_txDrain_same hs ht h
  | queueDepth => exact h.answer (by rw [qPending, qPending, h.q])
  | tick => exact exec_tick_same h
  | chk m => exact h.answer (by rw [h.cfg])
  | hdrPack hd => exact h.answer (by rw [h.cfg])
  | hdrUnpack q => exact h.answer (by rw [h.cfg])
  | classify c => exact h.answer (by rw [h.cfg])
  | hdrValid hd => exact h.answer (by rw [h.cfg])
  | frameEncode hd pl => exact exec_frameEncode_same h hd pl

end ops

/-! ## The statement -/

/-- Settles O55: the observation reads only what is seen, and each operation reads of the rest nothing that it has not
written before. -/
theorem unspecifiedValuesAreNeverSeen : Obligations.UnspecifiedValuesAreNeverSeen :=
  ⟨fun _ _ h => h.observe_eq, fun i _ _ hs ht h => exec_same hs ht h i⟩

end Sys2Proof.Machine
end

section
/-! SUPPORT. Which operation writes which store and which flag (20_memory.md R60, 10_state.md R36, 60_exceptions.md R301):
what each operation leaves alone, and what the two polls and NACK_IN can do to the stores and flags they write. -/

namespace Sys2Proof.Machine

/-! ## What every operation leaves alone -/

/-- R60, R36: `t` differs from `s` in a store or a flag only where operation `i` is one of its writers. -/
structure Keeps (i : Instr) (s t : State) : Prop where
  cfg : t.cfg = s.cfg
  wireOut : i ≠ .txDrain → t.wireOut = s.wireOut
  rx : i ≠ .rxPoll → (∀ b, i ≠ .rxByte b) → t.rx = s.rx
  rxOverrun : (∀ b, i ≠ .rxByte b) → t.rxOverrun = s.rxOverrun
  tx : i ≠ .txPoll → i ≠ .nackIn → i ≠ .txDrain → t.tx = s.tx
  q : i ≠ .rxPoll → i ≠ .txPoll → (∀ o a h pl, i ≠ .txEnqueue o a h pl) → t.q = s.q
  registers : i ≠ .txPoll → i ≠ .nackIn →
    t.txRetry = s.txRetry ∧ t.txNoack = s.txNoack ∧ t.abortCnt = s.abortCnt
  ackTmr : i ≠ .txPoll → i ≠ .nackIn → i ≠ .ackIn → i ≠ .tick → t.ackTmr = s.ackTmr
  errCode : i ≠ .rxPoll → i ≠ .txPoll → i ≠ .nackIn → t.errCode = s.errCode

section keeps
variable {i : Instr} {s t u : State}

theorem keeps_of_result (r : Result) : Keeps i s { s with result := r } :=
  ⟨rfl, fun _ => rfl, fun _ _ => rfl, fun _ => rfl, fun _ _ _ => rfl, fun _ _ _ => rfl, fun _ _ => ⟨rfl, rfl, rfl⟩,
    fun _ _ _ _ => rfl, fun _ _ _ => rfl⟩

theorem keeps_rxPoll (h : rxPoll s = .ok u) : Keeps .rxPoll s { u with result := .none } := by
  rw [rxPoll_frame h]
  exact ⟨rfl, fun _ => rfl, fun hi => absurd rfl hi, fun _ => rfl, fun _ _ _ => rfl, fun hi => absurd rfl hi,
    fun _ _ => ⟨rfl, rfl, rfl⟩, fun _ _ _ _ => rfl, fun hi => absurd rfl hi⟩

theorem keeps_txPoll (h : txPoll s = .ok u) : Keeps .txPoll s { u with result := .none } := by
  rw [txPoll_frame h]
  exact ⟨rfl, fun _ => rfl, fun _ _ => rfl, fun _ => rfl, fun hi => absurd rfl hi, fun _ hi => absurd rfl hi,
    fun hi => absurd rfl hi, fun hi => absurd rfl hi, fun _ hi => absurd rfl hi⟩

theorem keeps_nackIn (h : nackStep s = .ok u) : Keeps .nackIn s { u with result := .none } := by
  rw [nackStep_frame h]
  exact ⟨rfl, fun _ => rfl, fun _ _ => rfl, fun _ => rfl, fun _ hi => absurd rfl hi, fun _ _ _ => rfl,
    fun _ hi => absurd rfl hi, fun _ hi => absurd rfl hi, fun _ _ hi => absurd rfl hi⟩

/-- R60, R36: apart from RESET, every operation leaves alone what it is no writer of. -/
theorem exec_keeps (h : exec i s = .next t) (hreset : i ≠ .reset) : Keeps i s t := by
  rcases exec_cases h with ⟨rfl, u, hu, rfl⟩ | ⟨rfl, u, hu, rfl⟩ | ⟨rfl, u, rfl | ⟨-, -, hu⟩, rfl⟩ | ⟨hi, -⟩ |
    ⟨b, rfl, rfl⟩ | ⟨rfl, rfl⟩ | ⟨o, a, hd, pl, rfl, -, rfl⟩ | ⟨rfl, rfl⟩ | ⟨rfl, ⟨-, rfl⟩ | ⟨-, rfl⟩⟩ | ⟨rfl, rfl⟩ |
    ⟨r, rfl⟩
  · exact keeps_rxPoll hu
  · exact keeps_txPoll hu
  · exact keeps_of_result _
  · exact keeps_nackIn hu
  · exact absurd hi hreset
  · exact ⟨rfl, fun _ => rfl, fun _ hi => absurd rfl (hi b), fun hi => absurd rfl (hi b), fun _ _ _ => rfl,
      fun _ _ _ => rfl, fun _ _ => ⟨rfl, rfl, rfl⟩, fun _ _ _ _ => rfl, fun _ _ _ => rfl⟩
  · exact ⟨rfl, fun _ => rfl, fun _ _ => rfl, fun _ => rfl, fun _ _ _ => rfl, fun _ _ _ => rfl,
      fun _ _ => ⟨rfl, rfl, rfl⟩, fun _ _ _ _ => rfl, fun _ _ _ => rfl⟩
  · exact ⟨rfl, fun _ => rfl, fun _ _ => rfl, fun _ => rfl, fun _ _ _ => rfl,
      fun _ _ hi => absurd rfl (hi o a hd pl), fun _ _ => ⟨rfl, rfl, rfl⟩, fun _ _ _ _ => rfl, fun _ _ _ => rfl⟩
  · split
    · exact ⟨rfl, fun _ => rfl, fun _ _ => rfl, fun _ => rfl, fun _ _ _ => rfl, fun _ _ _ => rfl,
        fun _ _ => ⟨rfl, rfl, rfl⟩, fun _ _ hi => absurd rfl hi, fun _ _ _ => rfl⟩
    · exact keeps_of_result _
  · exact keeps_of_result _
  · exact ⟨rfl, fun hi => absurd rfl hi, fun _ _ => rfl, fun _ => rfl, fun _ _ hi => absurd rfl hi, fun _ _ _ => rfl,
      fun _ _ => ⟨rfl, rfl, rfl⟩, fun _ _ _ _ => rfl, fun _ _ _ => rfl⟩
  · exact ⟨rfl, fun _ => rfl, fun _ _ => rfl, fun _ => rfl, fun _ _ _ => rfl, fun _ _ _ => rfl,
      fun _ _ => ⟨rfl, rfl, rfl⟩, fun _ _ _ hi => absurd rfl hi, fun _ _ _ => rfl⟩
  · exact keeps_of_result r

/-- R37: no operation writes a configuration value, RESET among them. -/
theorem exec_cfg (h : exec i s = .next t) : t.cfg = s.cfg := by
  by_cases hi : i = .reset
  · subst hi
    rw [done_next.mp h]
    rfl
  · exact (exec_keeps h hi).cfg

end keeps

/-! ## What a poll of the deframer does -/

/-- R66, R302, R189, R301: what a poll of the deframer can do to the RX ring, its timer, the queue and err_code. -/
structure RxPolled (s t : State) : Prop where
  buf : t.rx.buf = s.rx.buf
  rx : t.rx = s.rx ∨ t.rx.ix.full = false
  rxTmr : t.rxTmr = s.rxTmr ∨ t.rxTmr.raised = false
  q : t.q = s.q ∨ ∃ ty, t.q = (sendCtl ty s).q
  errCode : t.errCode = s.errCode ∨ t.errCode ∈ ([2, 3, 4, 5, 6, 7] : List Byte)

section rxPolled
variable {s u : State}

theorem rxPolled_refl (s : State) : RxPolled s s := ⟨rfl, .inl rfl, .inl rfl, .inl rfl, .inl rfl⟩

theorem rxTaken_q (n : Nat) (s : State) : (rxTaken n s).q = s.q := rfl

theorem rxPolled_rxTaken (n : Nat) (s : State) : RxPolled s (rxTaken n s) := by
  refine ⟨Ring.take_buf n s.rx, ?_, .inl rfl, .inl rfl, .inl rfl⟩
  cases n with
  | zero => exact .inl rfl
  | succ n =>
    rw [rxTaken_rx, Ring.take_snd]
    exact .inr rfl

/-- R302: the recovery after bytes have been taken. -/
theorem rxPolled_rxFail (h : RxPolled s u) (hcfg : u.cfg = s.cfg) (hq : u.q = s.q) {e : Err}
    (he : e.code ∈ ([2, 3, 4, 5, 6, 7] : List Byte)) : RxPolled s (rxFail e u) where
  buf := by
    rw [rxFail_rx]
    split
    · exact h.buf
    · exact h.buf
  rx := by
    rw [rxFail_rx]
    split
    · exact .inr rfl
    · exact h.rx
  rxTmr := by rw [rxFail_rxTmr]; exact .inr rfl
  q := .inr ⟨s.cfg.nackType, by rw [rxFail_q, hcfg]; exact sendCtl_q_congr hcfg hq⟩
  errCode := .inr (by rw [rxFail_errCode]; exact he)

theorem rxPolled_preambleStep (h : RxPolled s u) (b : Byte) : RxPolled s (preambleStep b u) := by
  unfold preambleStep
  split
  · split
    · exact { h with rxTmr := .inr rfl }
    · exact { h with }
  · exact { h with }

theorem rxPolled_headerStep (h : RxPolled s u) (hcfg : u.cfg = s.cfg) (hq : u.q = s.q) (hd : Header) :
    RxPolled s (headerStep hd u) := by
  rcases headerStep_cases hd u with ⟨-, ⟨-, e⟩ | ⟨-, e⟩⟩ | ⟨-, e⟩
  · rw [e]; exact { h with rxTmr := .inr rfl }
  · rw [e]; exact { h with rxTmr := .inr rfl }
  · rw [e]; exact rxPolled_rxFail h hcfg hq (by decide)

theorem rxPolled_sendCtl (h : RxPolled s u) (hcfg : u.cfg = s.cfg) (hq : u.q = s.q) (ty : Byte) :
    RxPolled s (sendCtl ty u) where
  buf := by rw [sendCtl_rx]; exact h.buf
  rx := by rw [sendCtl_rx]; exact h.rx
  rxTmr := by rw [sendCtl_rxTmr]; exact h.rxTmr
  q := .inr ⟨ty, sendCtl_q_congr hcfg hq⟩
  errCode := by rw [sendCtl_errCode]; exact h.errCode

theorem rxPolled_enterReady (h : RxPolled s u) : RxPolled s (enterReady u) :=
  { h with rxTmr := .inr rfl }

theorem rxPolled_trailerStep (h : RxPolled s u) (hcfg : u.cfg = s.cfg) (hq : u.q = s.q) (sum received post : U32) :
    RxPolled s (trailerStep sum received post u) := by
  rcases trailerStep_cases sum received post u with ⟨-, e⟩ | ⟨-, -, e⟩ | ⟨-, -, -, e⟩ | ⟨-, -, -, e⟩
  · rw [e]; exact rxPolled_rxFail h hcfg hq (by decide)
  · rw [e]; exact rxPolled_rxFail h hcfg hq (by decide)
  · rw [e]; exact rxPolled_enterReady h
  · rw [e]; exact rxPolled_enterReady (rxPolled_sendCtl h hcfg hq u.cfg.ackType)

theorem rxPoll_polled {t : State} (h : rxPoll s = .ok t) : RxPolled s t := by
  rcases rxPoll_cases h with rfl | ⟨-, -, b, rfl⟩ | ⟨-, e, rfl, he⟩ | ⟨-, -, hd, rfl⟩ | ⟨-, -, m, -, rfl⟩ |
    ⟨-, -, sum, received, post, rfl⟩
  · exact rxPolled_refl _
  · exact rxPolled_preambleStep (rxPolled_rxTaken 1 s) b
  · refine rxPolled_rxFail (rxPolled_refl s) rfl rfl ?_
    rcases he with ⟨-, rfl⟩ | ⟨-, rfl⟩ | ⟨-, rfl⟩ <;> decide
  · exact rxPolled_headerStep (rxPolled_rxTaken 4 s) (rxTaken_cfg 4 s) (rxTaken_q 4 s) hd
  · exact { rxPolled_rxTaken s.rxHdr.len.toNat s with rxTmr := .inr rfl }
  · exact rxPolled_trailerStep (rxPolled_rxTaken 8 s) (rxTaken_cfg 8 s) (rxTaken_q 8 s) sum received post

/-- R60: RX_PL is written by a poll of WAIT_PAYLOAD alone. -/
theorem rxPoll_writes_rxPl {t : State} (h : rxPoll s = .ok t) (hne : t.rxPl ≠ s.rxPl) : s.rxState = .waitPayload := by
  rcases rxPoll_cases h with rfl | ⟨-, -, b, rfl⟩ | ⟨-, e, rfl, -⟩ | ⟨-, -, hd, rfl⟩ | ⟨hs, -⟩ |
    ⟨-, -, sum, received, post, rfl⟩
  · exact absurd rfl hne
  · rw [preambleStep_frame] at hne
    exact absurd rfl hne
  · exact absurd (rxFail_rxPl e s) hne
  · rw [headerStep_frame] at hne
    exact absurd rfl hne
  · exact hs
  · rw [trailerStep_frame] at hne
    exact absurd rfl hne

end rxPolled

/-! ## What a step of Transmit Delivery does -/

/-- R69, R270, R234, R75, R301: what a poll of Transmit Delivery or a NACK_IN can do to the TX ring, the ack timer,
tx_noack, the queue and err_code. -/
structure TxStepped (s t : State) : Prop where
  tx : s.tx.ix.full = true → t.tx = s.tx
  ackTmr : t.ackTmr = s.ackTmr ∨ t.ackTmr.raised = false
  txNoack : t.txNoack = s.txNoack ∨ t.txNoack = !t.txReq.ackReq
  q : t.q = s.q ∨ t.q.reqs = s.q.reqs.tail ∧ t.q.ix.full = false
  errCode : t.errCode = s.errCode ∨ t.errCode ∈ ([8, 9, 10, 12] : List Byte)

section txStepped
variable {s u t : State}

theorem txStepped_refl (s : State) : TxStepped s s := ⟨fun _ => rfl, .inl rfl, .inl rfl, .inl rfl, .inl rfl⟩

/-- R69: a write to a full ring leaves it. -/
theorem write_of_full {r : Ring} (h : r.ix.full = true) (f : List Byte) : r.write f = r := by
  unfold Ring.write Ring.writeResult
  split
  · rfl
  · exact if_neg WriteResult.noConfusion

theorem sendFields_tx_of_full (fs : List (List Byte)) : ∀ {s : State}, s.tx.ix.full = true →
    (sendFields fs s).tx = s.tx := by
  induction fs with
  | nil => exact fun _ => rfl
  | cons f fs ih =>
    intro s h
    have hw : (txWrite f s).tx = s.tx := write_of_full h f
    simp only [sendFields]
    split
    · rw [ih (by rw [hw]; exact h), hw]
    · rfl

theorem sendFields_errCode (fs : List (List Byte)) : ∀ s : State,
    (sendFields fs s).errCode = s.errCode ∨ (sendFields fs s).errCode = 10 := by
  induction fs with
  | nil => exact fun _ => .inl rfl
  | cons f fs ih =>
    intro s
    simp only [sendFields]
    split
    · exact ih (txWrite f s)
    · exact .inr rfl

theorem enterTransmit_eq_sendFields (h : enterTransmit u = .ok t) :
    ∃ fs, t = sendFields fs (enterTransmitRegs u) := by
  simp only [enterTransmit, send] at h
  split at h
  · exact ⟨_, (Except.ok.inj h).symm⟩
  · cases h

/-- R234: entering TRANSMIT_PACKET, from a state `u` reached from `s`. -/
theorem txStepped_enterTransmit (h : TxStepped s u) (ht : enterTransmit u = .ok t) : TxStepped s t := by
  obtain ⟨fs, hfs⟩ := enterTransmit_eq_sendFields ht
  obtain ⟨-, he⟩ := enterTransmit_frame ht
  constructor
  · intro hf
    have hu := h.tx hf
    rw [hfs, sendFields_tx_of_full fs (by rw [enterTransmitRegs_tx, hu]; exact hf), enterTransmitRegs_tx, hu]
  · rw [he]
    show (if u.txReq.ackReq then timerStart u.cfg.tAck else u.ackTmr) = s.ackTmr ∨
      (if u.txReq.ackReq then timerStart u.cfg.tAck else u.ackTmr).raised = false
    split
    · exact .inr rfl
    · exact h.ackTmr
  · rw [he]
    exact .inr rfl
  · rw [he]
    exact h.q
  · rcases sendFields_errCode fs (enterTransmitRegs u) with hc | hc
    · rw [hfs, hc]
      exact h.errCode
    · rw [hfs, hc]
      exact .inr (by decide)

theorem txStepped_resend {e : Err} (he : e.code ∈ ([8, 9, 10, 12] : List Byte)) (h : TxStepped s u)
    (ht : resend e u = .ok t) : TxStepped s t :=
  txStepped_enterTransmit (u := exitTransmit (setErr e u)) { h with ackTmr := .inr rfl, errCode := .inr he } ht

theorem txStepped_completeRequest (s : State) : TxStepped s (completeRequest s) :=
  { txStepped_refl s with ackTmr := .inr rfl }

theorem txStepped_abandonRequest (s : State) : TxStepped s (abandonRequest (countRetry s)) :=
  { txStepped_refl s with
    ackTmr := .inr rfl
    errCode := .inr (show (9 : Byte) ∈ ([8, 9, 10, 12] : List Byte) by decide) }

theorem txPoll_stepped (h : txPoll s = .ok t) : TxStepped s t := by
  rcases txPoll_cases h with ⟨rfl, -⟩ | ⟨-, r, rest, m, -, -, he⟩ | ⟨-, -, rfl⟩ | ⟨-, -, -, ⟨-, rfl⟩ | ⟨-, he⟩⟩
  · exact txStepped_refl _
  · exact txStepped_enterTransmit (u := loadRequest r m (qDrop r s))
      { txStepped_refl s with txNoack := .inl rfl, q := .inr ⟨rfl, rfl⟩ } he
  · exact txStepped_completeRequest s
  · exact txStepped_abandonRequest s
  · exact txStepped_resend (u := countRetry s) (by decide) { txStepped_refl s with } he

theorem nackStep_stepped (h : nackStep s = .ok t) : TxStepped s t := by
  rcases nackStep_cases h with ⟨-, -, rfl⟩ | ⟨-, -, he⟩ | ⟨-, he⟩
  · exact txStepped_abandonRequest s
  · exact txStepped_resend (u := countRetry s) (by decide) { txStepped_refl s with } he
  · exact txStepped_resend (by decide) (txStepped_refl s) he

theorem exec_nackIn_stepped (h : exec .nackIn s = .next t) : TxStepped s t := by
  obtain ⟨u, rfl, ⟨-, rfl⟩ | ⟨-, -, hu⟩⟩ := nackIn_cases h
  · exact { txStepped_refl _ with }
  · exact { nackStep_stepped hu with }

theorem exec_txPoll_stepped (h : exec .txPoll s = .next t) : TxStepped s t := by
  obtain ⟨u, hu, rfl⟩ := exec_txPoll h
  exact { txPoll_stepped hu with }

theorem exec_rxPoll_polled (h : exec .rxPoll s = .next t) : RxPolled s t := by
  obtain ⟨u, hu, rfl⟩ := exec_rxPoll h
  exact { rxPoll_polled hu with }

/-- R75: while a request is in flight a poll leaves the queue. -/
theorem txPoll_q_of_transmitPacket (hs : s.txState = .transmitPacket) (h : txPoll s = .ok t) : t.q = s.q := by
  rcases txPoll_cases h with ⟨rfl, -⟩ | ⟨hp, -⟩ | ⟨-, -, rfl⟩ | ⟨-, -, -, ⟨-, rfl⟩ | ⟨-, he⟩⟩
  · rfl
  · rw [hs] at hp; cases hp
  · rfl
  · rfl
  · obtain ⟨-, ht⟩ := enterTransmit_frame he
    rw [ht]; rfl

end txStepped

/-! ## Writes to the queue -/

theorem qWrite_q_cases (r : Request) (s : State) :
    (qWrite r s).q = s.q ∨ (qWrite r s).q.reqs = s.q.reqs ++ [r] := by
  rw [qWrite_q]
  split
  · exact .inr rfl
  · exact .inl rfl

/-- R72, R36: a full queue that accounts for its requests has no room. -/
theorem qWrite_of_full {s : State} (h : s.q.Wf s.cfg) (hf : s.q.ix.full = true) (r : Request) :
    (qWrite r s).q = s.q := by
  have hlen := (Indices.full_iff h.ix).mp hf
  have hpos := reqSize_pos s.cfg r
  have hacc := h.accounts
  rw [qWrite_q, if_neg]
  rw [qFits_iff]
  omega

/-! ## The statements -/

/-- Settles O48: no operation writes the configuration, which fixes the capacities, and of the operations TX_DRAIN alone
writes the line. -/
theorem configurationIsFixedAndTheLineOnlyGrows : Obligations.ConfigurationIsFixedAndTheLineOnlyGrows := by
  intro i s t h ht
  have hcfg := exec_cfg ht
  have h' := inv_exec h ht
  refine ⟨hcfg, ?_, ?_, ?_, ?_⟩
  · rw [h'.rx_wf.ix.cap_eq, h.rx_wf.ix.cap_eq, hcfg]
  · rw [h'.tx_wf.ix.cap_eq, h.tx_wf.ix.cap_eq, hcfg]
  · rw [h'.q_wf.ix.cap_eq, h.q_wf.ix.cap_eq, hcfg]
  · by_cases hreset : i = .reset
    · subst hreset
      rw [done_next.mp ht]
      exact .inl rfl
    by_cases hdrain : i = .txDrain
    · subst hdrain
      cases hc : s.tx.contents with
      | nil =>
        have hempty := (txDrainMovesOneByteToTheLine s h).1 hc
        obtain rfl := Host.Outcome.next.inj (hempty.symm.trans ht)
        exact .inl rfl
      | cons b rest =>
        obtain ⟨u, hu, -, -, -, hframe⟩ := (txDrainMovesOneByteToTheLine s h).2 b rest hc
        obtain rfl := Host.Outcome.next.inj (hu.symm.trans ht)
        exact .inr ⟨rfl, b, rfl, by rw [hframe], by rw [hframe]⟩
    · exact .inl ((exec_keeps ht hreset).wireOut hdrain)

/-- Settles O49: each store is kept by the operations its row does not name, and the writers' effects on the storage and
the queue are those of the ring and queue operations they use. -/
theorem storesAreWrittenOnlyByTheirWriters : Obligations.StoresAreWrittenOnlyByTheirWriters := by
  intro i s t h hreset
  have hk := exec_keeps h hreset
  refine ⟨fun hne => ?_, fun hne => ?_, fun hne => ?_, fun hne => ?_, fun hne => ?_, fun hne => ?_, fun hne => ?_⟩
  · by_cases hpoll : i = .rxPoll
    · subst hpoll
      obtain ⟨u, hu, rfl⟩ := exec_rxPoll h
      exact ⟨rfl, rxPoll_writes_rxPl hu hne⟩
    by_cases hrel : i = .rxRelease
    · subst hrel
      rw [done_next.mp h] at hne
      split at hne <;> exact absurd rfl hne
    · obtain ⟨-, -, -, hkept, -⟩ := exec_keeps_deframer h hpoll hrel hreset
      exact absurd hkept hne
  · obtain ⟨hi, hs, -⟩ := (requestIsWrittenOnlyByTheDequeue i s t h hreset).1 fun heq => hne (congrArg TxReq.pl heq)
    exact ⟨hi, hs⟩
  · by_contra hb
    by_cases hpoll : i = .rxPoll
    · subst hpoll
      exact hne (exec_rxPoll_polled h).buf
    · exact hne (congrArg Ring.buf (hk.rx hpoll (not_exists.mp hb)))
  · by_contra hb
    rw [not_or] at hb
    exact hne (congrArg Ring.ix (hk.rx hb.1 (not_exists.mp hb.2)))
  · by_contra hb
    rw [not_or] at hb
    by_cases hdrain : i = .txDrain
    · subst hdrain
      by_cases h0 : txLen s = 0
      · rw [exec_txDrain_of_empty h0] at h
        cases h
        exact hne rfl
      · rw [exec_txDrain_of_ne h0] at h
        cases h
        exact hne rfl
    · exact hne (congrArg Ring.buf (hk.tx hb.1 hb.2 hdrain))
  · by_contra hb
    simp only [not_or] at hb
    exact hne (congrArg Ring.ix (hk.tx hb.1 hb.2.1 hb.2.2))
  · by_cases htx : i = .txPoll
    · subst htx
      rcases (exec_txPoll_stepped h).q with hq | ⟨hq, -⟩
      · exact absurd hq hne
      · exact .inl ⟨rfl, hq⟩
    by_cases hrx : i = .rxPoll
    · subst hrx
      rcases (exec_rxPoll_polled h).q with hq | ⟨ty, hq⟩
      · exact absurd hq hne
      · rw [sendCtl_q] at hq
        rcases qWrite_q_cases (mkCtl s.cfg ty) s with hw | hw
        · exact absurd (hq.trans hw) hne
        · exact .inr ⟨.inl rfl, _, by rw [hq, hw]⟩
    by_cases henq : ∃ o a hd pl, i = .txEnqueue o a hd pl
    · obtain ⟨o, a, hd, pl, rfl⟩ := henq
      cases hp : isPacket hd pl with
      | true =>
        rw [exec_txEnqueue_of_isPacket hp] at h
        obtain rfl := Host.Outcome.next.inj h
        exact .inr ⟨.inr ⟨o, a, hd, pl, rfl⟩, _, (qWrite_q_cases _ s).resolve_left hne⟩
      | false =>
        rw [exec_of_not_wellFormed (i := .txEnqueue o a hd pl) hp] at h
        cases h
    · simp only [not_exists] at henq
      exact absurd (hk.q hrx htx henq) hne

/-- Settles O50: in TRANSMIT_PACKET a poll keeps request and queue, and the other writers of the queue append. -/
theorem noSecondRequestWhileOneIsInFlight : Obligations.NoSecondRequestWhileOneIsInFlight := by
  intro i s t hs hreset h
  have hreq : t.txReq = s.txReq := by
    by_contra hne
    obtain ⟨-, hp, -⟩ := (requestIsWrittenOnlyByTheDequeue i s t h hreset).1 hne
    rw [hs] at hp
    cases hp
  refine ⟨hreq, ?_⟩
  by_cases hq : t.q = s.q
  · exact ⟨[], by rw [hq, List.append_nil], Nat.zero_le 1⟩
  · obtain ⟨-, -, -, -, -, -, hwriters⟩ := storesAreWrittenOnlyByTheirWriters i s t h hreset
    rcases hwriters hq with ⟨rfl, -⟩ | ⟨-, r, hr⟩
    · obtain ⟨u, hu, rfl⟩ := exec_txPoll h
      exact absurd (txPoll_q_of_transmitPacket hs hu) hq
    · exact ⟨[r], hr, Nat.le_refl 1⟩

end Sys2Proof.Machine
end

section
/-! SUPPORT. The held packet (10_state.md R28) and the runs that free it (70_reset_and_hazards.md R343, R354). -/

namespace Sys2Proof.Machine

section held
variable {i : Instr} {s t : State}

/-- R28: the registers of a held packet. -/
theorem exec_keeps_held (hs : s.rxState = .packetReady) (hrelease : i ≠ .rxRelease) (hreset : i ≠ .reset)
    (h : exec i s = .next t) : t.rxState = .packetReady ∧ t.rxHdr = s.rxHdr ∧ t.rxPl = s.rxPl := by
  by_cases hpoll : i = .rxPoll
  · subst hpoll
    obtain ⟨u, hu, rfl⟩ := exec_rxPoll h
    obtain rfl := Except.ok.inj ((rxPoll_packetReady hs).symm.trans hu)
    exact ⟨hs, rfl, rfl⟩
  · obtain ⟨hst, -, hhdr, hpl, -⟩ := exec_keeps_deframer h hpoll hrelease hreset
    exact ⟨hst.trans hs, hhdr, hpl⟩

theorem pktOut_congr (hs : s.rxState = .packetReady) (ht : t.rxState = .packetReady) (hhdr : t.rxHdr = s.rxHdr)
    (hpl : t.rxPl = s.rxPl) : pktOut t = pktOut s := by
  rw [pktOut_of_ready hs, pktOut_of_ready ht, hhdr, hpl]

/-- R343 (d): an RX_RELEASE and a RESET leave no held packet. -/
theorem pktOut_of_freed (hi : i = .rxRelease ∨ i = .reset) (h : exec i s = .next t) : pktOut t = none := by
  refine pktOut_of_not_ready ?_
  rcases hi with rfl | rfl
  · by_cases hs : s.rxState = .packetReady
    · obtain rfl := Host.Outcome.next.inj ((exec_rxRelease_of_ready hs).symm.trans h)
      exact RxState.noConfusion
    · obtain rfl := Host.Outcome.next.inj ((exec_rxRelease_of_not_ready hs).symm.trans h)
      exact hs
  · rw [done_next.mp h]
    exact RxState.noConfusion

end held

/-- R28, log 22: along a run a held packet stays until the first release or reset. -/
theorem held_until_freed {op : Nat → Instr} {run : Nat → State} {n : Nat} (hrun : IsRun op run)
    (hready : (run n).rxState = .packetReady) : ∀ k, (∀ j, j < k → ¬ (op (n + j) = .rxRelease ∨ op (n + j) = .reset)) →
      (run (n + k)).rxState = .packetReady ∧ pktOut (run (n + k)) = pktOut (run n)
  | 0, _ => ⟨hready, rfl⟩
  | k + 1, hno => by
    obtain ⟨hk, hpkt⟩ := held_until_freed hrun hready k fun j hj => hno j (Nat.lt_succ_of_lt hj)
    obtain ⟨hrelease, hreset⟩ := not_or.mp (hno k (Nat.lt_succ_self k))
    obtain ⟨hk', hhdr, hpl⟩ := exec_keeps_held hk hrelease hreset (hrun (n + k))
    exact ⟨hk', (pktOut_congr hk hk' hhdr hpl).trans hpkt⟩

/-! ## The statements -/

/-- Settles O43: pkt_out is read from registers that no other operation writes in PACKET_READY. -/
theorem heldPacketIsStable : Obligations.HeldPacketIsStable := by
  intro i s t hs hrelease hreset h
  obtain ⟨ht, hhdr, hpl⟩ := exec_keeps_held hs hrelease hreset h
  exact ⟨pktOut_congr hs ht hhdr hpl, by rw [pktOut_of_ready ht]; rfl, hhdr, hpl⟩

/-- Settles O56: the packet is held until the first release or reset, which the dispatcher's duty makes happen. -/
theorem releasesAreWhatFreesAHeldPacket : Obligations.ReleasesAreWhatFreesAHeldPacket := by
  intro op run n hrun hready
  constructor
  · intro hno m hm
    obtain ⟨k, rfl⟩ := Nat.exists_eq_add_of_le hm
    exact held_until_freed hrun hready k fun j _ => not_or.mpr (hno (n + j) (Nat.le_add_right n j))
  · intro hfair
    have hfreed : ∃ k, op (n + k) = .rxRelease ∨ op (n + k) = .reset := by
      obtain ⟨m, hm, hop⟩ := hfair.releases n hready
      obtain ⟨k, rfl⟩ := Nat.exists_eq_add_of_le hm
      exact ⟨k, .inl hop⟩
    refine ⟨n + Nat.find hfreed, Nat.le_add_right n _, Nat.find_spec hfreed, ?_,
      pktOut_of_freed (Nat.find_spec hfreed) (hrun _)⟩
    exact (held_until_freed hrun hready _ fun j hj => Nat.find_min hfreed hj).1

end Sys2Proof.Machine
end
section
/-! SUPPORT. A request that needs no ACK (43_delivery.md R240 (b)). -/

namespace Sys2Proof.Machine

/-- Settles O51: while it is in flight TX_POLL and ACK_IN complete it, NACK_IN is ignored, and TX_DRAIN is the only
other operation that touches the TX ring. -/
theorem noAckRequestGetsOneAttempt : Obligations.NoAckRequestGetsOneAttempt := by
  intro i s t hinv hs hn hreset h
  by_cases hpoll : i = .txPoll
  · subst hpoll
    have hc := exec_txPoll_of ((txPoll_transmitPacket hs).trans (pollTransmit_of_noack hn))
    obtain rfl := Host.Outcome.next.inj (hc.symm.trans h)
    exact ⟨.inl rfl, .inl rfl, rfl, rfl⟩
  by_cases hnack : i = .nackIn
  · subst hnack
    obtain rfl := Host.Outcome.next.inj ((exec_nackIn_of_ignored (.inr hn)).symm.trans h)
    exact ⟨.inl rfl, .inr ⟨hs, hn, rfl⟩, rfl, rfl⟩
  have hk := exec_keeps h hreset
  obtain ⟨hretry, hnoack, habort⟩ := hk.registers hpoll hnack
  refine ⟨?_, ?_, hretry, habort⟩
  · by_cases hdrain : i = .txDrain
    · subst hdrain
      refine .inr ⟨rfl, ?_⟩
      cases hc : s.tx.contents with
      | nil =>
        obtain rfl := Host.Outcome.next.inj (((txDrainMovesOneByteToTheLine s hinv).1 hc).symm.trans h)
        exact hc
      | cons b rest =>
        obtain ⟨u, hu, hcont, -⟩ := (txDrainMovesOneByteToTheLine s hinv).2 b rest hc
        obtain rfl := Host.Outcome.next.inj (hu.symm.trans h)
        exact hcont
    · exact .inl (congrArg Ring.contents (hk.tx hpoll hnack hdrain))
  · by_cases hack : i = .ackIn
    · subst hack
      obtain rfl := Host.Outcome.next.inj ((exec_ackIn_of_transmitPacket hs).symm.trans h)
      exact .inl rfl
    · obtain ⟨hreq, hst⟩ := exec_keeps_request h hpoll hreset
      exact .inr ⟨(hst hack hnack).trans hs, hnoack.trans hn, hreq⟩

end Sys2Proof.Machine
end

section
/-! SUPPORT. The flags (10_state.md R36): which operations set and clear each of them. -/

namespace Sys2Proof.Machine

/-! ## The flags of a time event -/

/-- R272: a tick that changes a flag of the event is the one at which it fires. -/
theorem timerTick_cases (e : TimeEvent) :
    e.active = true ∧ e.rem.toNat ≤ 1 ∧ (timerTick e).raised = true ∨
      (timerTick e).active = e.active ∧ (timerTick e).raised = e.raised := by
  cases ha : e.active with
  | false =>
    rw [timerTick_of_inactive ha]
    exact .inr ⟨ha, rfl⟩
  | true =>
    rcases Nat.lt_or_ge 1 e.rem.toNat with hr | hr
    · obtain ⟨-, hactive, hraised⟩ := timerTick_counts ha hr
      exact .inr ⟨hactive, hraised⟩
    · exact .inl ⟨rfl, hr, by rw [timerTick_fires ha hr]⟩

/-- R36: how an operation may change the flags of a time event: `tick`, `starts` and `stops` say whether it is TICK, one
that starts the event, or one that stops it. -/
structure TimerFlags (tick starts stops : Prop) (e e' : TimeEvent) : Prop where
  started : e.active = false → e'.active = true → starts
  stopped : e.active = true → e'.active = false → stops ∨ (tick ∧ e.rem.toNat ≤ 1 ∧ e'.raised = true)
  fired : e.raised = false → e'.raised = true → tick ∧ e.active = true ∧ e.rem.toNat ≤ 1
  cleared : e.raised = true → e'.raised = false → stops

theorem ne_of_false_of_true {a b : Bool} (ha : a = false) (hb : b = true) : b ≠ a := by
  rw [ha, hb]
  exact Bool.noConfusion

section timerFlags
variable {tick starts stops : Prop} {e e' : TimeEvent}

theorem timerFlags_of_kept (ha : e'.active = e.active) (hr : e'.raised = e.raised) :
    TimerFlags tick starts stops e e' where
  started h h' := absurd ha (ne_of_false_of_true h h')
  stopped h h' := absurd ha.symm (ne_of_false_of_true h' h)
  fired h h' := absurd hr (ne_of_false_of_true h h')
  cleared h h' := absurd hr.symm (ne_of_false_of_true h' h)

theorem timerFlags_timerTick (ht : tick) : TimerFlags tick starts stops e (timerTick e) := by
  rcases timerTick_cases e with ⟨hactive, hrem, hraised⟩ | ⟨hactive, hraised⟩
  · exact {
      started := fun h _ => absurd rfl (ne_of_false_of_true h hactive)
      stopped := fun _ _ => .inr ⟨ht, hrem, hraised⟩
      fired := fun _ _ => ⟨ht, hactive, hrem⟩
      cleared := fun _ h => absurd rfl (ne_of_false_of_true h hraised) }
  · exact timerFlags_of_kept hactive hraised

/-- R270: an operation that starts and stops the event, and so never leaves it raised anew. -/
theorem timerFlags_of_writer (hstarts : starts) (hstops : stops) (h : e' = e ∨ e'.raised = false) :
    TimerFlags tick starts stops e e' where
  started _ _ := hstarts
  stopped _ _ := .inl hstops
  fired hr hr' := by
    rcases h with rfl | h
    · exact absurd rfl (ne_of_false_of_true hr hr')
    · exact absurd rfl (ne_of_false_of_true h hr')
  cleared _ _ := hstops

theorem timerFlags_timerStop (hstops : stops) : TimerFlags tick starts stops e (timerStop e) where
  started _ h := absurd h Bool.noConfusion
  stopped _ _ := .inl hstops
  fired _ h := absurd h Bool.noConfusion
  cleared _ _ := hstops

end timerFlags

section flags
variable {i : Instr} {s t : State}

/-- R273: the state after a TICK. -/
theorem exec_tick (s : State) :
    exec .tick s = .next { s with rxTmr := timerTick s.rxTmr, ackTmr := timerTick s.ackTmr, result := .none } := rfl

/-- R36: the deframer's time event. -/
theorem exec_rxTmr_flags (h : exec i s = .next t) (hreset : i ≠ .reset) :
    TimerFlags (i = .tick) (i = .rxPoll) (i = .rxPoll) s.rxTmr t.rxTmr := by
  by_cases htick : i = .tick
  · subst htick
    obtain rfl := Host.Outcome.next.inj ((exec_tick s).symm.trans h)
    exact timerFlags_timerTick rfl
  by_cases hpoll : i = .rxPoll
  · subst hpoll
    exact timerFlags_of_writer rfl rfl (exec_rxPoll_polled h).rxTmr
  have hkept : t.rxTmr = s.rxTmr := by
    by_cases hrelease : i = .rxRelease
    · subst hrelease
      rw [done_next.mp h]
      split <;> rfl
    · obtain ⟨-, -, -, -, htmr⟩ := exec_keeps_deframer h hpoll hrelease hreset
      exact htmr htick
  exact timerFlags_of_kept (congrArg TimeEvent.active hkept) (congrArg TimeEvent.raised hkept)

/-- R36: Transmit Delivery's time event. -/
theorem exec_ackTmr_flags (h : exec i s = .next t) (hreset : i ≠ .reset) :
    TimerFlags (i = .tick) (i = .txPoll ∨ i = .nackIn) (i = .txPoll ∨ i = .ackIn ∨ i = .nackIn)
      s.ackTmr t.ackTmr := by
  by_cases htick : i = .tick
  · subst htick
    obtain rfl := Host.Outcome.next.inj ((exec_tick s).symm.trans h)
    exact timerFlags_timerTick rfl
  by_cases hpoll : i = .txPoll
  · subst hpoll
    exact timerFlags_of_writer (.inl rfl) (.inl rfl) (exec_txPoll_stepped h).ackTmr
  by_cases hnack : i = .nackIn
  · subst hnack
    exact timerFlags_of_writer (.inr rfl) (.inr (.inr rfl)) (exec_nackIn_stepped h).ackTmr
  by_cases hack : i = .ackIn
  · subst hack
    cases hs : s.txState with
    | transmitPacket =>
      obtain rfl := Host.Outcome.next.inj ((exec_ackIn_of_transmitPacket hs).symm.trans h)
      exact timerFlags_timerStop (.inr (.inl rfl))
    | pollPending =>
      obtain rfl := Host.Outcome.next.inj ((exec_ackIn_of_pollPending hs).symm.trans h)
      exact timerFlags_of_kept rfl rfl
  have hkept := (exec_keeps h hreset).ackTmr hpoll hnack hack htick
  exact timerFlags_of_kept (congrArg TimeEvent.active hkept) (congrArg TimeEvent.raised hkept)

/-! ## tx_noack -/

theorem exec_txNoack (h : exec i s = .next t) (hreset : i ≠ .reset) (hne : t.txNoack ≠ s.txNoack) :
    (i = .txPoll ∨ i = .nackIn) ∧ t.txNoack = !t.txReq.ackReq := by
  by_cases hpoll : i = .txPoll
  · subst hpoll
    exact ⟨.inl rfl, (exec_txPoll_stepped h).txNoack.resolve_left hne⟩
  by_cases hnack : i = .nackIn
  · subst hnack
    exact ⟨.inr rfl, (exec_nackIn_stepped h).txNoack.resolve_left hne⟩
  obtain ⟨-, hkept, -⟩ := (exec_keeps h hreset).registers hpoll hnack
  exact absurd hkept hne

/-! ## The full flags -/

/-- R64: a byte put on a full ring leaves it full. -/
theorem put_full_of_full {ix : Indices} {cap : Nat} (h : ix.Wf cap) (hf : ix.full = true) : ix.put.full = true :=
  (Indices.full_iff h.put).mpr (by rw [Indices.dataLen_put h, if_pos hf])

theorem exec_fills_rx (h : exec i s = .next t) (hreset : i ≠ .reset) (hf : s.rx.ix.full = false)
    (hf' : t.rx.ix.full = true) : ∃ b, i = .rxByte b := by
  by_contra hb
  have hne : t.rx ≠ s.rx := fun he => ne_of_false_of_true hf hf' (by rw [he])
  by_cases hpoll : i = .rxPoll
  · subst hpoll
    exact absurd rfl (ne_of_false_of_true ((exec_rxPoll_polled h).rx.resolve_left hne) hf')
  · exact hne ((exec_keeps h hreset).rx hpoll (not_exists.mp hb))

theorem exec_unfills_rx (h : exec i s = .next t) (hreset : i ≠ .reset) (hinv : s.Inv) (hf : s.rx.ix.full = true)
    (hf' : t.rx.ix.full = false) : i = .rxPoll := by
  by_contra hpoll
  by_cases hb : ∃ b, i = .rxByte b
  · obtain ⟨b, rfl⟩ := hb
    rw [done_next.mp h] at hf'
    exact absurd rfl (ne_of_false_of_true hf' (put_full_of_full hinv.rx_wf.ix hf))
  · have hkept := (exec_keeps h hreset).rx hpoll (not_exists.mp hb)
    exact ne_of_false_of_true hf' hf (by rw [hkept])

theorem exec_fills_tx (h : exec i s = .next t) (hreset : i ≠ .reset) (hf : s.tx.ix.full = false)
    (hf' : t.tx.ix.full = true) : i = .txPoll ∨ i = .nackIn := by
  by_contra hw
  obtain ⟨hpoll, hnack⟩ := not_or.mp hw
  have hne : t.tx ≠ s.tx := fun he => ne_of_false_of_true hf hf' (by rw [he])
  by_cases hdrain : i = .txDrain
  · subst hdrain
    by_cases h0 : txLen s = 0
    · obtain rfl := Host.Outcome.next.inj ((exec_txDrain_of_empty h0).symm.trans h)
      exact hne rfl
    · obtain rfl := Host.Outcome.next.inj ((exec_txDrain_of_ne h0).symm.trans h)
      exact absurd hf' Bool.noConfusion
  · exact hne ((exec_keeps h hreset).tx hpoll hnack hdrain)

theorem exec_unfills_tx (h : exec i s = .next t) (hreset : i ≠ .reset) (hf : s.tx.ix.full = true)
    (hf' : t.tx.ix.full = false) : i = .txDrain := by
  by_contra hdrain
  have hne : t.tx ≠ s.tx := fun he => ne_of_false_of_true hf' hf (by rw [he])
  by_cases hpoll : i = .txPoll
  · subst hpoll
    exact hne ((exec_txPoll_stepped h).tx hf)
  by_cases hnack : i = .nackIn
  · subst hnack
    exact hne ((exec_nackIn_stepped h).tx hf)
  · exact hne ((exec_keeps h hreset).tx hpoll hnack hdrain)

theorem exec_fills_q (h : exec i s = .next t) (hreset : i ≠ .reset) (hf : s.q.ix.full = false)
    (hf' : t.q.ix.full = true) : i = .rxPoll ∨ ∃ o a hd pl, i = .txEnqueue o a hd pl := by
  by_contra hw
  simp only [not_or, not_exists] at hw
  obtain ⟨hrx, henq⟩ := hw
  have hne : t.q ≠ s.q := fun he => ne_of_false_of_true hf hf' (by rw [he])
  by_cases hpoll : i = .txPoll
  · subst hpoll
    obtain ⟨-, hempty⟩ := (exec_txPoll_stepped h).q.resolve_left hne
    exact absurd rfl (ne_of_false_of_true hempty hf')
  · exact hne ((exec_keeps h hreset).q hrx hpoll henq)

theorem exec_unfills_q (h : exec i s = .next t) (hreset : i ≠ .reset) (hinv : s.Inv) (hf : s.q.ix.full = true)
    (hf' : t.q.ix.full = false) : i = .txPoll := by
  by_contra hpoll
  have hne : t.q ≠ s.q := fun he => ne_of_false_of_true hf' hf (by rw [he])
  by_cases hrx : i = .rxPoll
  · subst hrx
    obtain ⟨ty, hq⟩ := (exec_rxPoll_polled h).q.resolve_left hne
    exact hne (hq.trans (qWrite_of_full hinv.q_wf hf (mkCtl s.cfg ty)))
  by_cases henq : ∃ o a hd pl, i = .txEnqueue o a hd pl
  · obtain ⟨o, a, hd, pl, rfl⟩ := henq
    cases hp : isPacket hd pl with
    | true =>
      obtain rfl := Host.Outcome.next.inj ((exec_txEnqueue_of_isPacket hp).symm.trans h)
      exact hne (qWrite_of_full hinv.q_wf hf _)
    | false =>
      rw [exec_of_not_wellFormed (i := .txEnqueue o a hd pl) hp] at h
      cases h
  · simp only [not_exists] at henq
    exact hne ((exec_keeps h hreset).q hrx hpoll henq)

/-! ## rx_overrun and err_code -/

theorem exec_rxByte_rxOverrun {b : Byte} (h : exec (.rxByte b) s = .next t) :
    t.rxOverrun = (s.rxOverrun || s.rx.ix.full) := by
  rw [done_next.mp h]
  rfl

theorem exec_keeps_overrun (h : exec i s = .next t) (hreset : i ≠ .reset) (ho : s.rxOverrun = true) :
    t.rxOverrun = true := by
  by_cases hb : ∃ b, i = .rxByte b
  · obtain ⟨b, rfl⟩ := hb
    rw [exec_rxByte_rxOverrun h, ho, Bool.true_or]
  · exact ((exec_keeps h hreset).rxOverrun (not_exists.mp hb)).trans ho

theorem exec_sets_overrun (h : exec i s = .next t) (hreset : i ≠ .reset) (ho : s.rxOverrun = false)
    (ho' : t.rxOverrun = true) : ∃ b, i = .rxByte b ∧ s.rx.ix.full = true := by
  by_cases hb : ∃ b, i = .rxByte b
  · obtain ⟨b, rfl⟩ := hb
    rw [exec_rxByte_rxOverrun h, ho, Bool.false_or] at ho'
    exact ⟨b, rfl, ho'⟩
  · exact absurd ((exec_keeps h hreset).rxOverrun (not_exists.mp hb)) (ne_of_false_of_true ho ho')

theorem exec_errCode (h : exec i s = .next t) (hreset : i ≠ .reset) :
    t.errCode = s.errCode ∨ t.errCode ∈ ([2, 3, 4, 5, 6, 7, 8, 9, 10, 12] : List Byte) := by
  have hrxCodes : ([2, 3, 4, 5, 6, 7] : List Byte) ⊆ [2, 3, 4, 5, 6, 7, 8, 9, 10, 12] := by decide
  have htxCodes : ([8, 9, 10, 12] : List Byte) ⊆ [2, 3, 4, 5, 6, 7, 8, 9, 10, 12] := by decide
  by_cases hrx : i = .rxPoll
  · subst hrx
    exact (exec_rxPoll_polled h).errCode.imp_right fun hc => hrxCodes hc
  by_cases hpoll : i = .txPoll
  · subst hpoll
    exact (exec_txPoll_stepped h).errCode.imp_right fun hc => htxCodes hc
  by_cases hnack : i = .nackIn
  · subst hnack
    exact (exec_nackIn_stepped h).errCode.imp_right fun hc => htxCodes hc
  · exact .inl ((exec_keeps h hreset).errCode hrx hpoll hnack)

end flags

/-- Settles O47: one lemma for each flag and each of its directions. -/
theorem flagsChangeOnlyAsTabled : Obligations.FlagsChangeOnlyAsTabled := by
  intro i s t h hreset
  have hrx := exec_rxTmr_flags h hreset
  have hack := exec_ackTmr_flags h hreset
  exact ⟨hrx.started, hrx.stopped, hrx.fired, hrx.cleared, hack.started,
    fun ha ha' => by simpa only [or_assoc] using hack.stopped ha ha', hack.fired, hack.cleared,
    exec_txNoack h hreset, exec_fills_rx h hreset, exec_unfills_rx h hreset, exec_fills_tx h hreset,
    exec_unfills_tx h hreset, exec_fills_q h hreset, exec_unfills_q h hreset, exec_keeps_overrun h hreset,
    exec_sets_overrun h hreset, exec_errCode h hreset⟩

end Sys2Proof.Machine
end

section
/-! SUPPORT. A request that is never answered (43_delivery.md R240 (a)): what holds after each of its attempts. -/

namespace Sys2Proof.Machine

/-! ## Sequences of operations -/

theorem execAll_cons {i : Instr} {is : List Instr} {s t : State} (h : exec i s = .next t) :
    execAll (i :: is) s = execAll is t := by
  rw [execAll, h]

theorem execAll_append {js : List Instr} : ∀ {is : List Instr} {s t : State}, execAll is s = .next t →
    execAll (is ++ js) s = execAll js t
  | [], _, _, h => by rw [← Host.Outcome.next.inj h, List.nil_append]
  | i :: is, s, t, h => by
    cases hi : exec i s with
    | next u =>
      rw [execAll_cons hi] at h
      rw [List.cons_append, execAll_cons hi, execAll_append h]
    | fault f => rw [execAll, hi] at h; cases h
    | refused r => rw [execAll, hi] at h; cases h

theorem inv_execAll : ∀ {is : List Instr} {s t : State}, s.Inv → execAll is s = .next t → t.Inv
  | [], _, _, hs, h => Host.Outcome.next.inj h ▸ hs
  | i :: is, s, t, hs, h => by
    cases hi : exec i s with
    | next u =>
      rw [execAll_cons hi] at h
      exact inv_execAll (inv_exec hs hi) h
    | fault f => rw [execAll, hi] at h; cases h
    | refused r => rw [execAll, hi] at h; cases h

/-- R273: `n` ticks tick each time event `n` times. -/
theorem execAll_ticks : ∀ (n : Nat) (s : State), ∃ r, execAll (ticks n) s =
    .next { s with rxTmr := timerTick^[n] s.rxTmr, ackTmr := timerTick^[n] s.ackTmr, result := r }
  | 0, s => ⟨s.result, rfl⟩
  | n + 1, s => by
    obtain ⟨r, hr⟩ := execAll_ticks n
      { s with rxTmr := timerTick s.rxTmr, ackTmr := timerTick s.ackTmr, result := .none }
    refine ⟨r, ?_⟩
    rw [ticks, List.replicate_succ, execAll_cons (exec_tick s)]
    exact hr

/-! ## The attempts of one request -/

/-- R240 (a): from `s`, the request `r` has been attempted `k + 1` times, and its ack timer has just been started. -/
structure Unanswered (r : Request) (rest : List Request) (s : State) (k : Nat) (u : State) : Prop where
  inv : u.Inv
  cfg : u.cfg = s.cfg
  txState : u.txState = .transmitPacket
  txNoack : u.txNoack = false
  ackReq : u.txReq.ackReq = true
  hdr : u.txReq.hdr = r.hdr
  payload : Memory.readBytes u.txReq.pl 0 r.hdr.len.toNat = r.pl
  ackTmr : u.ackTmr = timerStart s.cfg.tAck
  txRetry : u.txRetry.toNat = k
  contents : u.tx.contents = s.tx.contents ++ (List.replicate (k + 1) (frameEncode s.cfg r.hdr r.pl)).flatten
  queue : u.q.reqs = rest
  abandonCnt : u.abandonCnt = s.abandonCnt
  abortCnt : u.abortCnt = s.abortCnt

/-- R240 (a): `T_ACK` ticks and a poll. -/
def retryRound (c : Config) : List Instr := ticks c.tAck.toNat ++ [.txPoll]

section unanswered
variable {r : Request} {rest : List Request} {s u : State} {k : Nat}

/-- R236: the first attempt. -/
theorem exec_txPoll_unanswered (h : s.Inv) (hs : s.txState = .pollPending) (hq : s.q.reqs = r :: rest)
    (hack : r.ackReq = true)
    (hfit : s.tx.ix.dataLen + (16 + r.pl.length) ≤ s.cfg.txCap.toNat) :
    ∃ u, exec .txPoll s = .next u ∧ Unanswered r rest s 0 u := by
  obtain ⟨u, hu, hd⟩ := exec_txPoll_dequeues h hs hq
  obtain ⟨hc, -, ha⟩ := hd.attempt.sent (by rw [h.tx_wf.ix.cap_eq]; exact hfit)
  exact ⟨u, hu, {
    inv := inv_exec h hu
    cfg := exec_cfg hu
    txState := hd.txState
    txNoack := by rw [hd.txNoack, hack]; rfl
    ackReq := hd.ackReq.trans hack
    hdr := hd.hdr
    payload := hd.payload
    ackTmr := by rw [hd.ackTmr, if_pos hack]
    txRetry := by rw [hd.txRetry]; rfl
    contents := by rw [hc, List.replicate_one, List.flatten_singleton]
    queue := hd.queue
    abandonCnt := by rw [hd.frame]
    abortCnt := ha }⟩

/-- R272: `T_ACK` ticks after an attempt the ack timer has fired, and nothing else of the request has changed. -/
theorem Unanswered.execAll_ticks (h : Unanswered r rest s k u) :
    ∃ tmr res, execAll (ticks s.cfg.tAck.toNat) u =
      .next { u with rxTmr := tmr, ackTmr := { rem := 0, active := false, raised := true }, result := res } := by
  obtain ⟨-, -, htimes, -⟩ := configOk_iff.mp h.inv.config
  obtain ⟨-, -, hpos, -⟩ := timesOk_iff.mp htimes
  rw [h.cfg] at hpos
  obtain ⟨res, hw⟩ := Machine.execAll_ticks s.cfg.tAck.toNat u
  rw [h.ackTmr, iterate_timerTick_of_le hpos (Nat.le_refl _)] at hw
  exact ⟨_, res, hw⟩

theorem execAll_retryRound {c : Config} {v w : State} (hw : execAll (ticks c.tAck.toNat) u = .next w)
    (hv : exec .txPoll w = .next v) : execAll (retryRound c) u = .next v := by
  rw [retryRound, execAll_append hw, execAll_cons hv, execAll]

/-- R236: the next attempt. -/
theorem Unanswered.resend (h : Unanswered r rest s k u) (hk : k < s.cfg.maxRetries.toNat)
    (hfit : u.tx.ix.dataLen + (16 + r.pl.length) ≤ s.cfg.txCap.toNat) :
    ∃ v, execAll (retryRound s.cfg) u = .next v ∧ Unanswered r rest s (k + 1) v := by
  obtain ⟨tmr, res, hw⟩ := h.execAll_ticks
  have hlt : u.txRetry < u.cfg.maxRetries := by
    rw [BitVec.lt_def, h.txRetry, h.cfg]
    exact hk
  have hinv := inv_execAll h.inv hw
  obtain ⟨v, hv, hres⟩ := exec_txPoll_resends hinv h.txState h.txNoack rfl hlt
  have hattempt : Attempted u.txReq.hdr (Memory.readBytes u.txReq.pl 0 u.txReq.hdr.len.toNat) Err.ackTimeout.code _ v :=
    hres.attempt
  rw [h.hdr, h.payload] at hattempt
  obtain ⟨hc, -, ha⟩ := hattempt.sent (by rw [hinv.tx_wf.ix.cap_eq]; exact h.cfg ▸ hfit)
  have hcfg := exec_cfg hv
  refine ⟨v, execAll_retryRound hw hv, ?_⟩
  exact {
    inv := inv_exec hinv hv
    cfg := hcfg.trans h.cfg
    txState := by rw [hres.frame]; exact h.txState
    txNoack := hres.txNoack.trans (by rw [h.ackReq]; rfl)
    ackReq := by rw [hres.frame]; exact h.ackReq
    hdr := by rw [hres.frame]; exact h.hdr
    payload := by rw [hres.frame]; exact h.payload
    ackTmr := (hres.ackTmr h.ackReq).trans (by rw [h.cfg])
    txRetry := by rw [hres.txRetry, toNat_succ_of_lt hlt, h.txRetry]
    contents := by
      rw [hc, h.cfg, List.replicate_succ', List.flatten_append, List.flatten_singleton, ← List.append_assoc,
        ← h.contents]
    queue := by rw [hres.frame]; exact h.queue
    abandonCnt := by rw [hres.frame]; exact h.abandonCnt
    abortCnt := ha.trans h.abortCnt }

/-- R236: the poll that abandons, with MAX_RETRIES used up. -/
theorem Unanswered.abandon (h : Unanswered r rest s s.cfg.maxRetries.toNat u) :
    ∃ v, execAll (retryRound s.cfg) u = .next v ∧ v.tx.contents = u.tx.contents ∧ v.txState = .pollPending ∧
      v.abandonCnt = u.abandonCnt + 1 ∧ v.errCode = 9 ∧ v.q.reqs = u.q.reqs ∧ v.abortCnt = u.abortCnt := by
  obtain ⟨tmr, res, hw⟩ := h.execAll_ticks
  have hmax : u.txRetry = u.cfg.maxRetries := BitVec.eq_of_toNat_eq (by rw [h.txRetry, h.cfg])
  have hv := exec_txPoll_abandons (inv_execAll h.inv hw) h.txState h.txNoack rfl hmax
  exact ⟨_, execAll_retryRound hw hv, rfl, rfl, rfl, rfl, rfl, rfl⟩

/-- R240 (a): the bytes in the TX ring after `k + 1` attempts. -/
theorem Unanswered.dataLen (h : Unanswered r rest s k u) :
    u.tx.ix.dataLen = s.tx.ix.dataLen + (k + 1) * (16 + r.pl.length) := by
  rw [← Ring.length_contents, h.contents, List.length_append, Ring.length_contents, List.length_flatten,
    List.map_replicate, List.sum_replicate_nat, length_frameEncode]

/-- R240 (a): `k` rounds make `k` more attempts. -/
theorem Unanswered.retries (h : Unanswered r rest s 0 u)
    (hfit : s.tx.ix.dataLen + (s.cfg.maxRetries.toNat + 1) * (16 + r.pl.length) ≤ s.cfg.txCap.toNat) :
    ∀ k, k ≤ s.cfg.maxRetries.toNat →
      ∃ v, execAll (List.replicate k (retryRound s.cfg)).flatten u = .next v ∧ Unanswered r rest s k v
  | 0, _ => ⟨u, rfl, h⟩
  | k + 1, hk => by
    obtain ⟨v, hv, hk'⟩ := h.retries hfit k (Nat.le_of_succ_le hk)
    have hroom : v.tx.ix.dataLen + (16 + r.pl.length) ≤ s.cfg.txCap.toNat := by
      have hle := Nat.mul_le_mul_right (16 + r.pl.length) (show k + 1 + 1 ≤ s.cfg.maxRetries.toNat + 1 by omega)
      rw [Nat.succ_mul] at hle
      rw [hk'.dataLen]
      omega
    obtain ⟨w, hw, hw'⟩ := hk'.resend hk hroom
    refine ⟨w, ?_, hw'⟩
    rw [List.replicate_succ', List.flatten_append, List.flatten_singleton, execAll_append hv, hw]

end unanswered

/-! ## The statement -/

/-- Settles O52: the first poll makes one attempt, each of MAX_RETRIES rounds one more, and one more round abandons. -/
theorem unansweredRequestGetsExactlyMaxRetriesPlusOneAttempts :
    Obligations.UnansweredRequestGetsExactlyMaxRetriesPlusOneAttempts := by
  intro s r rest h hs hq hack hfit
  obtain ⟨hlen, -⟩ := isPacket_iff.mp (h.q_wf.packets r (by rw [hq]; exact List.mem_cons_self))
  rw [← hlen] at hfit
  have hfirst : s.tx.ix.dataLen + (16 + r.pl.length) ≤ s.cfg.txCap.toNat := by
    rw [Nat.succ_mul] at hfit
    omega
  obtain ⟨u, hu, h0⟩ := exec_txPoll_unanswered h hs hq hack hfirst
  obtain ⟨v, hv, hmax⟩ := h0.retries hfit s.cfg.maxRetries.toNat (Nat.le_refl _)
  obtain ⟨t, ht, hc, hst, hab, he, hreqs, hn⟩ := hmax.abandon
  refine ⟨t, ?_, hc.trans hmax.contents, hst, hab.trans (by rw [hmax.abandonCnt]), he, hreqs.trans hmax.queue,
    hn.trans hmax.abortCnt⟩
  rw [execAll_cons hu, List.replicate_succ', List.flatten_append, List.flatten_singleton]
  exact (execAll_append hv).trans ht

end Sys2Proof.Machine
end
